-- ==== Sys2Proof/Word.lean ====
section
/-! DEFINITION. The word types of TLFCORE. -/

namespace Sys2Proof

/-- One byte of a host access or of the 1/π ROM. -/
abbrev Byte := BitVec 8

/-- A control/status register, a register word and the data of a host access are 64 bits wide (R34, R61). -/
abbrev Word := BitVec 64

/-- An operand register holds 256 raw bits (R31).  Packed values of every format are carried in this
width, zero-extended. -/
abbrev Reg := BitVec 256

/-- A command word (R90). -/
abbrev CmdWord := BitVec 32

end Sys2Proof
end

