-- ==== Sys2Proof/Syntax.lean ====
section
/-! DEFINITION. The syntax of TLFCORE's commands: formats, integer types, the raw fields of a command
word, and one constructor per row of the opcode map (R97). -/

namespace Sys2Proof

/-- The six public formats (R3, R92). -/
inductive Fmt where
  | half | bfloat16 | single | double | quadruple | octuple
  deriving DecidableEq, Repr

/-- The eight integer types of the conversions (R93). -/
inductive IntTy where
  | i8 | u8 | i16 | u16 | i32 | u32 | i64 | u64
  deriving DecidableEq, Repr

/-- The number of an operand register f0..f15 (R31, R94). -/
abbrev RegIdx := Fin 16

/-- The raw fields of a command word (R91), before any check. -/
structure Fields where
  op : BitVec 8
  fmt : BitVec 4
  fmt2 : BitVec 4
  rd : BitVec 4
  rs1 : BitVec 4
  rs2 : BitVec 4
  rs3 : BitVec 4
  deriving DecidableEq, Repr

/-- The four operand shapes (R96). -/
inductive Shape where
  | unary | binary | ternary | convert
  deriving DecidableEq, Repr

/-- Why a command word is illegal (R381), in the order in which the checks run (R383). -/
inductive Cause where
  | badOp | badFmt | badFmt2 | badField
  deriving DecidableEq, Repr

/-- The elementary functions of the evaluator: the commands with OP 0x20 to 0x3D (R97).  FREMQUO, 0x3E,
returns FREMAINDER's result (R352). -/
inductive ElemOp where
  | sin | cos | tan | asin | acos | atan | atan2 | exp
  | expm1 | log | log1p | pow | cbrt | sinh | cosh | tanh
  | asinh | acosh | atanh | erf | erfc | tgamma | lgamma | fmod
  | remainder
  deriving DecidableEq, Repr

/-- The commands, one constructor per row of the opcode map (R97).  Operands in the order RD, RS1, RS2,
RS3 (R105).  `fmt` is the command's FMT; a conversion carries the format and the type (or the two
formats) it names. -/
inductive Instr where
  | fadd (fmt : Fmt) (rd rs1 rs2 : RegIdx)
  | fsub (fmt : Fmt) (rd rs1 rs2 : RegIdx)
  | fmul (fmt : Fmt) (rd rs1 rs2 : RegIdx)
  | fdiv (fmt : Fmt) (rd rs1 rs2 : RegIdx)
  | fma (fmt : Fmt) (rd rs1 rs2 rs3 : RegIdx)
  | fsqrt (fmt : Fmt) (rd rs1 : RegIdx)
  | fneg (fmt : Fmt) (rd rs1 : RegIdx)
  | fabs (fmt : Fmt) (rd rs1 : RegIdx)
  | fcopysign (fmt : Fmt) (rd rs1 rs2 : RegIdx)
  | feq (fmt : Fmt) (rd rs1 rs2 : RegIdx)
  | flt (fmt : Fmt) (rd rs1 rs2 : RegIdx)
  | fle (fmt : Fmt) (rd rs1 rs2 : RegIdx)
  | fne (fmt : Fmt) (rd rs1 rs2 : RegIdx)
  | ftrunc (fmt : Fmt) (rd rs1 : RegIdx)
  | ffloor (fmt : Fmt) (rd rs1 : RegIdx)
  | fceil (fmt : Fmt) (rd rs1 : RegIdx)
  | fround (fmt : Fmt) (rd rs1 : RegIdx)
  | frint (fmt : Fmt) (rd rs1 : RegIdx)
  | fisint (fmt : Fmt) (rd rs1 : RegIdx)
  | fcvtFF (src dst : Fmt) (rd rs1 : RegIdx)
  | fcvtIF (fmt : Fmt) (ty : IntTy) (rd rs1 : RegIdx)
  | fcvtFI (fmt : Fmt) (ty : IntTy) (rd rs1 : RegIdx)
  | fsin (fmt : Fmt) (rd rs1 : RegIdx)
  | fcos (fmt : Fmt) (rd rs1 : RegIdx)
  | ftan (fmt : Fmt) (rd rs1 : RegIdx)
  | fasin (fmt : Fmt) (rd rs1 : RegIdx)
  | facos (fmt : Fmt) (rd rs1 : RegIdx)
  | fatan (fmt : Fmt) (rd rs1 : RegIdx)
  | fatan2 (fmt : Fmt) (rd rs1 rs2 : RegIdx)
  | fexp (fmt : Fmt) (rd rs1 : RegIdx)
  | fexpm1 (fmt : Fmt) (rd rs1 : RegIdx)
  | flog (fmt : Fmt) (rd rs1 : RegIdx)
  | flog1p (fmt : Fmt) (rd rs1 : RegIdx)
  | fpow (fmt : Fmt) (rd rs1 rs2 : RegIdx)
  | fcbrt (fmt : Fmt) (rd rs1 : RegIdx)
  | fsinh (fmt : Fmt) (rd rs1 : RegIdx)
  | fcosh (fmt : Fmt) (rd rs1 : RegIdx)
  | ftanh (fmt : Fmt) (rd rs1 : RegIdx)
  | fasinh (fmt : Fmt) (rd rs1 : RegIdx)
  | facosh (fmt : Fmt) (rd rs1 : RegIdx)
  | fatanh (fmt : Fmt) (rd rs1 : RegIdx)
  | ferf (fmt : Fmt) (rd rs1 : RegIdx)
  | ferfc (fmt : Fmt) (rd rs1 : RegIdx)
  | ftgamma (fmt : Fmt) (rd rs1 : RegIdx)
  | flgamma (fmt : Fmt) (rd rs1 : RegIdx)
  | ffmod (fmt : Fmt) (rd rs1 rs2 : RegIdx)
  | fremainder (fmt : Fmt) (rd rs1 rs2 : RegIdx)
  | fremquo (fmt : Fmt) (rd rs1 rs2 : RegIdx)
  deriving DecidableEq, Repr

end Sys2Proof
end

