-- ==== Sys2Proof/WellFormed.lean ====
section
/-! DEFINITION. When a command word's fields name a command: the opcode is one of the 48, the format
codes are legal, the type code is legal, and no field outside the command's shape is used (R96 to R101).
A term of `Instr` is well formed by its type, so the check is about raw fields. -/

namespace Sys2Proof

/-- The opcodes of the map (R97), listed by shape (R96). -/
def unaryOps : List (BitVec 8) :=
  [0x06, 0x08, 0x09, 0x10, 0x11, 0x12, 0x13, 0x14, 0x15,
   0x20, 0x21, 0x22, 0x23, 0x24, 0x25, 0x28, 0x29, 0x2A, 0x2B, 0x2D,
   0x30, 0x31, 0x32, 0x33, 0x34, 0x35, 0x38, 0x39, 0x3A, 0x3B]
def binaryOps : List (BitVec 8) :=
  [0x01, 0x02, 0x03, 0x04, 0x0A, 0x0C, 0x0D, 0x0E, 0x0F, 0x26, 0x2C, 0x3C, 0x3D, 0x3E]
def ternaryOps : List (BitVec 8) := [0x05]
def convertOps : List (BitVec 8) := [0x18, 0x19, 0x1A]

/-- OP is one of the 48 opcodes (R97, R98). -/
def Fields.opListed (f : Fields) : Bool :=
  unaryOps.contains f.op || binaryOps.contains f.op || ternaryOps.contains f.op || convertOps.contains f.op

/-- FMT names a public format (R92, R99). -/
def Fields.fmtLegal (f : Fields) : Bool := f.fmt.toNat ≤ 5

/-- FMT2 of a conversion names a format (FCVT.F.F) or an integer type (R93, R100). -/
def Fields.fmt2Legal (f : Fields) : Bool :=
  if f.op = 0x18 then f.fmt2.toNat ≤ 5
  else if f.op = 0x19 ∨ f.op = 0x1A then f.fmt2.toNat ≤ 7
  else true

/-- Every field the command's shape does not use is 0 (R96, R101). -/
def Fields.unusedZero (f : Fields) : Bool :=
  if unaryOps.contains f.op then f.fmt2 == 0 && f.rs2 == 0 && f.rs3 == 0
  else if binaryOps.contains f.op then f.fmt2 == 0 && f.rs3 == 0
  else if ternaryOps.contains f.op then f.fmt2 == 0
  else f.rs2 == 0 && f.rs3 == 0

/-- The fields name one of the 48 commands with legal field values (R102). -/
def Fields.wellFormed (f : Fields) : Bool :=
  f.opListed && f.fmtLegal && f.fmt2Legal && f.unusedZero

end Sys2Proof
end

