-- ==== Sys2Proof/Decode.lean ====
section
/-! DEFINITION. The decoder of command words (R91 to R104), total, rejecting by the cause of R381; and
the encoder, written from the same tables. -/

namespace Sys2Proof

/-! ### Fields -/

/-- The fields of a command word (R91). -/
def fieldsOf (w : CmdWord) : Fields where
  op := w.extractLsb' 0 8
  fmt := w.extractLsb' 8 4
  fmt2 := w.extractLsb' 12 4
  rd := w.extractLsb' 16 4
  rs1 := w.extractLsb' 20 4
  rs2 := w.extractLsb' 24 4
  rs3 := w.extractLsb' 28 4

/-- The word with the given fields: `w = {RS3, RS2, RS1, RD, FMT2, FMT, OP}` (R91). -/
def Fields.word (f : Fields) : CmdWord :=
  f.rs3 ++ (f.rs2 ++ (f.rs1 ++ (f.rd ++ (f.fmt2 ++ (f.fmt ++ f.op)))))

/-- A 4-bit register field names one of f0..f15; every value is legal (R94). -/
def regOf (b : BitVec 4) : RegIdx := ⟨b.toNat, b.isLt⟩

/-- The register field that names a register. -/
def regCode (r : RegIdx) : BitVec 4 := BitVec.ofNat 4 r.val

/-- The format codes (R92); 6 to 15 are reserved. -/
def Fmt.ofCode (b : BitVec 4) : Option Fmt :=
  match b with
  | 0 => some .half
  | 1 => some .bfloat16
  | 2 => some .single
  | 3 => some .double
  | 4 => some .quadruple
  | 5 => some .octuple
  | _ => none

/-- The code of a format (R92). -/
def Fmt.code : Fmt → BitVec 4
  | .half => 0
  | .bfloat16 => 1
  | .single => 2
  | .double => 3
  | .quadruple => 4
  | .octuple => 5

/-- The integer type codes (R93); 8 to 15 are reserved. -/
def IntTy.ofCode (b : BitVec 4) : Option IntTy :=
  match b with
  | 0 => some .i8
  | 1 => some .u8
  | 2 => some .i16
  | 3 => some .u16
  | 4 => some .i32
  | 5 => some .u32
  | 6 => some .i64
  | 7 => some .u64
  | _ => none

/-- The code of an integer type (R93). -/
def IntTy.code : IntTy → BitVec 4
  | .i8 => 0
  | .u8 => 1
  | .i16 => 2
  | .u16 => 3
  | .i32 => 4
  | .u32 => 5
  | .i64 => 6
  | .u64 => 7

/-- The mask of a shape's fixed bits (R96). -/
def Shape.mask : Shape → CmdWord
  | .unary => 0xFF00F0FF
  | .binary => 0xF000F0FF
  | .ternary => 0x0000F0FF
  | .convert => 0xFF0000FF

/-- The opcode map's shape column (R97); `none` for a reserved opcode (R98). -/
def opShape (op : BitVec 8) : Option Shape :=
  match op with
  | 0x01 => some .binary
  | 0x02 => some .binary
  | 0x03 => some .binary
  | 0x04 => some .binary
  | 0x05 => some .ternary
  | 0x06 => some .unary
  | 0x08 => some .unary
  | 0x09 => some .unary
  | 0x0A => some .binary
  | 0x0C => some .binary
  | 0x0D => some .binary
  | 0x0E => some .binary
  | 0x0F => some .binary
  | 0x10 => some .unary
  | 0x11 => some .unary
  | 0x12 => some .unary
  | 0x13 => some .unary
  | 0x14 => some .unary
  | 0x15 => some .unary
  | 0x18 => some .convert
  | 0x19 => some .convert
  | 0x1A => some .convert
  | 0x20 => some .unary
  | 0x21 => some .unary
  | 0x22 => some .unary
  | 0x23 => some .unary
  | 0x24 => some .unary
  | 0x25 => some .unary
  | 0x26 => some .binary
  | 0x28 => some .unary
  | 0x29 => some .unary
  | 0x2A => some .unary
  | 0x2B => some .unary
  | 0x2C => some .binary
  | 0x2D => some .unary
  | 0x30 => some .unary
  | 0x31 => some .unary
  | 0x32 => some .unary
  | 0x33 => some .unary
  | 0x34 => some .unary
  | 0x35 => some .unary
  | 0x38 => some .unary
  | 0x39 => some .unary
  | 0x3A => some .unary
  | 0x3B => some .unary
  | 0x3C => some .binary
  | 0x3D => some .binary
  | 0x3E => some .binary
  | _ => none

/-- The command of an opcode, with its format and the other fields (R97).  `none` where FMT2 names no
format or type (R100), and for a reserved opcode. -/
def build (F : Fmt) (f : Fields) : Option Instr :=
  let rd := regOf f.rd
  let rs1 := regOf f.rs1
  let rs2 := regOf f.rs2
  let rs3 := regOf f.rs3
  match f.op with
  | 0x01 => some (.fadd F rd rs1 rs2)
  | 0x02 => some (.fsub F rd rs1 rs2)
  | 0x03 => some (.fmul F rd rs1 rs2)
  | 0x04 => some (.fdiv F rd rs1 rs2)
  | 0x05 => some (.fma F rd rs1 rs2 rs3)
  | 0x06 => some (.fsqrt F rd rs1)
  | 0x08 => some (.fneg F rd rs1)
  | 0x09 => some (.fabs F rd rs1)
  | 0x0A => some (.fcopysign F rd rs1 rs2)
  | 0x0C => some (.feq F rd rs1 rs2)
  | 0x0D => some (.flt F rd rs1 rs2)
  | 0x0E => some (.fle F rd rs1 rs2)
  | 0x0F => some (.fne F rd rs1 rs2)
  | 0x10 => some (.ftrunc F rd rs1)
  | 0x11 => some (.ffloor F rd rs1)
  | 0x12 => some (.fceil F rd rs1)
  | 0x13 => some (.fround F rd rs1)
  | 0x14 => some (.frint F rd rs1)
  | 0x15 => some (.fisint F rd rs1)
  | 0x18 => (Fmt.ofCode f.fmt2).map fun D => .fcvtFF F D rd rs1
  | 0x19 => (IntTy.ofCode f.fmt2).map fun T => .fcvtIF F T rd rs1
  | 0x1A => (IntTy.ofCode f.fmt2).map fun T => .fcvtFI F T rd rs1
  | 0x20 => some (.fsin F rd rs1)
  | 0x21 => some (.fcos F rd rs1)
  | 0x22 => some (.ftan F rd rs1)
  | 0x23 => some (.fasin F rd rs1)
  | 0x24 => some (.facos F rd rs1)
  | 0x25 => some (.fatan F rd rs1)
  | 0x26 => some (.fatan2 F rd rs1 rs2)
  | 0x28 => some (.fexp F rd rs1)
  | 0x29 => some (.fexpm1 F rd rs1)
  | 0x2A => some (.flog F rd rs1)
  | 0x2B => some (.flog1p F rd rs1)
  | 0x2C => some (.fpow F rd rs1 rs2)
  | 0x2D => some (.fcbrt F rd rs1)
  | 0x30 => some (.fsinh F rd rs1)
  | 0x31 => some (.fcosh F rd rs1)
  | 0x32 => some (.ftanh F rd rs1)
  | 0x33 => some (.fasinh F rd rs1)
  | 0x34 => some (.facosh F rd rs1)
  | 0x35 => some (.fatanh F rd rs1)
  | 0x38 => some (.ferf F rd rs1)
  | 0x39 => some (.ferfc F rd rs1)
  | 0x3A => some (.ftgamma F rd rs1)
  | 0x3B => some (.flgamma F rd rs1)
  | 0x3C => some (.ffmod F rd rs1 rs2)
  | 0x3D => some (.fremainder F rd rs1 rs2)
  | 0x3E => some (.fremquo F rd rs1 rs2)
  | _ => none

/-- The decoding procedure (R104): the first check that fails decides the cause (R383). -/
def decode (w : CmdWord) : Except Cause Instr :=
  let f := fieldsOf w
  match opShape f.op with
  | none => .error .badOp
  | some shape =>
    match Fmt.ofCode f.fmt with
    | none => .error .badFmt
    | some F =>
      match build F f with
      | none => .error .badFmt2
      | some i => if w &&& shape.mask = f.op.setWidth 32 then .ok i else .error .badField

/-- The cause code that goes to STATUS.CAUSE (R381). -/
def Cause.code : Cause → BitVec 4
  | .badOp => 1
  | .badFmt => 2
  | .badFmt2 => 3
  | .badField => 4

/-! ### The encoder -/

/-- The fields of a command of each shape; unused fields are 0 (R96). -/
def unaryFields (op : BitVec 8) (F : Fmt) (rd rs1 : RegIdx) : Fields :=
  { op, fmt := F.code, fmt2 := 0, rd := regCode rd, rs1 := regCode rs1, rs2 := 0, rs3 := 0 }
def binaryFields (op : BitVec 8) (F : Fmt) (rd rs1 rs2 : RegIdx) : Fields :=
  { op, fmt := F.code, fmt2 := 0, rd := regCode rd, rs1 := regCode rs1, rs2 := regCode rs2, rs3 := 0 }
def ternaryFields (op : BitVec 8) (F : Fmt) (rd rs1 rs2 rs3 : RegIdx) : Fields :=
  { op, fmt := F.code, fmt2 := 0, rd := regCode rd, rs1 := regCode rs1, rs2 := regCode rs2,
    rs3 := regCode rs3 }
def convertFields (op : BitVec 8) (F : Fmt) (fmt2 : BitVec 4) (rd rs1 : RegIdx) : Fields :=
  { op, fmt := F.code, fmt2, rd := regCode rd, rs1 := regCode rs1, rs2 := 0, rs3 := 0 }

/-- The fields of a command (R91, R96, R97). -/
def Instr.fields : Instr → Fields
  | .fadd F rd rs1 rs2 => binaryFields 0x01 F rd rs1 rs2
  | .fsub F rd rs1 rs2 => binaryFields 0x02 F rd rs1 rs2
  | .fmul F rd rs1 rs2 => binaryFields 0x03 F rd rs1 rs2
  | .fdiv F rd rs1 rs2 => binaryFields 0x04 F rd rs1 rs2
  | .fma F rd rs1 rs2 rs3 => ternaryFields 0x05 F rd rs1 rs2 rs3
  | .fsqrt F rd rs1 => unaryFields 0x06 F rd rs1
  | .fneg F rd rs1 => unaryFields 0x08 F rd rs1
  | .fabs F rd rs1 => unaryFields 0x09 F rd rs1
  | .fcopysign F rd rs1 rs2 => binaryFields 0x0A F rd rs1 rs2
  | .feq F rd rs1 rs2 => binaryFields 0x0C F rd rs1 rs2
  | .flt F rd rs1 rs2 => binaryFields 0x0D F rd rs1 rs2
  | .fle F rd rs1 rs2 => binaryFields 0x0E F rd rs1 rs2
  | .fne F rd rs1 rs2 => binaryFields 0x0F F rd rs1 rs2
  | .ftrunc F rd rs1 => unaryFields 0x10 F rd rs1
  | .ffloor F rd rs1 => unaryFields 0x11 F rd rs1
  | .fceil F rd rs1 => unaryFields 0x12 F rd rs1
  | .fround F rd rs1 => unaryFields 0x13 F rd rs1
  | .frint F rd rs1 => unaryFields 0x14 F rd rs1
  | .fisint F rd rs1 => unaryFields 0x15 F rd rs1
  | .fcvtFF S D rd rs1 => convertFields 0x18 S D.code rd rs1
  | .fcvtIF F T rd rs1 => convertFields 0x19 F T.code rd rs1
  | .fcvtFI F T rd rs1 => convertFields 0x1A F T.code rd rs1
  | .fsin F rd rs1 => unaryFields 0x20 F rd rs1
  | .fcos F rd rs1 => unaryFields 0x21 F rd rs1
  | .ftan F rd rs1 => unaryFields 0x22 F rd rs1
  | .fasin F rd rs1 => unaryFields 0x23 F rd rs1
  | .facos F rd rs1 => unaryFields 0x24 F rd rs1
  | .fatan F rd rs1 => unaryFields 0x25 F rd rs1
  | .fatan2 F rd rs1 rs2 => binaryFields 0x26 F rd rs1 rs2
  | .fexp F rd rs1 => unaryFields 0x28 F rd rs1
  | .fexpm1 F rd rs1 => unaryFields 0x29 F rd rs1
  | .flog F rd rs1 => unaryFields 0x2A F rd rs1
  | .flog1p F rd rs1 => unaryFields 0x2B F rd rs1
  | .fpow F rd rs1 rs2 => binaryFields 0x2C F rd rs1 rs2
  | .fcbrt F rd rs1 => unaryFields 0x2D F rd rs1
  | .fsinh F rd rs1 => unaryFields 0x30 F rd rs1
  | .fcosh F rd rs1 => unaryFields 0x31 F rd rs1
  | .ftanh F rd rs1 => unaryFields 0x32 F rd rs1
  | .fasinh F rd rs1 => unaryFields 0x33 F rd rs1
  | .facosh F rd rs1 => unaryFields 0x34 F rd rs1
  | .fatanh F rd rs1 => unaryFields 0x35 F rd rs1
  | .ferf F rd rs1 => unaryFields 0x38 F rd rs1
  | .ferfc F rd rs1 => unaryFields 0x39 F rd rs1
  | .ftgamma F rd rs1 => unaryFields 0x3A F rd rs1
  | .flgamma F rd rs1 => unaryFields 0x3B F rd rs1
  | .ffmod F rd rs1 rs2 => binaryFields 0x3C F rd rs1 rs2
  | .fremainder F rd rs1 rs2 => binaryFields 0x3D F rd rs1 rs2
  | .fremquo F rd rs1 rs2 => binaryFields 0x3E F rd rs1 rs2

/-- The word of a command (R91). -/
def encode (i : Instr) : CmdWord := i.fields.word

/-- The instruction the decoder reads from the low `nbits` bits of `w`.  Every command is one 32-bit
word (R90, R103), so a command word is those bits, zero above. -/
def decodeTableWord (nbits w : Nat) : Option Instr :=
  match decode (BitVec.ofNat 32 (w % 2 ^ nbits)) with
  | .ok i => some i
  | .error _ => none

end Sys2Proof
end

