-- ==== Sys2Proof/Machine/Format.lean ====
section
/-! DEFINITION. The packed formats: parameters (R120), fields (R121), classes and exact values (R122,
R123), packing (R125), and the integer types' ranges (R93). -/

namespace Sys2Proof

/-! ### Parameters of a format -/

/-- Total width W (R92, R120). -/
def Fmt.width : Fmt → Nat
  | .half => 16
  | .bfloat16 => 16
  | .single => 32
  | .double => 64
  | .quadruple => 128
  | .octuple => 256

/-- Width of the exponent field (R120). -/
def Fmt.nbexp : Fmt → Nat
  | .half => 5
  | .bfloat16 => 8
  | .single => 8
  | .double => 11
  | .quadruple => 15
  | .octuple => 19

/-- Explicit mantissa (fraction) bits p (R120). -/
def Fmt.p : Fmt → Nat
  | .half => 10
  | .bfloat16 => 7
  | .single => 23
  | .double => 52
  | .quadruple => 112
  | .octuple => 236

/-- bias = 2^(nbexp-1) - 1 (R120). -/
def Fmt.bias (F : Fmt) : Int := 2 ^ (F.nbexp - 1) - 1
/-- emin = 1 - bias (R120). -/
def Fmt.emin (F : Fmt) : Int := 1 - F.bias
/-- emax = bias (R120). -/
def Fmt.emax (F : Fmt) : Int := F.bias

/-- The all-ones exponent code, of the infinities and the NaNs (R122). -/
def Fmt.expOnes (F : Fmt) : Nat := 2 ^ F.nbexp - 1

/-- How many 64-bit words of a register hold a value of the format: words 0 to ceil(W/64) - 1 (R413). -/
def Fmt.words (F : Fmt) : Nat := (F.width + 63) / 64

/-! ### Integer types -/

/-- Width N of an integer type (R93). -/
def IntTy.bits : IntTy → Nat
  | .i8 => 8
  | .u8 => 8
  | .i16 => 16
  | .u16 => 16
  | .i32 => 32
  | .u32 => 32
  | .i64 => 64
  | .u64 => 64

/-- Two's complement types (R93). -/
def IntTy.signed : IntTy → Bool
  | .i8 => true
  | .i16 => true
  | .i32 => true
  | .i64 => true
  | .u8 => false
  | .u16 => false
  | .u32 => false
  | .u64 => false

/-- The least value of a type (R93). -/
def IntTy.lo (T : IntTy) : Int := if T.signed then -2 ^ (T.bits - 1) else 0
/-- The greatest value of a type (R93). -/
def IntTy.hi (T : IntTy) : Int := if T.signed then 2 ^ (T.bits - 1) - 1 else 2 ^ T.bits - 1

/-! ### Bits of a register -/

/-- The low `w` bits of a register, zero-extended to 256 bits: how a command reads a `w`-bit operand and
how it writes a `w`-bit result (R32). -/
def lowBits (w : Nat) (x : Reg) : Reg := (x.setWidth w).setWidth 256

/-- `zext_256(trunc_N(n))`: an integer result of N bits (R14, R32). -/
def intBits (n : Int) (N : Nat) : Reg := (BitVec.ofInt N n).setWidth 256

/-- Sign bit b[W-1] (R121). -/
def signBit (F : Fmt) (b : Reg) : Bool := b.getLsbD (F.width - 1)
/-- Biased exponent b[W-2:p] (R121). -/
def expField (F : Fmt) (b : Reg) : Nat := b.toNat / 2 ^ F.p % 2 ^ F.nbexp
/-- Fraction b[p-1:0] (R121). -/
def fracField (F : Fmt) (b : Reg) : Nat := b.toNat % 2 ^ F.p

/-- `{s, E, T}` in the layout of R121, zero-extended to 256 bits. -/
def packFields (F : Fmt) (s : Bool) (E T : Nat) : Reg :=
  BitVec.ofNat 256 (s.toNat * 2 ^ (F.width - 1) + E * 2 ^ F.p + T)

/-! ### Unpacked values -/

/-- An unpacked value (R44, R122): its category with a sign, and for a finite nonzero value the unbiased
exponent of the implicit-bit position and the mantissa with that bit.  The category is the constructor,
so exactly one holds (R124). -/
inductive Unpacked where
  | zero (s : Bool)
  | finite (s : Bool) (exp : Int) (mant : Nat)
  | inf (s : Bool)
  | nan (s : Bool)
  deriving DecidableEq, Repr

/-- `unpack_F` (R122).  A NaN's fraction is discarded (R127). -/
def unpack (F : Fmt) (b : Reg) : Unpacked :=
  let s := signBit F b
  let E := expField F b
  let T := fracField F b
  if E = F.expOnes then (if T = 0 then .inf s else .nan s)
  else if E = 0 then (if T = 0 then .zero s else .finite s F.emin T)
  else .finite s (E - F.bias) (2 ^ F.p + T)

/-- `sgn(b)` (R122). -/
def Unpacked.sign : Unpacked → Bool
  | .zero s => s
  | .finite s _ _ => s
  | .inf s => s
  | .nan s => s

/-- The pattern of a signed zero, `Zero_F(s)` (R125). -/
def zeroF (F : Fmt) (s : Bool) : Reg := packFields F s 0 0
/-- The pattern of a signed infinity, `Inf_F(s)` (R125). -/
def infF (F : Fmt) (s : Bool) : Reg := packFields F s F.expOnes 0

/-- `pack_F` of a finite nonzero value (R125): normal if the implicit bit is set, else subnormal. -/
def packFinite (F : Fmt) (s : Bool) (e : Int) (m : Nat) : Reg :=
  if 2 ^ F.p ≤ m then packFields F s (e + F.bias).toNat (m - 2 ^ F.p) else packFields F s 0 m

/-- The pattern of 1.0 (R120). -/
def oneF (F : Fmt) (s : Bool) : Reg := packFinite F s 0 (2 ^ F.p)

/-! ### Exact values -/

/-- 2^k for an integer k, exactly. -/
def pow2 : Int → Rat
  | .ofNat n => ((2 ^ n : Nat) : Rat)
  | .negSucc n => mkRat 1 (2 ^ (n + 1))

/-- The exact value of an unpacked value (R123); 0 where R123 gives no real number. -/
def Unpacked.val (F : Fmt) : Unpacked → Rat
  | .finite s e m => (if s then -1 else 1) * (m : Rat) * pow2 (e - F.p)
  | .zero _ => 0
  | .inf _ => 0
  | .nan _ => 0

/-- `val_F(b)` for a zero or a finite b (R123). -/
def valF (F : Fmt) (b : Reg) : Rat := (unpack F b).val F

/-- The largest finite value, `MAXF_F` (R241). -/
def maxF (F : Fmt) : Rat := ((2 ^ (F.p + 1) - 1 : Nat) : Rat) * pow2 (F.emax - F.p)

end Sys2Proof
end

