-- ==== Sys2Proof/Config.lean ====
section
/-! DEFINITION. The OPEN parameters of TLFCORE (R9).  Each is an opaque constant: no proof can see its
value, so a theorem about the machine holds for every admissible value.  Where R9 states a constraint,
the accessor below meets it by construction, and every admissible value is the accessor's value for some
value of the constant.  `Config.evaluator`, the one parameter whose constraint speaks of real functions,
stands in `Machine/Evaluator.lean`. -/

namespace Sys2Proof

/-- An entry of a coefficient table: one literal, or a constant split into an upper and a lower part
(R41, R247). -/
inductive CoefEntry where
  | plain (c : Unpacked)
  | split (upper lower : Unpacked)
  deriving DecidableEq, Repr

/-- One table of the coefficient ROM: the ordered coefficients of one (function, format) (R41). -/
structure CoefTable where
  op : ElemOp
  fmt : Fmt
  entries : List CoefEntry
  deriving DecidableEq, Repr

/-- The evaluator's tuning for one function and format, `TUNE(op,F)` (R9).  The bounds of the repeated steps are
the rules'; a field that a function does not use is ignored (log 10). -/
structure Tuning where
  /-- Fraction bits of the internal format (R245). -/
  workBits : Nat
  /-- Bytes of a block of the 1/π table, less one: what the reduction takes and each extension adds (R246; log
  32). -/
  tableBlock : Nat
  /-- Degree of the polynomial (R247). -/
  polynomialDegree : Nat
  /-- Double-angle passes of FTAN (R279). -/
  doubleAngles : Fin 4
  /-- Half-angle reductions of the inverse trigonometric commands (R280). -/
  halfAngles : Fin 7
  /-- Squaring doublings of FEXP and FEXPM1 (R307). -/
  squarings : Fin 3
  /-- Square-root reductions of FLOG and FLOG1P (R308). -/
  rootReductions : Nat
  /-- The extra threshold of the richer logarithm; the spec gives it no use (R308, 90_conflicts C10). -/
  logThreshold : Rat
  /-- Newton-Raphson passes of FCBRT (R309). -/
  newtonPasses : Fin 5
  /-- Beyond it a hyperbolic command gives an infinity or an asymptotic form (R337). -/
  magnitudeCutoff : Rat
  /-- Up to it an inverse hyperbolic command takes the log1p formula (R337). -/
  log1pCutoff : Rat
  /-- Up to it the direct error-function formula is taken (R342). -/
  erfCutoff : Rat
  /-- Depth N of the error function's continued fraction (R342). -/
  fractionDepth : Nat
  /-- R, where the region [R, R+1) of the gamma functions begins (R346). -/
  gammaRegion : Nat
  deriving DecidableEq, Repr, Inhabited

/-- The bits of QNAN_FRAC(F) below bit p-1, which the spec leaves open (R126). -/
opaque Config.qnanLow : Fmt → Nat

/-- QNAN_FRAC(F): the fraction of every NaN the core writes, with bit p-1 set (R9, R126). -/
def Config.qnanFrac (F : Fmt) : Nat := 2 ^ (F.p - 1) + Config.qnanLow F % 2 ^ (F.p - 1)

/-- The bits NAN_TO_INT(T) is taken from. -/
opaque Config.nanToIntBits : IntTy → Word

/-- NAN_TO_INT(T): the cast of a NaN to the integer type T, some N-bit value (R9, R212). -/
def Config.nanToInt (T : IntTy) : Reg := ((Config.nanToIntBits T).setWidth T.bits).setWidth 256

/-- The number REMQUO_QBITS is taken from. -/
opaque Config.remquoSel : Nat

/-- REMQUO_QBITS, between 3 and 63 (R9, R352). -/
def Config.remquoQbits : Nat := 3 + Config.remquoSel % 61

/-- How far PH_RANGE(F) lies above its least admissible value. -/
opaque Config.phExtra : Fmt → Nat

/-- PH_RANGE(F), at least p(F)+2 (R9, R246). -/
def Config.phRange (F : Fmt) : Nat := F.p + 2 + Config.phExtra F

/-- FMOD_EXACT (R9, R350). -/
opaque Config.fmodExact : Bool

/-- COEF_ROM: the fixed contents of the coefficient ROM (R9, R41). -/
opaque Config.coefRom : List CoefTable

/-- INVPI_ROM: the fixed contents of the 1/π ROM (R9, R42). -/
opaque Config.invPiRom : List Byte

/-- TUNE(op,F) (R9). -/
opaque Config.tune : ElemOp → Fmt → Tuning

/-- The bits of TLF_BASE above its three low zero bits. -/
opaque Config.tlfBaseHigh : BitVec 61

/-- TLF_BASE: the host window's base address, 8-byte aligned, the platform's choice (R9, R61).  The spec gives
no width of an address; 64 bits are the model's choice (log 12). -/
def Config.tlfBase : Word := Config.tlfBaseHigh ++ 0#3

/-- What register f_i holds after the n-th platform reset: the spec leaves it unspecified (R33, R410), so
it is a free value, drawn anew at every reset. -/
opaque Config.afterReset : Nat → RegIdx → Reg

/-- A free value of any inhabited type: nothing is known of it but its type. -/
opaque Config.unknown (α : Type) [Inhabited α] : α

/-- Executable stand-in for an inhabitant that is known to exist but cannot be computed; its evaluation
does not return.  It only serves as the inhabitant that `Config.unknown` asks for. -/
def Config.uncomputed (α : Type) [Nonempty α] (u : Unit) : α := Config.uncomputed α u
partial_fixpoint

end Sys2Proof
end

