-- ==== Sys2Proof/Machine/State.lean ====
section
/-! DEFINITION. The state of TLFCORE as plain data (R30 to R48), the host accesses it serves, the reasons
a step can stop, and the state after reset. -/

namespace Sys2Proof.Machine

open Sys2Proof

/-! ### What the outside does -/

/-- A host access reads, or writes the given 64 bits; byte k of the access carries bits 8k+7..8k (R63). -/
inductive Dir where
  | read
  | write (v : Word)
  deriving DecidableEq, Repr

/-- A host access at a byte offset of the 4096-byte window, of a width in bytes (R60, R61, R64).  A width
other than 8 is a bus error, so only 64 bits of write data are carried. -/
structure Access where
  offset : BitVec 12
  width : Nat
  dir : Dir
  deriving DecidableEq, Repr

/-- What reaches the block, in arrival order: a host access (R69), the platform's reset (R410), or a host
access that arrives while reset is asserted (R410). -/
inductive HostEvent where
  | access (a : Access)
  | reset
  | accessInReset (a : Access)
  deriving DecidableEq, Repr

/-- What the block answered to the latest access: nothing yet, an accepted write, or read data (R12). -/
inductive Reply where
  | none
  | ack
  | data (v : Word)
  deriving DecidableEq, Repr

/-! ### The state -/

structure State where
  /-- f0..f15 (R31). -/
  regs : Vector Reg 16
  /-- The written-since-reset mark of each word of each register (R33). -/
  written : Vector (Vector Bool 4) 16
  /-- CSR.CMD (R37). -/
  cmd : Word
  /-- CSR.STATUS (R38). -/
  status : Word
  /-- CSR.AUX (R39). -/
  aux : Word
  /-- The coefficient ROM (R41). -/
  coefRom : List CoefTable
  /-- The 1/π ROM (R42). -/
  invPiRom : List Byte
  /-- The model's own: events still to be served, oldest first. -/
  pending : List HostEvent
  /-- The model's own: the answer to the latest access. -/
  reply : Reply
  /-- The model's own: how many platform resets there have been, from which the free register contents
  after a reset are drawn. -/
  resets : Nat
  deriving DecidableEq, Repr

/-! ### Reasons to stop -/

/-- The machine stops with a fault. -/
inductive Fault where
  /-- Raised by an access of a width other than 8 bytes, at an offset that is no multiple of 8, or at a
  reserved offset 0x228..0xFFF (R384).  Safe: the access changes no state, and R385 itself has the model
  end the run here. -/
  | busError (offset : BitVec 12) (width : Nat)
  deriving DecidableEq, Repr

/-- The machine refuses to give a meaning. -/
inductive Refusal where
  /-- No meaning for the command yet.  Raised by no arm of this model.  Safe. -/
  | notModelled (mnemonic : String)
  /-- An access that arrives while reset is asserted: the outcome is the platform's (R410).  Safe. -/
  | accessDuringReset (offset : BitVec 12) (width : Nat)
  deriving DecidableEq, Repr

/-- What a step answers. -/
abbrev Outcome := Host.Outcome State Fault Refusal

/-! ### Reset -/

/-- No word is marked as written (R410). -/
def noneWritten : Vector (Vector Bool 4) 16 := Vector.replicate 16 (Vector.replicate 4 false)

/-- The machine right after power-on reset (R48).  The spec gives the registers no value: 0 is the
model's choice (log 1).  The ROMs hold their fixed contents (R412). -/
def State.reset : State where
  regs := Vector.replicate 16 0
  written := noneWritten
  cmd := 0
  status := 0
  aux := 0
  coefRom := Config.coefRom
  invPiRom := Config.invPiRom
  pending := []
  reply := .none
  resets := 0

end Sys2Proof.Machine
end

