-- ==== Sys2Proof/Machine/Flags.lean ====
section
/-! DEFINITION. The fields of STATUS and what sets them (R38).  TLFCORE has no arithmetic flags (R7, R40,
R380): STATUS reports command-word errors only. -/

namespace Sys2Proof.Machine

open Sys2Proof

/-- STATUS.ILL, bit 0: sticky, set by every illegal command (R38). -/
def ill (st : Word) : Bool := st.getLsbD 0
/-- STATUS.LAST_ILL, bit 1: whether the latest command was illegal (R38). -/
def lastIll (st : Word) : Bool := st.getLsbD 1
/-- STATUS.CAUSE, bits 7:4: the cause of the latest illegal command (R38, R381). -/
def causeField (st : Word) : BitVec 4 := st.extractLsb' 4 4

/-- STATUS from its fields; bits 3:2 and 63:8 read as 0 (R38). -/
def statusWord (illBit lastBit : Bool) (c : BitVec 4) : Word :=
  (0 : BitVec 56) ++ c ++ (0 : BitVec 2) ++ BitVec.ofBool lastBit ++ BitVec.ofBool illBit

/-- What a legal command does to STATUS: LAST_ILL becomes 0, the other bits stay (R38). -/
def statusLegal (st : Word) : Word := st &&& ~~~(2 : Word)

/-- What an illegal command does to STATUS: ILL and LAST_ILL become 1 and CAUSE the cause's code; the
other bits stay (R38, R382). -/
def statusIllegal (st : Word) (c : Cause) : Word :=
  (st &&& ~~~(0xF0 : Word)) ||| (c.code.setWidth 64 <<< 4) ||| 3

/-- A host write of v to STATUS: a 1 in bit 0 clears ILL, nothing else changes (R38, R67). -/
def statusHostWrite (st v : Word) : Word := if v.getLsbD 0 then st &&& ~~~(1 : Word) else st

end Sys2Proof.Machine
end

