-- ==== Sys2Proof/Machine/Operands.lean ====
section
/-! DEFINITION. How a command reads its operands (R14, R32). -/

namespace Sys2Proof.Machine

open Sys2Proof

/-- `f[i]`: the 256 bits of an operand register (R12).  No register is hard-wired (R31). -/
def State.reg (s : State) (i : RegIdx) : Reg := s.regs[i]

/-- A float operand of format F: `f[i][W-1:0]`; bits 255..W are ignored (R32). -/
def State.operand (s : State) (F : Fmt) (i : RegIdx) : Reg := lowBits F.width (s.reg i)

/-- An integer operand of type T: the low N bits of `f[i]`, two's complement if T is signed (R32, R213). -/
def State.intOperand (s : State) (T : IntTy) (i : RegIdx) : Int :=
  let b := (s.reg i).setWidth T.bits
  if T.signed then b.toInt else (b.toNat : Int)

/-- Word j of `f[i]`, bits 64j+63..64j (R62). -/
def State.regWord (s : State) (i : RegIdx) (j : Fin 4) : Word := (s.reg i).extractLsb' (64 * j.val) 64

/-- Whether word j of `f[i]` has been written since reset (R33). -/
def State.isWritten (s : State) (i : RegIdx) (j : Fin 4) : Bool := (s.written[i])[j]

end Sys2Proof.Machine
end

