-- ==== Sys2Proof/Machine/Ops.lean ====
section
/-! DEFINITION. The operations the commands share: writing a register, completing a command, the
illegal-command outcome and its clearing, and the platform's reset. -/

namespace Sys2Proof.Machine

open Sys2Proof

/-! ### Writing registers -/

/-- `f[i] <- v`: all four words are written and marked (R12, R33). -/
def State.setReg (s : State) (i : RegIdx) (v : Reg) : State :=
  { s with regs := s.regs.set i v, written := s.written.set i (Vector.replicate 4 true) }

/-- `x[64j+63:64j] <- v`, no other bit changed (R62). -/
def setWord (x : Reg) (j : Fin 4) (v : Word) : Reg :=
  (x &&& ~~~((BitVec.allOnes 64).setWidth 256 <<< (64 * j.val))) ||| (v.setWidth 256 <<< (64 * j.val))

/-- A host write of word j of `f[i]`: that word only, and its mark (R33, R62). -/
def State.setRegWord (s : State) (i : RegIdx) (j : Fin 4) (v : Word) : State :=
  { s with
    regs := s.regs.set i (setWord (s.reg i) j v)
    written := s.written.set i ((s.written[i]).set j true) }

/-! ### Completing a command -/

/-- A legal command that leaves its result v, zero-extended to 256 bits, in rd: it writes rd and clears
LAST_ILL (R32, R38, R415). -/
def State.retire (s : State) (rd : RegIdx) (v : Reg) : State :=
  { s.setReg rd v with status := statusLegal s.status }

/-- As `retire`, for the two commands that also write AUX (R32, R39). -/
def State.retireAux (s : State) (rd : RegIdx) (v : Reg) (a : Word) : State :=
  { s.retire rd v with aux := a }

/-- `wrF(rd, r)` (R14): a W-bit float result. -/
def wrF (F : Fmt) (rd : RegIdx) (r : Reg) (s : State) : Outcome := .next (s.retire rd (lowBits F.width r))

/-- `wrI(rd, n, N)` (R14): an integer result of N bits. -/
def wrI (rd : RegIdx) (n : Int) (N : Nat) (s : State) : Outcome := .next (s.retire rd (intBits n N))

/-- `wrI(rd, r, 1)`: a Boolean result, 0 or 1 (R32, R183). -/
def wrBool (rd : RegIdx) (b : Bool) (s : State) : Outcome := wrI rd b.toNat 1 s

/-- A command of one float operand and a float result. -/
def unaryF (f : Fmt → Reg → Reg) (F : Fmt) (rd rs1 : RegIdx) (s : State) : Outcome :=
  wrF F rd (f F (s.operand F rs1)) s

/-- A command of two float operands and a float result. -/
def binaryF (f : Fmt → Reg → Reg → Reg) (F : Fmt) (rd rs1 rs2 : RegIdx) (s : State) : Outcome :=
  wrF F rd (f F (s.operand F rs1) (s.operand F rs2)) s

/-- A command of three float operands and a float result. -/
def ternaryF (f : Fmt → Reg → Reg → Reg → Reg) (F : Fmt) (rd rs1 rs2 rs3 : RegIdx) (s : State) : Outcome :=
  wrF F rd (f F (s.operand F rs1) (s.operand F rs2) (s.operand F rs3)) s

/-- A command of two float operands and a Boolean result. -/
def compareF (f : Fmt → Reg → Reg → Bool) (F : Fmt) (rd rs1 rs2 : RegIdx) (s : State) : Outcome :=
  wrBool rd (f F (s.operand F rs1) (s.operand F rs2)) s

/-! ### The illegal-command outcome -/

/-- `raise IllegalCommand(cause)` (R382), after CMD has recorded the word: STATUS only. -/
def State.raiseIllegal (s : State) (c : Cause) : State := { s with status := statusIllegal s.status c }

/-- The host's handling of an illegal command: a write to STATUS, of which bit 0 clears ILL (R38, R387). -/
def State.writeStatus (s : State) (v : Word) : State := { s with status := statusHostWrite s.status v }

/-! ### Reset -/

/-- The platform's reset (R410): CMD, STATUS and AUX become 0, no word is marked, the ROMs stay (R412).
The registers' contents are free values, drawn anew at every reset (R33; log 2).  The events that follow
the reset stay to be served. -/
def State.platformReset (s : State) : State :=
  { s with
    regs := Vector.ofFn (Config.afterReset s.resets)
    written := noneWritten
    cmd := 0
    status := 0
    aux := 0
    resets := s.resets + 1 }

end Sys2Proof.Machine
end

