-- ==== Sys2Proof/Machine/Round.lean ====
section
/-! DEFINITION. The NaN results (R126), the rounding function (R129) on exact rationals and on square
roots of rationals, and the rounded constants of R244. -/

namespace Sys2Proof

/-- `NaN_F(s)`: quiet, with the sign given and the fraction QNAN_FRAC(F) (R125, R126). -/
def nanF (F : Fmt) (s : Bool) : Reg := packFields F s F.expOnes (Config.qnanFrac F)

/-- floor(log2 x) of a rational x > 0. -/
def floorLog2 (x : Rat) : Int :=
  let l : Int := (Nat.log2 x.num.natAbs : Int) - (Nat.log2 x.den : Int)
  if pow2 l ≤ x then l else l - 1

/-- The end of R129, once the mantissa has been rounded to the integer n with exponent e: a carry into the
next binade, overflow to infinity, underflow to a zero of sign s, or the packed value. -/
def settle (F : Fmt) (s : Bool) (e : Int) (n : Nat) : Reg :=
  if n = 2 ^ (F.p + 1) then
    if e + 1 > F.emax then infF F s else packFinite F s (e + 1) (2 ^ F.p)
  else if e > F.emax then infF F s
  else if n = 0 then zeroF F s
  else packFinite F s e n

/-- `RNE_F(s, x)` for an exact rational x > 0 (R129). -/
def rne (F : Fmt) (s : Bool) (x : Rat) : Reg :=
  let e := max (floorLog2 x) F.emin
  let m := x / pow2 (e - F.p)
  let n := m.floor.toNat
  let r := m - (n : Rat)
  settle F s e (if r > 1 / 2 ∨ (r = 1 / 2 ∧ n % 2 = 1) then n + 1 else n)

/-- `RNE_F(S < 0, |S|)` for an exact rational S ≠ 0 (R134, R141, R200). -/
def rneSigned (F : Fmt) (S : Rat) : Reg := rne F (decide (S < 0)) |S|

/-- The k lowest bits of the integer square root of n, found from the highest down, above the bits `r`
already found. -/
def isqrtFrom (n : Nat) : Nat → Nat → Nat
  | 0, r => r
  | k + 1, r => isqrtFrom n k (if (r + 2 ^ k) * (r + 2 ^ k) ≤ n then r + 2 ^ k else r)

/-- floor(sqrt n). -/
def isqrt (n : Nat) : Nat := isqrtFrom n (Nat.log2 n / 2 + 1) 0

/-- `RNE_F(0, sqrt v)` for a rational v > 0 (R129, R143).  With q = v / 4^(e-p), the scaled root is sqrt q,
n is its floor, and sqrt q - n is compared with 1/2 by comparing q with (n + 1/2)². -/
def rneSqrt (F : Fmt) (v : Rat) : Reg :=
  let e := max (floorLog2 v / 2) F.emin
  let q := v / pow2 (2 * (e - F.p))
  let n := isqrt q.floor.toNat
  let half := ((n : Rat) + 1 / 2) * ((n : Rat) + 1 / 2)
  settle F false e (if q > half ∨ (q = half ∧ n % 2 = 1) then n + 1 else n)

/-- floor(π · 2^400). -/
def piScaled : Nat :=
  0x3243f6a8885a308d313198a2e03707344a4093822299f31d0082efa98ec4e6c89452821e638d01377be5466cf34e90c6cc0ac

/-- `RNE_F(k·π/4)` with sign s, for k = 1, 2, 3, 4 (R244).  The rational rounded is k·π/4 to within
k·2^-403, and no rounding boundary of a format lies that close. -/
def rnePi (F : Fmt) (s : Bool) (k : Nat) : Reg :=
  rne F s (mkRat (k * (2 * piScaled + 1)) (2 ^ 403))

end Sys2Proof
end

