-- ==== Sys2Proof/Machine/Convert.lean ====
section
/-! DEFINITION. Rounding to an integral value (R200 to R206), format casts (R210) and integer casts (R212,
R213). -/

namespace Sys2Proof

/-! ### The integer-valued functions -/

/-- Round toward zero: `sign(x) * floor(|x|)` (R201). -/
def truncQ (x : Rat) : Int := if x < 0 then -(-x).floor else x.floor

/-- Nearest integer, ties away from zero: `sign(x) * floor(|x| + 1/2)` (R204). -/
def roundAwayQ (x : Rat) : Int := if x < 0 then -(-x + 1 / 2).floor else (x + 1 / 2).floor

/-- Nearest integer, the even one of two equally near (R205). -/
def roundEvenQ (x : Rat) : Int :=
  let n := x.floor
  let r := x - (n : Rat)
  if r > 1 / 2 ∨ (r = 1 / 2 ∧ n % 2 = 1) then n + 1 else n

/-- Whether a rational is an integer. -/
def isIntQ (x : Rat) : Bool := x.den == 1

/-- `roundint_F(a, ri)` (R200): a zero result keeps the operand's sign. -/
def roundIntF (ri : Rat → Int) (F : Fmt) (a : Reg) : Reg :=
  match unpack F a with
  | .nan s => nanF F s
  | .inf _ => a
  | .zero _ => a
  | .finite s _ _ =>
    let y := ri (valF F a)
    if y = 0 then zeroF F s else rneSigned F y

/-- FISINT's Boolean (R206). -/
def isIntF (F : Fmt) (a : Reg) : Bool :=
  match unpack F a with
  | .zero _ => true
  | .finite _ _ _ => isIntQ (valF F a)
  | .inf _ => false
  | .nan _ => false

/-! ### Casts -/

/-- FCVT.F.F's result, from format S to format D (R210). -/
def castF (S D : Fmt) (a : Reg) : Reg :=
  match unpack S a with
  | .nan s => nanF D s
  | .inf s => infF D s
  | .zero s => zeroF D s
  | .finite s _ _ => rne D s |valF S a|

/-- `min(max(t, lo), hi)` (R212). -/
def saturate (T : IntTy) (t : Int) : Int := min (max t T.lo) T.hi

/-- FCVT.I.F's result, as N bits zero-extended (R212): toward zero, saturating; a NaN gives
NAN_TO_INT(T). -/
def toIntF (F : Fmt) (T : IntTy) (a : Reg) : Reg :=
  match unpack F a with
  | .nan _ => Config.nanToInt T
  | .inf s => intBits (if s then T.lo else T.hi) T.bits
  | .zero _ => intBits 0 T.bits
  | .finite _ _ _ => intBits (saturate T (truncQ (valF F a))) T.bits

/-- FCVT.F.I's result (R213). -/
def ofIntF (F : Fmt) (x : Int) : Reg := if x = 0 then zeroF F false else rneSigned F x

namespace Machine

/-- FTRUNC (R201). -/
def execFtrunc (F : Fmt) (rd rs1 : RegIdx) (s : State) : Outcome :=
  unaryF (roundIntF truncQ) F rd rs1 s

/-- FFLOOR (R202). -/
def execFfloor (F : Fmt) (rd rs1 : RegIdx) (s : State) : Outcome :=
  unaryF (roundIntF Rat.floor) F rd rs1 s

/-- FCEIL (R203). -/
def execFceil (F : Fmt) (rd rs1 : RegIdx) (s : State) : Outcome :=
  unaryF (roundIntF Rat.ceil) F rd rs1 s

/-- FROUND (R204). -/
def execFround (F : Fmt) (rd rs1 : RegIdx) (s : State) : Outcome :=
  unaryF (roundIntF roundAwayQ) F rd rs1 s

/-- FRINT (R205). -/
def execFrint (F : Fmt) (rd rs1 : RegIdx) (s : State) : Outcome :=
  unaryF (roundIntF roundEvenQ) F rd rs1 s

/-- FISINT (R206). -/
def execFisint (F : Fmt) (rd rs1 : RegIdx) (s : State) : Outcome :=
  wrBool rd (isIntF F (s.operand F rs1)) s

/-- FCVT.F.F (R210): reads format S, writes format D. -/
def execFcvtFF (S D : Fmt) (rd rs1 : RegIdx) (s : State) : Outcome :=
  wrF D rd (castF S D (s.operand S rs1)) s

/-- FCVT.I.F (R212). -/
def execFcvtIF (F : Fmt) (T : IntTy) (rd rs1 : RegIdx) (s : State) : Outcome :=
  .next (s.retire rd (toIntF F T (s.operand F rs1)))

/-- FCVT.F.I (R213). -/
def execFcvtFI (F : Fmt) (T : IntTy) (rd rs1 : RegIdx) (s : State) : Outcome :=
  wrF F rd (ofIntF F (s.intOperand T rs1)) s

end Machine
end Sys2Proof
end

