-- ==== Sys2Proof/Machine/FormatFacts.lean ====
section
/-! DEFINITION. What packing and unpacking say of each other (R122, R124, R125, R130), and the exactness of
`pow2`: the facts that the accuracy rule needs in order to be satisfiable. -/

namespace Sys2Proof

/-! ### Parameters -/

theorem Fmt.width_pred (F : Fmt) : F.width - 1 = F.nbexp + F.p := by cases F <;> rfl
theorem Fmt.width_eq (F : Fmt) : F.width = F.nbexp + F.p + 1 := by cases F <;> rfl
theorem Fmt.width_le (F : Fmt) : F.width ≤ 256 := by cases F <;> decide
theorem Fmt.p_pos (F : Fmt) : 0 < F.p := by cases F <;> decide
theorem Fmt.nbexp_ge (F : Fmt) : 5 ≤ F.nbexp := by cases F <;> decide

/-- The bias as a natural number: 2^(nbexp-1) - 1. -/
theorem Fmt.bias_eq (F : Fmt) : F.bias = ((2 ^ (F.nbexp - 1) - 1 : Nat) : Int) := by
  cases F <;> rfl

theorem Fmt.expOnes_eq (F : Fmt) : (F.expOnes : Int) = 2 * F.bias + 1 := by cases F <;> rfl
theorem Fmt.bias_pos (F : Fmt) : 15 ≤ F.bias := by cases F <;> decide
theorem Fmt.expOnes_lt (F : Fmt) : F.expOnes < 2 ^ F.nbexp := by cases F <;> decide
theorem Fmt.emin_eq (F : Fmt) : F.emin = 1 - F.bias := rfl
theorem Fmt.emax_eq (F : Fmt) : F.emax = F.bias := rfl

/-! ### Packing -/

theorem packFields_lt_pow_width (F : Fmt) (s : Bool) {E T : Nat} (hE : E < 2 ^ F.nbexp) (hT : T < 2 ^ F.p) :
    s.toNat * 2 ^ (F.width - 1) + E * 2 ^ F.p + T < 2 ^ F.width := by
  have h1 : 2 ^ (F.width - 1) = 2 ^ F.nbexp * 2 ^ F.p := by rw [F.width_pred, pow_add]
  have h2 : 2 ^ F.width = 2 * 2 ^ (F.width - 1) := by
    rw [F.width_pred, F.width_eq, pow_succ]; ring
  have h3 : E * 2 ^ F.p + T < 2 ^ (F.width - 1) := by
    rw [h1]
    calc E * 2 ^ F.p + T < E * 2 ^ F.p + 2 ^ F.p := by omega
      _ = (E + 1) * 2 ^ F.p := by ring
      _ ≤ 2 ^ F.nbexp * 2 ^ F.p := Nat.mul_le_mul_right _ hE
  rw [h2]
  cases s <;> simp <;> omega

theorem toNat_packFields (F : Fmt) (s : Bool) {E T : Nat} (hE : E < 2 ^ F.nbexp) (hT : T < 2 ^ F.p) :
    (packFields F s E T).toNat = s.toNat * 2 ^ (F.width - 1) + E * 2 ^ F.p + T := by
  rw [packFields, BitVec.toNat_ofNat]
  exact Nat.mod_eq_of_lt (lt_of_lt_of_le (packFields_lt_pow_width F s hE hT)
    (Nat.pow_le_pow_right (by decide) F.width_le))

theorem fracField_packFields (F : Fmt) (s : Bool) {E T : Nat} (hE : E < 2 ^ F.nbexp) (hT : T < 2 ^ F.p) :
    fracField F (packFields F s E T) = T := by
  have h1 : 2 ^ (F.width - 1) = 2 ^ F.nbexp * 2 ^ F.p := by rw [F.width_pred, pow_add]
  rw [fracField, toNat_packFields F s hE hT, h1,
    show s.toNat * (2 ^ F.nbexp * 2 ^ F.p) + E * 2 ^ F.p + T
      = T + (s.toNat * 2 ^ F.nbexp + E) * 2 ^ F.p by ring,
    Nat.add_mul_mod_self_right, Nat.mod_eq_of_lt hT]

theorem expField_packFields (F : Fmt) (s : Bool) {E T : Nat} (hE : E < 2 ^ F.nbexp) (hT : T < 2 ^ F.p) :
    expField F (packFields F s E T) = E := by
  have h1 : 2 ^ (F.width - 1) = 2 ^ F.nbexp * 2 ^ F.p := by rw [F.width_pred, pow_add]
  rw [expField, toNat_packFields F s hE hT, h1,
    show s.toNat * (2 ^ F.nbexp * 2 ^ F.p) + E * 2 ^ F.p + T
      = T + (E + s.toNat * 2 ^ F.nbexp) * 2 ^ F.p by ring,
    Nat.add_mul_div_right _ _ (by positivity), Nat.div_eq_of_lt hT, Nat.zero_add,
    Nat.add_mul_mod_self_right, Nat.mod_eq_of_lt hE]

theorem signBit_packFields (F : Fmt) (s : Bool) {E T : Nat} (hE : E < 2 ^ F.nbexp) (hT : T < 2 ^ F.p) :
    signBit F (packFields F s E T) = s := by
  have h1 : 2 ^ (F.width - 1) = 2 ^ F.nbexp * 2 ^ F.p := by rw [F.width_pred, pow_add]
  have h3 : E * 2 ^ F.p + T < 2 ^ (F.width - 1) := by
    rw [h1]
    calc E * 2 ^ F.p + T < E * 2 ^ F.p + 2 ^ F.p := by omega
      _ = (E + 1) * 2 ^ F.p := by ring
      _ ≤ 2 ^ F.nbexp * 2 ^ F.p := Nat.mul_le_mul_right _ hE
  rw [signBit, BitVec.getLsbD, toNat_packFields F s hE hT, Nat.testBit_eq_decide_div_mod_eq,
    show s.toNat * 2 ^ (F.width - 1) + E * 2 ^ F.p + T
      = (E * 2 ^ F.p + T) + s.toNat * 2 ^ (F.width - 1) by ring,
    Nat.add_mul_div_right _ _ (by positivity), Nat.div_eq_of_lt h3]
  cases s <;> simp

theorem packFields_lt (F : Fmt) (s : Bool) {E T : Nat} (hE : E < 2 ^ F.nbexp) (hT : T < 2 ^ F.p) :
    (packFields F s E T).toNat < 2 ^ F.width := by
  rw [toNat_packFields F s hE hT]; exact packFields_lt_pow_width F s hE hT

/-! ### Unpacking what was packed -/

theorem unpack_packFields (F : Fmt) (s : Bool) {E T : Nat} (hE : E < 2 ^ F.nbexp) (hT : T < 2 ^ F.p) :
    unpack F (packFields F s E T) =
      if E = F.expOnes then (if T = 0 then .inf s else .nan s)
      else if E = 0 then (if T = 0 then .zero s else .finite s F.emin T)
      else .finite s (E - F.bias) (2 ^ F.p + T) := by
  simp only [unpack, signBit_packFields F s hE hT, expField_packFields F s hE hT,
    fracField_packFields F s hE hT]

@[simp] theorem unpack_zeroF (F : Fmt) (s : Bool) : unpack F (zeroF F s) = .zero s := by
  have h := F.expOnes_eq
  have hb := F.bias_pos
  rw [zeroF, unpack_packFields F s (by positivity) (by positivity), if_neg (by omega), if_pos rfl,
    if_pos rfl]

@[simp] theorem unpack_infF (F : Fmt) (s : Bool) : unpack F (infF F s) = .inf s := by
  rw [infF, unpack_packFields F s F.expOnes_lt (by positivity), if_pos rfl, if_pos rfl]

theorem Config.qnanFrac_lt (F : Fmt) : Config.qnanFrac F < 2 ^ F.p := by
  have h : 2 ^ F.p = 2 ^ (F.p - 1) + 2 ^ (F.p - 1) := by
    have := F.p_pos
    rw [← Nat.two_mul, ← pow_succ', Nat.sub_add_cancel this]
  have := Nat.mod_lt (Config.qnanLow F) (show 0 < 2 ^ (F.p - 1) by positivity)
  rw [Config.qnanFrac, h]; omega

@[simp] theorem unpack_nanF (F : Fmt) (s : Bool) : unpack F (nanF F s) = .nan s := by
  have : Config.qnanFrac F ≠ 0 := by
    have : 0 < 2 ^ (F.p - 1) := by positivity
    rw [Config.qnanFrac]; omega
  rw [nanF, unpack_packFields F s F.expOnes_lt (Config.qnanFrac_lt F), if_pos rfl, if_neg this]

/-- The unpacked invariants of a finite value (R124). -/
structure FiniteOk (F : Fmt) (e : Int) (m : Nat) : Prop where
  pos : 1 ≤ m
  lt : m < 2 ^ (F.p + 1)
  emin_le : F.emin ≤ e
  le_emax : e ≤ F.emax
  subnormal : m < 2 ^ F.p → e = F.emin

theorem FiniteOk.biased (F : Fmt) {e : Int} {m : Nat} (h : FiniteOk F e m) :
    (e + F.bias).toNat < 2 ^ F.nbexp ∧ (e + F.bias).toNat ≠ F.expOnes ∧ (e + F.bias).toNat ≠ 0 ∧
      ((e + F.bias).toNat : Int) = e + F.bias := by
  have h1 := h.emin_le
  have h2 := h.le_emax
  have h3 := F.expOnes_eq
  have h4 := F.bias_pos
  have h5 := F.expOnes_lt
  rw [F.emin_eq] at h1
  rw [F.emax_eq] at h2
  refine ⟨?_, ?_, ?_, ?_⟩ <;> omega

/-- A finite value that meets R124 comes back from its pattern: it has one pattern, and the pattern that
value (R125, R130). -/
theorem unpack_packFinite (F : Fmt) (s : Bool) {e : Int} {m : Nat} (h : FiniteOk F e m) :
    unpack F (packFinite F s e m) = .finite s e m := by
  obtain ⟨h1, h2, h3, h4⟩ := h.biased
  have hlt := h.lt
  rw [pow_succ] at hlt
  unfold packFinite
  split
  · rename_i hm
    rw [unpack_packFields F s h1 (by omega), if_neg h2, if_neg h3, h4]
    congr 1
    · omega
    · omega
  · rename_i hm
    have hs := h.subnormal (by omega)
    have hpos := h.pos
    have := F.expOnes_eq
    have := F.bias_pos
    rw [unpack_packFields F s (by positivity) (by omega), if_neg (by omega), if_pos rfl,
      if_neg (by omega), hs]

theorem packFinite_lt (F : Fmt) (s : Bool) {e : Int} {m : Nat} (h : FiniteOk F e m) :
    (packFinite F s e m).toNat < 2 ^ F.width := by
  obtain ⟨h1, _, _, _⟩ := h.biased
  have hlt := h.lt
  rw [pow_succ] at hlt
  unfold packFinite
  split
  · exact packFields_lt F s h1 (by omega)
  · exact packFields_lt F s (by positivity) (by omega)

theorem zeroF_lt (F : Fmt) (s : Bool) : (zeroF F s).toNat < 2 ^ F.width :=
  packFields_lt F s (by positivity) (by positivity)
theorem infF_lt (F : Fmt) (s : Bool) : (infF F s).toNat < 2 ^ F.width :=
  packFields_lt F s F.expOnes_lt (by positivity)
theorem nanF_lt (F : Fmt) (s : Bool) : (nanF F s).toNat < 2 ^ F.width :=
  packFields_lt F s F.expOnes_lt (Config.qnanFrac_lt F)

/-! ### Powers of two -/

/-- `pow2 k` is 2^k. -/
theorem pow2_eq (k : Int) : pow2 k = (2 : Rat) ^ k := by
  cases k with
  | ofNat n => simp [pow2]
  | negSucc n =>
    rw [pow2, Rat.mkRat_eq_div, zpow_negSucc]
    push_cast
    rw [one_div]

theorem pow2_pos (k : Int) : 0 < pow2 k := by rw [pow2_eq]; positivity

end Sys2Proof
end

