-- ==== Sys2Proof/Machine/TablesExpLog.lean ====
section
/-! DEFINITION. The special-value tables of the exponential, logarithm, power and cube-root commands (R301
to R306).  `none` is the general case. -/

namespace Sys2Proof

/-- FEXP (R301). -/
def expTable (F : Fmt) (x : Reg) : Option Reg :=
  match unpack F x with
  | .nan s => some (nanF F s)
  | .zero _ => some (oneF F false)
  | .inf s => some (if s then zeroF F false else infF F false)
  | .finite _ _ _ => none

/-- FEXPM1 (R302). -/
def expm1Table (F : Fmt) (x : Reg) : Option Reg :=
  match unpack F x with
  | .nan s => some (nanF F s)
  | .zero s => some (zeroF F s)
  | .inf s => some (if s then oneF F true else infF F false)
  | .finite _ _ _ => none

/-- FLOG (R303): either zero is the pole, before the sign is asked. -/
def logTable (F : Fmt) (x : Reg) : Option Reg :=
  match unpack F x with
  | .nan s => some (nanF F s)
  | .zero _ => some (infF F true)
  | .inf s => some (if s then nanF F false else infF F false)
  | .finite s _ _ =>
    if valF F x = 1 then some (zeroF F false)
    else if s then some (nanF F false)
    else none

/-- FLOG1P (R304). -/
def log1pTable (F : Fmt) (x : Reg) : Option Reg :=
  match unpack F x with
  | .nan s => some (nanF F s)
  | .zero s => some (zeroF F s)
  | .inf s => some (if s then nanF F false else infF F false)
  | .finite _ _ _ =>
    if valF F x = -1 then some (infF F true)
    else if valF F x < -1 then some (nanF F false)
    else none

/-- FCBRT (R306). -/
def cbrtTable (F : Fmt) (x : Reg) : Option Reg :=
  match unpack F x with
  | .nan s => some (nanF F s)
  | .zero s => some (zeroF F s)
  | .inf s => some (infF F s)
  | .finite _ _ _ => none

/-! ### FPOW -/

def Unpacked.isZero : Unpacked → Bool
  | .zero _ => true
  | .finite _ _ _ => false
  | .inf _ => false
  | .nan _ => false

def Unpacked.isInf : Unpacked → Bool
  | .zero _ => false
  | .finite _ _ _ => false
  | .inf _ => true
  | .nan _ => false

def Unpacked.isNan : Unpacked → Bool
  | .zero _ => false
  | .finite _ _ _ => false
  | .inf _ => false
  | .nan _ => true

/-- A rational is an odd integer: R305's definition.  The rule's remark that every finite y with |val(y)| ≥ 2^p is
even does not hold of the odd values from 2^p to 2^(p+1), and the model follows the definition (log 31). -/
def isOddQ (y : Rat) : Bool := isIntQ y && y.num % 2 == 1

/-- FPOW's 20 rows, in order (R305): x is rs1, y is rs2.  A row that needs a finite operand tests its
exact value, which is 0 for every operand that is not finite and nonzero. -/
def powTable (F : Fmt) (x y : Reg) : Option Reg :=
  let ux := unpack F x
  let uy := unpack F y
  let X := valF F x
  let Y := valF F y
  let one := oneF F false
  if uy.isZero then some one                                              -- 1
  else if X = 1 then some one                                             -- 2
  else if ux.isNan then some (nanF F ux.sign)                             -- 3
  else if uy.isNan then some (nanF F uy.sign)                             -- 4
  else if uy.isInf then
    if X = -1 then some one                                               -- 5
    else if ¬ ux.isInf ∧ |X| < 1 then
      some (if uy.sign then infF F false else zeroF F false)              -- 6, 8
    else some (if uy.sign then zeroF F false else infF F false)           -- 7, 9
  else if ux.isZero then
    if Y < 0 then some (infF F (isOddQ Y && ux.sign))                     -- 10, 11
    else some (zeroF F (isOddQ Y && ux.sign))                             -- 12, 13
  else if ux.isInf then
    if ux.sign then
      if Y < 0 then some (zeroF F (isOddQ Y))                             -- 14, 15
      else some (infF F (isOddQ Y))                                       -- 16, 17
    else some (if Y < 0 then zeroF F false else infF F false)             -- 18, 19
  else if X < 0 ∧ ¬ isIntQ Y then some (nanF F false)                     -- 20
  else none

end Sys2Proof
end

