-- ==== Sys2Proof/Machine/TablesHyp.lean ====
section
/-! DEFINITION. The special-value tables of the hyperbolic, error-function, gamma and modulo commands (R331
to R352), the exact AUX results of FLGAMMA and FREMQUO, and the exact remainders.  `none` is the general
case. -/

namespace Sys2Proof

/-! ### Hyperbolic -/

/-- FSINH (R331). -/
def sinhTable (F : Fmt) (x : Reg) : Option Reg :=
  match unpack F x with
  | .nan s => some (nanF F s)
  | .zero s => some (zeroF F s)
  | .inf s => some (infF F s)
  | .finite _ _ _ => none

/-- FCOSH (R332). -/
def coshTable (F : Fmt) (x : Reg) : Option Reg :=
  match unpack F x with
  | .nan s => some (nanF F s)
  | .zero _ => some (oneF F false)
  | .inf _ => some (infF F false)
  | .finite _ _ _ => none

/-- FTANH (R333). -/
def tanhTable (F : Fmt) (x : Reg) : Option Reg :=
  match unpack F x with
  | .nan s => some (nanF F s)
  | .zero s => some (zeroF F s)
  | .inf s => some (oneF F s)
  | .finite _ _ _ => none

/-- FASINH (R334). -/
def asinhTable (F : Fmt) (x : Reg) : Option Reg :=
  match unpack F x with
  | .nan s => some (nanF F s)
  | .zero s => some (zeroF F s)
  | .inf s => some (infF F s)
  | .finite _ _ _ => none

/-- FACOSH (R335): the zeros are below 1. -/
def acoshTable (F : Fmt) (x : Reg) : Option Reg :=
  match unpack F x with
  | .nan s => some (nanF F s)
  | .zero _ => some (nanF F false)
  | .inf s => some (if s then nanF F false else infF F false)
  | .finite _ _ _ =>
    if valF F x = 1 then some (zeroF F false)
    else if valF F x < 1 then some (nanF F false)
    else none

/-- FATANH (R336). -/
def atanhTable (F : Fmt) (x : Reg) : Option Reg :=
  match unpack F x with
  | .nan s => some (nanF F s)
  | .zero s => some (zeroF F s)
  | .inf _ => some (nanF F false)
  | .finite s _ _ =>
    if |valF F x| = 1 then some (infF F s)
    else if |valF F x| > 1 then some (nanF F false)
    else none

/-! ### Error function -/

/-- FERF (R340). -/
def erfTable (F : Fmt) (x : Reg) : Option Reg :=
  match unpack F x with
  | .nan s => some (nanF F s)
  | .zero s => some (zeroF F s)
  | .inf s => some (oneF F s)
  | .finite _ _ _ => none

/-- FERFC (R341): the zeros are a general case; 2.0 is the pattern of mantissa 2^p at exponent 1. -/
def erfcTable (F : Fmt) (x : Reg) : Option Reg :=
  match unpack F x with
  | .nan s => some (nanF F s)
  | .zero _ => none
  | .inf s => some (if s then packFinite F false 1 (2 ^ F.p) else zeroF F false)
  | .finite _ _ _ => none

/-! ### Gamma -/

/-- FTGAMMA (R345). -/
def tgammaTable (F : Fmt) (x : Reg) : Option Reg :=
  match unpack F x with
  | .nan s => some (nanF F s)
  | .zero s => some (infF F s)
  | .inf s => some (if s then nanF F false else infF F false)
  | .finite s _ _ => if s ∧ isIntQ (valF F x) then some (nanF F false) else none

/-- FLGAMMA's rd (R349). -/
def lgammaTable (F : Fmt) (x : Reg) : Option Reg :=
  match unpack F x with
  | .nan s => some (nanF F s)
  | .zero _ => some (infF F false)
  | .inf _ => some (infF F false)
  | .finite s _ _ =>
    if valF F x = 1 ∨ valF F x = 2 then some (zeroF F false)
    else if s ∧ isIntQ (valF F x) then some (infF F false)
    else none

/-- FLGAMMA's AUX (R349): 1 for -0, and for a negative non-integer x with floor(x) odd, where Γ(x) < 0
(R347); 0 otherwise. -/
def lgammaAux (F : Fmt) (x : Reg) : Word :=
  match unpack F x with
  | .zero s => if s then 1 else 0
  | .finite s _ _ =>
    if s ∧ ¬ isIntQ (valF F x) ∧ (valF F x).floor % 2 = 1 then 1 else 0
  | .inf _ => 0
  | .nan _ => 0

/-! ### Modulo -/

/-- `X - trunc(X/Y)·Y` (R350). -/
def fmodQ (X Y : Rat) : Rat := X - (truncQ (X / Y) : Rat) * Y

/-- The integer n of R351: X/Y to the nearest integer, ties to even. -/
def remQuotient (X Y : Rat) : Int := roundEvenQ (X / Y)

/-- `X - n·Y` (R351). -/
def remQ (X Y : Rat) : Rat := X - (remQuotient X Y : Rat) * Y

/-- The rows shared by FFMOD, FREMAINDER and FREMQUO (R350, R351, R352), and the zero of x's sign where the
exact remainder t is 0. -/
def moduloTable (t : Rat → Rat → Rat) (F : Fmt) (x y : Reg) : Option Reg :=
  match unpack F x, unpack F y with
  | .nan s, _ => some (nanF F s)
  | _, .nan s => some (nanF F s)
  | .inf _, _ => some (nanF F false)
  | _, .zero _ => some (nanF F false)
  | .zero s, _ => some (zeroF F s)
  | .finite _ _ _, .inf _ => some x
  | .finite s _ _, .finite _ _ _ => if t (valF F x) (valF F y) = 0 then some (zeroF F s) else none

/-- FFMOD (R350). -/
def fmodTable : Fmt → Reg → Reg → Option Reg := moduloTable fmodQ
/-- FREMAINDER (R351). -/
def remainderTable : Fmt → Reg → Reg → Option Reg := moduloTable remQ

/-- FREMQUO's AUX (R352): ±(|n| mod 2^REMQUO_QBITS) with the sign of n in two's complement; 0 in every
special row and for a zero x. -/
def remquoAux (F : Fmt) (x y : Reg) : Word :=
  match unpack F x, unpack F y with
  | .finite _ _ _, .finite _ _ _ =>
    let n := remQuotient (valF F x) (valF F y)
    let q : Int := (n.natAbs % 2 ^ Config.remquoQbits : Nat)
    BitVec.ofInt 64 (if n < 0 then -q else q)
  | _, _ => 0

end Sys2Proof
end

