-- ==== Sys2Proof/Machine/TablesTrig.lean ====
section
/-! DEFINITION. The special-value tables of the trigonometric commands (R271 to R277).  `none` is the
general case.  A result written ±0 or "the operand's zero" is that zero; π/2 and the like are the
constants of R244. -/

namespace Sys2Proof

/-- FSIN (R271). -/
def sinTable (F : Fmt) (x : Reg) : Option Reg :=
  match unpack F x with
  | .nan s => some (nanF F s)
  | .zero s => some (zeroF F s)
  | .inf _ => some (nanF F false)
  | .finite _ _ _ => none

/-- FCOS (R272). -/
def cosTable (F : Fmt) (x : Reg) : Option Reg :=
  match unpack F x with
  | .nan s => some (nanF F s)
  | .zero _ => some (oneF F false)
  | .inf _ => some (nanF F false)
  | .finite _ _ _ => none

/-- FTAN (R273). -/
def tanTable (F : Fmt) (x : Reg) : Option Reg :=
  match unpack F x with
  | .nan s => some (nanF F s)
  | .zero s => some (zeroF F s)
  | .inf _ => some (nanF F false)
  | .finite _ _ _ => none

/-- FASIN (R274). -/
def asinTable (F : Fmt) (x : Reg) : Option Reg :=
  match unpack F x with
  | .nan s => some (nanF F s)
  | .zero s => some (zeroF F s)
  | .inf _ => some (nanF F false)
  | .finite _ _ _ => if |valF F x| > 1 then some (nanF F false) else none

/-- FACOS (R275). -/
def acosTable (F : Fmt) (x : Reg) : Option Reg :=
  match unpack F x with
  | .nan s => some (nanF F s)
  | .zero _ => none
  | .inf _ => some (nanF F false)
  | .finite _ _ _ =>
    if valF F x = 1 then some (zeroF F false)
    else if |valF F x| > 1 then some (nanF F false)
    else none

/-- FATAN (R276). -/
def atanTable (F : Fmt) (x : Reg) : Option Reg :=
  match unpack F x with
  | .nan s => some (nanF F s)
  | .zero s => some (zeroF F s)
  | .inf s => some (rnePi F s 2)
  | .finite _ _ _ => none

/-- FATAN2 (R277): y is rs1, x is rs2, and every result has the sign of y.  "Finite" in the rows of an
infinite y takes in the zeros (log 18). -/
def atan2Table (F : Fmt) (y x : Reg) : Option Reg :=
  match unpack F y, unpack F x with
  | .nan s, _ => some (nanF F s)
  | _, .nan s => some (nanF F s)
  | .zero sy, .zero sx => some (if sx then rnePi F sy 4 else zeroF F sy)
  | .zero sy, .finite sx _ _ => some (if sx then rnePi F sy 4 else zeroF F sy)
  | .zero sy, .inf sx => some (if sx then rnePi F sy 4 else zeroF F sy)
  | .finite sy _ _, .zero _ => some (rnePi F sy 2)
  | .finite sy _ _, .inf sx => some (if sx then rnePi F sy 4 else zeroF F sy)
  | .inf sy, .inf sx => some (rnePi F sy (if sx then 3 else 1))
  | .inf sy, _ => some (rnePi F sy 2)
  | .finite _ _ _, .finite _ _ _ => none

end Sys2Proof
end

