-- ==== Sys2Proof/Machine/Accuracy.lean ====
section
/-! DEFINITION. The accuracy rule of the elementary commands: the ULP (R240), the admissible results
(R241), and the exact value each command approximates.  This file is mathematics about real numbers:
nothing here is run by a step. -/

namespace Sys2Proof

/-- `val_F(b)` as a real number (R123). -/
noncomputable def valR (F : Fmt) (b : Reg) : ℝ := (valF F b : ℝ)

/-- `ulp_F(y)` (R240). -/
noncomputable def ulp (F : Fmt) (y : ℝ) : ℝ :=
  if |y| < (2 : ℝ) ^ F.emin then (2 : ℝ) ^ (F.emin - F.p)
  else (2 : ℝ) ^ (min (Int.log 2 |y|) F.emax - F.p)

/-- `Adm_F(y)`: r is an admissible result for the exact value y (R241).  For y = 0 the sign of the zero is
the one a command's rule names; where none does, either is admissible (log 13). -/
def Adm (F : Fmt) (y : ℝ) (r : Reg) : Prop :=
  r.toNat < 2 ^ F.width ∧
    match unpack F r with
    | .zero s => y = 0 ∨ (s = decide (y < 0) ∧ |y| ≤ ulp F y)
    | .finite s _ _ => y ≠ 0 ∧ s = decide (y < 0) ∧ |valR F r - y| ≤ ulp F y
    | .inf s => if s then y ≤ -(maxF F : ℝ) else (maxF F : ℝ) ≤ y
    | .nan _ => False

/-- erf x = (2/√π) ∫₀ˣ e^(-t²) dt (R340). -/
noncomputable def erfR (x : ℝ) : ℝ := 2 / Real.sqrt Real.pi * ∫ t in (0 : ℝ)..x, Real.exp (-t ^ 2)

/-- `|x|^y`, negated for a negative x and an odd integer y (R305). -/
noncomputable def powR (x y : ℚ) : ℝ :=
  (if x < 0 ∧ isOddQ y then -1 else 1) * |(x : ℝ)| ^ (y : ℝ)

/-- sign(x) · |x|^(1/3) (R306). -/
noncomputable def cbrtR (x : ℝ) : ℝ := SignType.sign x * |x| ^ (1 / 3 : ℝ)

/-- The exact value a command's general case approximates, of the operands' exact values (R271 to R277,
R301 to R306, R331 to R336, R340, R341, R345, R349 to R352).  `atan2`'s first operand is the ordinate, and
the angle of the point (x, y) in (-π, π] is the argument of x + iy (R277). -/
noncomputable def exactValue : ElemOp → ℚ → ℚ → ℝ
  | .sin, x, _ => Real.sin x
  | .cos, x, _ => Real.cos x
  | .tan, x, _ => Real.tan x
  | .asin, x, _ => Real.arcsin x
  | .acos, x, _ => Real.arccos x
  | .atan, x, _ => Real.arctan x
  | .atan2, y, x => Complex.arg ⟨(x : ℝ), (y : ℝ)⟩
  | .exp, x, _ => Real.exp x
  | .expm1, x, _ => Real.exp x - 1
  | .log, x, _ => Real.log x
  | .log1p, x, _ => Real.log (1 + x)
  | .pow, x, y => powR x y
  | .cbrt, x, _ => cbrtR x
  | .sinh, x, _ => Real.sinh x
  | .cosh, x, _ => Real.cosh x
  | .tanh, x, _ => Real.tanh x
  | .asinh, x, _ => Real.arsinh x
  | .acosh, x, _ => Real.log (x + Real.sqrt (x ^ 2 - 1))
  | .atanh, x, _ => 1 / 2 * Real.log ((1 + x) / (1 - x))
  | .erf, x, _ => erfR x
  | .erfc, x, _ => 1 - erfR x
  | .tgamma, x, _ => Real.Gamma x
  | .lgamma, x, _ => Real.log |Real.Gamma x|
  | .fmod, x, y => (fmodQ x y : ℝ)
  | .remainder, x, y => (remQ x y : ℝ)

/-! ### Some result is always admissible -/

theorem lt_two_zpow_log_succ {a : ℝ} : a < (2 : ℝ) ^ (Int.log 2 a + 1) := by
  exact_mod_cast Int.lt_zpow_succ_log_self (b := 2) (by decide) a

theorem two_zpow_log_le {a : ℝ} (ha : 0 < a) : (2 : ℝ) ^ Int.log 2 a ≤ a := by
  exact_mod_cast Int.zpow_log_le_self (b := 2) (by decide) ha

theorem maxF_cast (F : Fmt) :
    (maxF F : ℝ) = ((2 : ℝ) ^ (F.p + 1) - 1) * (2 : ℝ) ^ (F.emax - F.p) := by
  have h : 1 ≤ 2 ^ (F.p + 1) := Nat.one_le_two_pow
  simp only [maxF, pow2_eq]
  push_cast [h]
  rfl

theorem maxF_lt (F : Fmt) : (maxF F : ℝ) < (2 : ℝ) ^ (F.emax + 1) := by
  have h : (2 : ℝ) ^ (F.emax + 1) = (2 : ℝ) ^ (F.p + 1) * (2 : ℝ) ^ (F.emax - F.p) := by
    rw [← zpow_natCast, ← zpow_add₀ (by norm_num)]
    congr 1
    push_cast
    ring
  rw [maxF_cast, h]
  have : (0 : ℝ) < 2 ^ (F.emax - F.p) := by positivity
  nlinarith

theorem valR_packFinite (F : Fmt) (s : Bool) {e : Int} {m : Nat} (h : FiniteOk F e m) :
    valR F (packFinite F s e m) = (if s then -1 else 1) * (m : ℝ) * (2 : ℝ) ^ (e - F.p) := by
  rw [valR, valF, unpack_packFinite F s h]
  simp only [Unpacked.val, pow2_eq]
  cases s <;> push_cast <;> simp

/-- For every exact value some result is admissible: the exact value cut off below its last place. -/
theorem adm_nonempty (F : Fmt) (y : ℝ) : ∃ r, Adm F y r := by
  by_cases hy : y = 0
  · exact ⟨zeroF F false, zeroF_lt F false, by simp [hy]⟩
  have ha : 0 < |y| := abs_pos.mpr hy
  set a := |y| with hadef
  have hemin : F.emin < F.emax := by rw [F.emin_eq, F.emax_eq]; have := F.bias_pos; omega
  by_cases hbig : F.emax < Int.log 2 a
  · have h1 : (maxF F : ℝ) < a :=
      (maxF_lt F).trans_le ((zpow_le_zpow_right₀ (by norm_num) (by omega)).trans (two_zpow_log_le ha))
    refine ⟨infF F (decide (y < 0)), infF_lt F _, ?_⟩
    simp only [unpack_infF]
    by_cases hneg : y < 0
    · have : a = -y := abs_of_neg hneg
      simp only [hneg, decide_true, if_true]; linarith
    · have : a = y := abs_of_nonneg (not_lt.mp hneg)
      simp only [hneg, decide_false]; simp only [Bool.false_eq_true, if_false]; linarith
  push Not at hbig
  set e := max (Int.log 2 a) F.emin with he
  set u := (2 : ℝ) ^ (e - F.p) with hu
  have hu0 : 0 < u := by positivity
  have hulp : u = ulp F y := by
    rw [ulp, ← hadef]
    split
    · rename_i hlt
      have : Int.log 2 a < F.emin := by
        by_contra hcon
        have h2 := (zpow_le_zpow_right₀ (one_le_two (α := ℝ)) (not_lt.mp hcon)).trans (two_zpow_log_le ha)
        linarith
      rw [hu, he, max_eq_right this.le]
    · rename_i hge
      have hge' : (2 : ℝ) ^ F.emin < 2 ^ (Int.log 2 a + 1) := (not_lt.mp hge).trans_lt lt_two_zpow_log_succ
      have := (zpow_lt_zpow_iff_right₀ (one_lt_two (α := ℝ))).mp hge'
      rw [hu, he, max_eq_left (by omega), min_eq_left hbig]
  set n := ⌊a / u⌋.toNat with hn
  have hfl : (0 : ℤ) ≤ ⌊a / u⌋ := Int.floor_nonneg.mpr (by positivity)
  have hnc : (n : ℝ) = (⌊a / u⌋ : ℝ) := by
    rw [hn, ← Int.cast_natCast, Int.toNat_of_nonneg hfl]
  have hle : (n : ℝ) * u ≤ a := by
    rw [hnc]; exact (le_div_iff₀ hu0).mp (Int.floor_le _)
  have hlt : a < ((n : ℝ) + 1) * u := by
    rw [hnc]; exact (div_lt_iff₀ hu0).mp (Int.lt_floor_add_one _)
  by_cases hn0 : n = 0
  · refine ⟨zeroF F (decide (y < 0)), zeroF_lt F _, ?_⟩
    simp only [unpack_zeroF]
    right
    refine ⟨trivial, ?_⟩
    rw [← hulp]
    rw [hn0] at hlt
    simp at hlt
    exact hlt.le
  have hmul : (2 : ℝ) ^ (e + 1) = (2 : ℝ) ^ (F.p + 1) * u := by
    rw [hu, ← zpow_natCast, ← zpow_add₀ (by norm_num)]
    congr 1
    push_cast
    ring
  have hmul' : (2 : ℝ) ^ e = (2 : ℝ) ^ F.p * u := by
    rw [hu, ← zpow_natCast, ← zpow_add₀ (by norm_num)]
    congr 1
    ring
  have hok : FiniteOk F e n := by
    refine ⟨by omega, ?_, le_max_right _ _, max_le hbig hemin.le, ?_⟩
    · have h1 : a < (2 : ℝ) ^ (e + 1) :=
        lt_two_zpow_log_succ.trans_le (zpow_le_zpow_right₀ (by norm_num) (by omega))
      have h2 : (n : ℝ) * u < (2 : ℝ) ^ (F.p + 1) * u := by rw [← hmul]; linarith
      have h3 := lt_of_mul_lt_mul_right h2 hu0.le
      exact_mod_cast h3
    · intro hsub
      by_contra hne
      have hlog : e = Int.log 2 a := by omega
      have h1 : (2 : ℝ) ^ e ≤ a := by rw [hlog]; exact two_zpow_log_le ha
      have h2 : (2 : ℝ) ^ F.p * u < ((n : ℝ) + 1) * u := by rw [← hmul']; linarith
      have h3 := lt_of_mul_lt_mul_right h2 hu0.le
      have h4 : 2 ^ F.p < n + 1 := by exact_mod_cast h3
      omega
  refine ⟨packFinite F (decide (y < 0)) e n, packFinite_lt F _ hok, ?_⟩
  rw [unpack_packFinite F _ hok]
  refine ⟨hy, rfl, ?_⟩
  rw [valR_packFinite F _ hok, ← hulp, ← hu]
  by_cases hneg : y < 0
  · have : a = -y := abs_of_neg hneg
    rw [abs_le]; simp only [hneg, decide_true, if_true]
    constructor <;> nlinarith
  · have : a = y := abs_of_nonneg (not_lt.mp hneg)
    rw [abs_le]; simp only [hneg, decide_false, Bool.false_eq_true, if_false]
    constructor <;> nlinarith

end Sys2Proof
end

