-- ==== Sys2Proof/Machine/Evaluator.lean ====
section
/-! DEFINITION. The elementary-function evaluator: ELEM as a free value that meets the accuracy rule (R241,
R242, R246), and the results of the elementary commands (R250). -/

namespace Sys2Proof

/-- A command's special-value table (R250): `none` in the general case.  A command of one operand ignores
the second. -/
def ElemOp.table : ElemOp → Fmt → Reg → Reg → Option Reg
  | .sin, F, a, _ => sinTable F a
  | .cos, F, a, _ => cosTable F a
  | .tan, F, a, _ => tanTable F a
  | .asin, F, a, _ => asinTable F a
  | .acos, F, a, _ => acosTable F a
  | .atan, F, a, _ => atanTable F a
  | .atan2, F, a, b => atan2Table F a b
  | .exp, F, a, _ => expTable F a
  | .expm1, F, a, _ => expm1Table F a
  | .log, F, a, _ => logTable F a
  | .log1p, F, a, _ => log1pTable F a
  | .pow, F, a, b => powTable F a b
  | .cbrt, F, a, _ => cbrtTable F a
  | .sinh, F, a, _ => sinhTable F a
  | .cosh, F, a, _ => coshTable F a
  | .tanh, F, a, _ => tanhTable F a
  | .asinh, F, a, _ => asinhTable F a
  | .acosh, F, a, _ => acoshTable F a
  | .atanh, F, a, _ => atanhTable F a
  | .erf, F, a, _ => erfTable F a
  | .erfc, F, a, _ => erfcTable F a
  | .tgamma, F, a, _ => tgammaTable F a
  | .lgamma, F, a, _ => lgammaTable F a
  | .fmod, F, a, b => fmodTable F a b
  | .remainder, F, a, b => remainderTable F a b

/-- The range rule (R246, R270): FSIN, FCOS and FTAN meet the accuracy rule for |x| < 2^PH_RANGE(F) only;
the other commands always. -/
def ElemOp.inRange (op : ElemOp) (F : Fmt) (a : Reg) : Bool :=
  if op = .sin ∨ op = .cos ∨ op = .tan then |valF F a| < pow2 (Config.phRange F) else true

/-- The bound that R330 sets FCOSH: its results are at least 1.  It is asked beside R241, from which it does not
follow (log 26). -/
def ElemOp.bound (op : ElemOp) (F : Fmt) (r : Reg) : Prop :=
  op = .cosh → unpack F r = .inf false ∨ 1 ≤ valR F r

/-- What R241, R242, R246 and R330 ask of a general-case result r. -/
def ElemOk (op : ElemOp) (F : Fmt) (a b r : Reg) : Prop :=
  op.table F a b = none → op.inRange F a = true →
    Adm F (exactValue op (valF F a) (valF F b)) r ∧ op.bound F r

theorem oneF_ok (F : Fmt) : FiniteOk F 0 (2 ^ F.p) := by cases F <;> constructor <;> decide

theorem valR_oneF (F : Fmt) : valR F (oneF F false) = 1 := by
  rw [oneF, valR_packFinite F false (oneF_ok F)]
  push_cast
  rw [← zpow_natCast, one_mul, ← zpow_add₀ (by norm_num)]
  simp

/-- 1.0 is admissible for an exact value of at least 1 for which some result below 1 is. -/
theorem adm_one_of_lt {F : Fmt} {y : ℝ} {r : Reg} (hy : 1 ≤ y) (hr : Adm F y r) (hlt : valR F r < 1)
    (hinf : unpack F r ≠ .inf false) : Adm F y (oneF F false) := by
  have hy0 : decide (y < 0) = false := decide_eq_false (by linarith)
  have hclose : |1 - y| ≤ ulp F y → Adm F y (oneF F false) := by
    intro h
    refine ⟨packFinite_lt F false (oneF_ok F), ?_⟩
    rw [oneF, unpack_packFinite F false (oneF_ok F)]
    refine ⟨by linarith, hy0.symm, ?_⟩
    rw [← oneF, valR_oneF]; exact h
  obtain ⟨-, hr⟩ := hr
  have hyabs : |y| = y := abs_of_pos (by linarith)
  have h1 : |1 - y| = y - 1 := by rw [abs_sub_comm, abs_of_nonneg (by linarith)]
  split at hr
  · rcases hr with h | ⟨-, h⟩
    · linarith
    · exact hclose (by rw [h1]; linarith)
  · obtain ⟨-, -, h⟩ := hr
    exact hclose (by rw [h1]; linarith [(abs_le.mp h).1])
  · rename_i s hs
    cases s
    · exact absurd hs hinf
    · have : (0 : ℝ) < maxF F := by exact_mod_cast (by cases F <;> decide +kernel : (0 : ℚ) < maxF F)
      simp only [if_true] at hr
      linarith
  · exact hr.elim

/-- For every exact value a command has, some result is admissible and keeps the command's bound. -/
theorem elemOk_nonempty (op : ElemOp) (F : Fmt) (a b : Reg) : Nonempty {r // ElemOk op F a b r} := by
  obtain ⟨r, h⟩ := adm_nonempty F (exactValue op (valF F a) (valF F b))
  by_cases hb : op.bound F r
  · exact ⟨⟨r, fun _ _ => ⟨h, hb⟩⟩⟩
  · simp only [ElemOp.bound, Classical.not_imp, not_or, not_le] at hb
    obtain ⟨rfl, hinf, hlt⟩ := hb
    exact ⟨⟨oneF F false, fun _ _ =>
      ⟨adm_one_of_lt (Real.one_le_cosh _) h hlt hinf, fun _ => .inr (valR_oneF F).ge⟩⟩⟩

/-- An evaluator: from the contents of the two ROMs and the tuning of a command in a format, the result
for the operand patterns (R41, R42, R242, R247).  With the ROMs' fixed contents and the hardware's tuning
it meets the accuracy rule, and FCOSH's bound. -/
structure Evaluator where
  run : List CoefTable → List Byte → Tuning → ElemOp → Fmt → Reg → Reg → Reg
  ok : ∀ op F a b, ElemOk op F a b (run Config.coefRom Config.invPiRom (Config.tune op F) op F a b)

/-- The hardware's evaluator, whose results give ELEM(op,F) (R9, R242): an evaluator of which nothing is
known but that it meets the accuracy rule and FCOSH's bound.  The term in brackets only shows that there is one. -/
def Config.evaluator : Evaluator :=
  @Config.unknown Evaluator
    ⟨{ run := fun _ _ _ op F a b =>
          (@Config.uncomputed {r // ElemOk op F a b r} (elemOk_nonempty op F a b) ()).1
       ok := fun op F a b =>
          (@Config.uncomputed {r // ElemOk op F a b r} (elemOk_nonempty op F a b) ()).2 }⟩

/-- The general-case result of the modulo commands: exactly t when FMOD_EXACT holds, else ELEM's (R350,
R351). -/
def moduloGeneral (t : Rat → Rat → Rat) (F : Fmt) (x y elem : Reg) : Reg :=
  if Config.fmodExact then rneSigned F (t (valF F x) (valF F y)) else elem

namespace Machine

/-- ELEM(op,F)(a, b), evaluated with the ROMs of the state (R242). -/
def State.elem (s : State) (op : ElemOp) (F : Fmt) (a b : Reg) : Reg :=
  Config.evaluator.run s.coefRom s.invPiRom (Config.tune op F) op F a b

/-- An elementary result: the special row if one matches, else the general case (R250). -/
def State.elemResult (s : State) (op : ElemOp) (F : Fmt) (a b : Reg) : Reg :=
  (op.table F a b).getD (s.elem op F a b)

/-- An elementary command of one operand. -/
def elemUnary (op : ElemOp) (F : Fmt) (rd rs1 : RegIdx) (s : State) : Outcome :=
  wrF F rd (s.elemResult op F (s.operand F rs1) 0) s

/-- An elementary command of two operands. -/
def elemBinary (op : ElemOp) (F : Fmt) (rd rs1 rs2 : RegIdx) (s : State) : Outcome :=
  wrF F rd (s.elemResult op F (s.operand F rs1) (s.operand F rs2)) s

/-- A modulo command's result: a special row, or the general case (R350, R351). -/
def State.moduloResult (s : State) (op : ElemOp) (t : Rat → Rat → Rat) (F : Fmt) (a b : Reg) : Reg :=
  (op.table F a b).getD (moduloGeneral t F a b (s.elem op F a b))

end Machine
end Sys2Proof
end

