-- ==== Sys2Proof/Machine/ExpLog.lean ====
section
/-! DEFINITION. The exponential, logarithm, power and cube-root commands (R300 to R306). -/

namespace Sys2Proof.Machine

open Sys2Proof

/-- FEXP (R301). -/
def execFexp (F : Fmt) (rd rs1 : RegIdx) (s : State) : Outcome := elemUnary .exp F rd rs1 s

/-- FEXPM1 (R302). -/
def execFexpm1 (F : Fmt) (rd rs1 : RegIdx) (s : State) : Outcome := elemUnary .expm1 F rd rs1 s

/-- FLOG (R303). -/
def execFlog (F : Fmt) (rd rs1 : RegIdx) (s : State) : Outcome := elemUnary .log F rd rs1 s

/-- FLOG1P (R304). -/
def execFlog1p (F : Fmt) (rd rs1 : RegIdx) (s : State) : Outcome := elemUnary .log1p F rd rs1 s

/-- FPOW (R305). -/
def execFpow (F : Fmt) (rd rs1 rs2 : RegIdx) (s : State) : Outcome :=
  elemBinary .pow F rd rs1 rs2 s

/-- FCBRT (R306). -/
def execFcbrt (F : Fmt) (rd rs1 : RegIdx) (s : State) : Outcome := elemUnary .cbrt F rd rs1 s

end Sys2Proof.Machine
end

