-- ==== Sys2Proof/Machine/HypSpecial.lean ====
section
/-! DEFINITION. The hyperbolic, error-function, gamma and modulo commands (R330 to R352).  FLGAMMA and FREMQUO also write
AUX (R39). -/

namespace Sys2Proof.Machine

open Sys2Proof

/-- FSINH (R331). -/
def execFsinh (F : Fmt) (rd rs1 : RegIdx) (s : State) : Outcome := elemUnary .sinh F rd rs1 s

/-- FCOSH (R332). -/
def execFcosh (F : Fmt) (rd rs1 : RegIdx) (s : State) : Outcome := elemUnary .cosh F rd rs1 s

/-- FTANH (R333). -/
def execFtanh (F : Fmt) (rd rs1 : RegIdx) (s : State) : Outcome := elemUnary .tanh F rd rs1 s

/-- FASINH (R334). -/
def execFasinh (F : Fmt) (rd rs1 : RegIdx) (s : State) : Outcome := elemUnary .asinh F rd rs1 s

/-- FACOSH (R335). -/
def execFacosh (F : Fmt) (rd rs1 : RegIdx) (s : State) : Outcome := elemUnary .acosh F rd rs1 s

/-- FATANH (R336). -/
def execFatanh (F : Fmt) (rd rs1 : RegIdx) (s : State) : Outcome := elemUnary .atanh F rd rs1 s

/-- FERF (R340). -/
def execFerf (F : Fmt) (rd rs1 : RegIdx) (s : State) : Outcome := elemUnary .erf F rd rs1 s

/-- FERFC (R341). -/
def execFerfc (F : Fmt) (rd rs1 : RegIdx) (s : State) : Outcome := elemUnary .erfc F rd rs1 s

/-- FTGAMMA (R345). -/
def execFtgamma (F : Fmt) (rd rs1 : RegIdx) (s : State) : Outcome := elemUnary .tgamma F rd rs1 s

/-- FLGAMMA: rd, and the sign of Γ in AUX, which is exact (R349). -/
def execFlgamma (F : Fmt) (rd rs1 : RegIdx) (s : State) : Outcome :=
  let x := s.operand F rs1
  .next (s.retireAux rd (lowBits F.width (s.elemResult .lgamma F x 0)) (lgammaAux F x))

/-- FFMOD (R350). -/
def execFfmod (F : Fmt) (rd rs1 rs2 : RegIdx) (s : State) : Outcome :=
  wrF F rd (s.moduloResult .fmod fmodQ F (s.operand F rs1) (s.operand F rs2)) s

/-- FREMAINDER (R351). -/
def execFremainder (F : Fmt) (rd rs1 rs2 : RegIdx) (s : State) : Outcome :=
  wrF F rd (s.moduloResult .remainder remQ F (s.operand F rs1) (s.operand F rs2)) s

/-- FREMQUO: rd exactly as FREMAINDER (log 19), and the low quotient bits with their sign in AUX, which are
exact (R352). -/
def execFremquo (F : Fmt) (rd rs1 rs2 : RegIdx) (s : State) : Outcome :=
  let x := s.operand F rs1
  let y := s.operand F rs2
  .next (s.retireAux rd (lowBits F.width (s.moduloResult .remainder remQ F x y)) (remquoAux F x y))

end Sys2Proof.Machine
end

