-- ==== Sys2Proof/Machine/Arith.lean ====
section
/-! DEFINITION. FADD, FSUB, FMUL, FDIV, FMA and FSQRT (R134 to R143).  NaN operands come first, in the
order rs1, rs2, rs3 (R128); no flag is written and nothing is raised (R7, R380). -/

namespace Sys2Proof

/-- The pattern with its sign bit inverted: `{~b[W-1], b[W-2:0]}` (R135, R180). -/
def flipSign (F : Fmt) (b : Reg) : Reg := b ^^^ ((1 : Reg) <<< (F.width - 1))

/-- `addsub_F(a, b)` (R134). -/
def addF (F : Fmt) (a b : Reg) : Reg :=
  match unpack F a, unpack F b with
  | .nan s, _ => nanF F s
  | _, .nan s => nanF F s
  | .inf s, .inf t => if s = t then infF F s else nanF F false
  | .inf s, _ => infF F s
  | _, .inf t => infF F t
  | .zero s, .zero t => zeroF F (s && t)
  | .zero _, _ => b
  | _, .zero _ => a
  | .finite _ _ _, .finite _ _ _ =>
    let S := valF F a + valF F b
    if S = 0 then zeroF F false else rneSigned F S

/-- FSUB's result: the subtrahend's sign is inverted first, a NaN's too (R135). -/
def subF (F : Fmt) (a b : Reg) : Reg := addF F a (flipSign F b)

/-- FMUL's result (R137). -/
def mulF (F : Fmt) (a b : Reg) : Reg :=
  let s := signBit F a ^^ signBit F b
  match unpack F a, unpack F b with
  | .nan t, _ => nanF F t
  | _, .nan t => nanF F t
  | .zero _, .inf _ => nanF F false
  | .inf _, .zero _ => nanF F false
  | .inf _, _ => infF F s
  | _, .inf _ => infF F s
  | .zero _, _ => zeroF F s
  | _, .zero _ => zeroF F s
  | .finite _ _ _, .finite _ _ _ => rne F s (|valF F a| * |valF F b|)

/-- FDIV's result (R139). -/
def divF (F : Fmt) (a b : Reg) : Reg :=
  let s := signBit F a ^^ signBit F b
  match unpack F a, unpack F b with
  | .nan t, _ => nanF F t
  | _, .nan t => nanF F t
  | .zero _, .zero _ => nanF F false
  | .inf _, .inf _ => nanF F false
  | .inf _, _ => infF F s
  | _, .zero _ => infF F s
  | .zero _, _ => zeroF F s
  | _, .inf _ => zeroF F s
  | .finite _ _ _, .finite _ _ _ => rne F s (|valF F a| / |valF F b|)

/-- FMA's result, `a*b + c` rounded once (R141). -/
def fmaF (F : Fmt) (a b c : Reg) : Reg :=
  let sp := signBit F a ^^ signBit F b
  match unpack F a, unpack F b, unpack F c with
  | .nan t, _, _ => nanF F t
  | _, .nan t, _ => nanF F t
  | _, _, .nan t => nanF F t
  | .zero _, .inf _, _ => nanF F false
  | .inf _, .zero _, _ => nanF F false
  | .inf _, _, .inf sc => if sc ≠ sp then nanF F false else infF F sp
  | _, .inf _, .inf sc => if sc ≠ sp then nanF F false else infF F sp
  | .inf _, _, _ => infF F sp
  | _, .inf _, _ => infF F sp
  | _, _, .inf sc => infF F sc
  | .zero _, _, .zero sc => zeroF F (sp && sc)
  | _, .zero _, .zero sc => zeroF F (sp && sc)
  | .zero _, _, _ => c
  | _, .zero _, _ => c
  | _, _, _ =>
    let S := valF F a * valF F b + valF F c
    if S = 0 then zeroF F false else rneSigned F S

/-- FSQRT's result (R143). -/
def sqrtF (F : Fmt) (a : Reg) : Reg :=
  match unpack F a with
  | .nan s => nanF F s
  | .zero s => zeroF F s
  | .finite true _ _ => nanF F false
  | .inf true => nanF F false
  | .inf false => infF F false
  | .finite false _ _ => rneSqrt F (valF F a)

namespace Machine

/-- FADD (R134). -/
def execFadd (F : Fmt) (rd rs1 rs2 : RegIdx) (s : State) : Outcome := binaryF addF F rd rs1 rs2 s

/-- FSUB (R135). -/
def execFsub (F : Fmt) (rd rs1 rs2 : RegIdx) (s : State) : Outcome := binaryF subF F rd rs1 rs2 s

/-- FMUL (R137). -/
def execFmul (F : Fmt) (rd rs1 rs2 : RegIdx) (s : State) : Outcome := binaryF mulF F rd rs1 rs2 s

/-- FDIV (R139). -/
def execFdiv (F : Fmt) (rd rs1 rs2 : RegIdx) (s : State) : Outcome := binaryF divF F rd rs1 rs2 s

/-- FMA (R141). -/
def execFma (F : Fmt) (rd rs1 rs2 rs3 : RegIdx) (s : State) : Outcome :=
  ternaryF fmaF F rd rs1 rs2 rs3 s

/-- FSQRT (R143). -/
def execFsqrt (F : Fmt) (rd rs1 : RegIdx) (s : State) : Outcome := unaryF sqrtF F rd rs1 s

end Machine
end Sys2Proof
end

