-- ==== Sys2Proof/Machine/SignCompare.lean ====
section
/-! DEFINITION. Sign manipulation on bits (R180 to R182) and the quiet comparisons (R183 to R187). -/

namespace Sys2Proof

/-- FNEG's result: every class, a NaN's fraction kept (R180). -/
def negF (F : Fmt) (a : Reg) : Reg := flipSign F a

/-- FABS's result: `{0, a[W-2:0]}` (R181). -/
def absF (F : Fmt) (a : Reg) : Reg := lowBits (F.width - 1) a

/-- FCOPYSIGN's result: `{b[W-1], a[W-2:0]}` (R182). -/
def copysignF (F : Fmt) (a b : Reg) : Reg :=
  lowBits (F.width - 1) a ||| (if signBit F b then (1 : Reg) <<< (F.width - 1) else 0)

/-- The order of two values as extended reals, or `none` if either is a NaN and the pair is unordered
(R183): -∞ < every finite value < +∞, and +0 equals -0. -/
def compareVals (F : Fmt) (a b : Reg) : Option Ordering :=
  match unpack F a, unpack F b with
  | .nan _, _ => none
  | _, .nan _ => none
  | .inf s, .inf t => some (if s = t then .eq else if s then .lt else .gt)
  | .inf s, _ => some (if s then .lt else .gt)
  | _, .inf t => some (if t then .gt else .lt)
  | _, _ =>
    some (if valF F a < valF F b then .lt else if valF F a = valF F b then .eq else .gt)

/-- FEQ's Boolean (R184). -/
def eqF (F : Fmt) (a b : Reg) : Bool := compareVals F a b == some .eq
/-- FLT's Boolean (R185). -/
def ltF (F : Fmt) (a b : Reg) : Bool := compareVals F a b == some .lt
/-- FLE's Boolean (R186). -/
def leF (F : Fmt) (a b : Reg) : Bool := compareVals F a b == some .lt || compareVals F a b == some .eq
/-- FNE's Boolean: 1 for an unordered pair (R187). -/
def neF (F : Fmt) (a b : Reg) : Bool := compareVals F a b != some .eq

namespace Machine

/-- FNEG (R180). -/
def execFneg (F : Fmt) (rd rs1 : RegIdx) (s : State) : Outcome := unaryF negF F rd rs1 s

/-- FABS (R181). -/
def execFabs (F : Fmt) (rd rs1 : RegIdx) (s : State) : Outcome := unaryF absF F rd rs1 s

/-- FCOPYSIGN (R182). -/
def execFcopysign (F : Fmt) (rd rs1 rs2 : RegIdx) (s : State) : Outcome :=
  binaryF copysignF F rd rs1 rs2 s

/-- FEQ (R184). -/
def execFeq (F : Fmt) (rd rs1 rs2 : RegIdx) (s : State) : Outcome := compareF eqF F rd rs1 rs2 s

/-- FLT (R185). -/
def execFlt (F : Fmt) (rd rs1 rs2 : RegIdx) (s : State) : Outcome := compareF ltF F rd rs1 rs2 s

/-- FLE (R186). -/
def execFle (F : Fmt) (rd rs1 rs2 : RegIdx) (s : State) : Outcome := compareF leF F rd rs1 rs2 s

/-- FNE (R187). -/
def execFne (F : Fmt) (rd rs1 rs2 : RegIdx) (s : State) : Outcome := compareF neF F rd rs1 rs2 s

end Machine
end Sys2Proof
end

