-- ==== Sys2Proof/Machine/Trig.lean ====
section
/-! DEFINITION. The trigonometric and inverse trigonometric commands (R270 to R277). -/

namespace Sys2Proof.Machine

open Sys2Proof

/-- FSIN (R271). -/
def execFsin (F : Fmt) (rd rs1 : RegIdx) (s : State) : Outcome := elemUnary .sin F rd rs1 s

/-- FCOS (R272). -/
def execFcos (F : Fmt) (rd rs1 : RegIdx) (s : State) : Outcome := elemUnary .cos F rd rs1 s

/-- FTAN (R273). -/
def execFtan (F : Fmt) (rd rs1 : RegIdx) (s : State) : Outcome := elemUnary .tan F rd rs1 s

/-- FASIN (R274). -/
def execFasin (F : Fmt) (rd rs1 : RegIdx) (s : State) : Outcome := elemUnary .asin F rd rs1 s

/-- FACOS (R275). -/
def execFacos (F : Fmt) (rd rs1 : RegIdx) (s : State) : Outcome := elemUnary .acos F rd rs1 s

/-- FATAN (R276). -/
def execFatan (F : Fmt) (rd rs1 : RegIdx) (s : State) : Outcome := elemUnary .atan F rd rs1 s

/-- FATAN2 (R277). -/
def execFatan2 (F : Fmt) (rd rs1 rs2 : RegIdx) (s : State) : Outcome :=
  elemBinary .atan2 F rd rs1 rs2 s

end Sys2Proof.Machine
end

