-- ==== Sys2Proof/Machine/Dispatch.lean ====
section
/-! DEFINITION. One arm per command: its meaning. -/

namespace Sys2Proof.Machine

open Sys2Proof

def exec (i : Instr) (s : State) : Host.Outcome State Fault Refusal :=
  match i with
  | .fadd F rd rs1 rs2 => Sys2Proof.Machine.execFadd F rd rs1 rs2 s
  | .fsub F rd rs1 rs2 => Sys2Proof.Machine.execFsub F rd rs1 rs2 s
  | .fmul F rd rs1 rs2 => Sys2Proof.Machine.execFmul F rd rs1 rs2 s
  | .fdiv F rd rs1 rs2 => Sys2Proof.Machine.execFdiv F rd rs1 rs2 s
  | .fma F rd rs1 rs2 rs3 => Sys2Proof.Machine.execFma F rd rs1 rs2 rs3 s
  | .fsqrt F rd rs1 => Sys2Proof.Machine.execFsqrt F rd rs1 s
  | .fneg F rd rs1 => Sys2Proof.Machine.execFneg F rd rs1 s
  | .fabs F rd rs1 => Sys2Proof.Machine.execFabs F rd rs1 s
  | .fcopysign F rd rs1 rs2 => Sys2Proof.Machine.execFcopysign F rd rs1 rs2 s
  | .feq F rd rs1 rs2 => Sys2Proof.Machine.execFeq F rd rs1 rs2 s
  | .flt F rd rs1 rs2 => Sys2Proof.Machine.execFlt F rd rs1 rs2 s
  | .fle F rd rs1 rs2 => Sys2Proof.Machine.execFle F rd rs1 rs2 s
  | .fne F rd rs1 rs2 => Sys2Proof.Machine.execFne F rd rs1 rs2 s
  | .ftrunc F rd rs1 => Sys2Proof.Machine.execFtrunc F rd rs1 s
  | .ffloor F rd rs1 => Sys2Proof.Machine.execFfloor F rd rs1 s
  | .fceil F rd rs1 => Sys2Proof.Machine.execFceil F rd rs1 s
  | .fround F rd rs1 => Sys2Proof.Machine.execFround F rd rs1 s
  | .frint F rd rs1 => Sys2Proof.Machine.execFrint F rd rs1 s
  | .fisint F rd rs1 => Sys2Proof.Machine.execFisint F rd rs1 s
  | .fcvtFF S D rd rs1 => Sys2Proof.Machine.execFcvtFF S D rd rs1 s
  | .fcvtIF F T rd rs1 => Sys2Proof.Machine.execFcvtIF F T rd rs1 s
  | .fcvtFI F T rd rs1 => Sys2Proof.Machine.execFcvtFI F T rd rs1 s
  | .fsin F rd rs1 => Sys2Proof.Machine.execFsin F rd rs1 s
  | .fcos F rd rs1 => Sys2Proof.Machine.execFcos F rd rs1 s
  | .ftan F rd rs1 => Sys2Proof.Machine.execFtan F rd rs1 s
  | .fasin F rd rs1 => Sys2Proof.Machine.execFasin F rd rs1 s
  | .facos F rd rs1 => Sys2Proof.Machine.execFacos F rd rs1 s
  | .fatan F rd rs1 => Sys2Proof.Machine.execFatan F rd rs1 s
  | .fatan2 F rd rs1 rs2 => Sys2Proof.Machine.execFatan2 F rd rs1 rs2 s
  | .fexp F rd rs1 => Sys2Proof.Machine.execFexp F rd rs1 s
  | .fexpm1 F rd rs1 => Sys2Proof.Machine.execFexpm1 F rd rs1 s
  | .flog F rd rs1 => Sys2Proof.Machine.execFlog F rd rs1 s
  | .flog1p F rd rs1 => Sys2Proof.Machine.execFlog1p F rd rs1 s
  | .fpow F rd rs1 rs2 => Sys2Proof.Machine.execFpow F rd rs1 rs2 s
  | .fcbrt F rd rs1 => Sys2Proof.Machine.execFcbrt F rd rs1 s
  | .fsinh F rd rs1 => Sys2Proof.Machine.execFsinh F rd rs1 s
  | .fcosh F rd rs1 => Sys2Proof.Machine.execFcosh F rd rs1 s
  | .ftanh F rd rs1 => Sys2Proof.Machine.execFtanh F rd rs1 s
  | .fasinh F rd rs1 => Sys2Proof.Machine.execFasinh F rd rs1 s
  | .facosh F rd rs1 => Sys2Proof.Machine.execFacosh F rd rs1 s
  | .fatanh F rd rs1 => Sys2Proof.Machine.execFatanh F rd rs1 s
  | .ferf F rd rs1 => Sys2Proof.Machine.execFerf F rd rs1 s
  | .ferfc F rd rs1 => Sys2Proof.Machine.execFerfc F rd rs1 s
  | .ftgamma F rd rs1 => Sys2Proof.Machine.execFtgamma F rd rs1 s
  | .flgamma F rd rs1 => Sys2Proof.Machine.execFlgamma F rd rs1 s
  | .ffmod F rd rs1 rs2 => Sys2Proof.Machine.execFfmod F rd rs1 rs2 s
  | .fremainder F rd rs1 rs2 => Sys2Proof.Machine.execFremainder F rd rs1 rs2 s
  | .fremquo F rd rs1 rs2 => Sys2Proof.Machine.execFremquo F rd rs1 rs2 s

end Sys2Proof.Machine
end

