-- ==== Sys2Proof/Machine/Window.lean ====
section
/-! DEFINITION. The host window: its map (R61), the reads and writes of its words (R62 to R67), the bus
errors (R384, R385), and how one host event is served (R69, R415). -/

namespace Sys2Proof.Machine

open Sys2Proof

/-! ### The map -/

/-- What a word of the window is (R61). -/
inductive Target where
  | regWord (i : RegIdx) (j : Fin 4)
  | id
  | features
  | cmd
  | status
  | aux
  deriving DecidableEq, Repr

/-- The word at a byte offset (R61): `none` for an offset that is no multiple of 8 or is reserved. -/
def targetAt (off : BitVec 12) : Option Target :=
  if off.toNat % 8 ≠ 0 then none
  else if h : off.toNat < 0x200 then
    some (.regWord ⟨off.toNat / 0x20, by omega⟩ ⟨off.toNat / 8 % 4, by omega⟩)
  else if off = 0x200 then some .id
  else if off = 0x208 then some .features
  else if off = 0x210 then some .cmd
  else if off = 0x218 then some .status
  else if off = 0x220 then some .aux
  else none

/-- The byte offset of a word (R61): register word j of f_i at 0x20·i + 8·j, then the CSRs. -/
def Target.offset : Target → BitVec 12
  | .regWord i j => BitVec.ofNat 12 (0x20 * i.val + 8 * j.val)
  | .id => 0x200
  | .features => 0x208
  | .cmd => 0x210
  | .status => 0x218
  | .aux => 0x220

/-- ID, hard-wired (R35). -/
def idConst : Word := 0x00000007544C4643
/-- FEATURES, hard-wired (R36). -/
def featuresConst : Word := 0x000000000000013F

/-- A bus address as an offset of the window, if it falls inside the 4096 bytes at TLF_BASE (R61).  The model's
choice (log 12): addresses have 64 bits, and a window at the top of their space goes on at its bottom. -/
def windowOffset (addr : Word) : Option (BitVec 12) :=
  if (addr - Config.tlfBase).toNat < 4096 then some ((addr - Config.tlfBase).setWidth 12) else none

/-! ### Words and bytes -/

/-- The current value of a word of the window (R34, R61, R62). -/
def State.windowWord (s : State) : Target → Word
  | .regWord i j => s.regWord i j
  | .id => idConst
  | .features => featuresConst
  | .cmd => s.cmd
  | .status => s.status
  | .aux => s.aux

/-- Byte k of a word, bits 8k+7..8k: little-endian (R63). -/
def wordByte (w : Word) (k : Nat) : Byte := w.extractLsb' (8 * k) 8

/-- The 64 bits that eight bytes at rising offsets carry: little-endian (R63). -/
def wordOfBytes : List Byte → Word
  | [] => 0
  | b :: bs => (b.setWidth 64) ||| (wordOfBytes bs <<< 8)

/-- The byte the window shows at an offset; `none` in the reserved range (R61, R63). -/
def State.windowByte (s : State) (off : BitVec 12) : Option Byte :=
  (targetAt (off &&& ~~~7)).map fun t => wordByte (s.windowWord t) (off.toNat % 8)

/-- A host write of a word (R62, R67), of every target but CMD: a register word, STATUS (bit 0 clears
ILL), or a read-only CSR, whose write is accepted and ignored (R34). -/
def State.writeWord (s : State) (t : Target) (v : Word) : State :=
  match t with
  | .regWord i j => s.setRegWord i j v
  | .status => s.writeStatus v
  | .id => s
  | .features => s
  | .aux => s
  | .cmd => s

/-- The command word a host write of v to CMD takes, and CMD as the write records it (R37). -/
def cmdWord (v : Word) : CmdWord := v.setWidth 32
def State.recordCmd (s : State) (v : Word) : State := { s with cmd := (cmdWord v).setWidth 64 }

/-! ### Serving a host event -/

/-- A write of v to CMD (R37, R415): record the word, decode it, and perform the command by `run` or raise
IllegalCommand (R382). -/
def issue (run : Instr → State → Outcome) (v : Word) (s : State) : Outcome :=
  match decode (cmdWord v) with
  | .ok i => run i (s.recordCmd v)
  | .error c => .next ((s.recordCmd v).raiseIllegal c)

/-- One host access (R64 to R67, R384).  A wrong width, a misaligned offset or a reserved offset is a bus
error (R385). -/
def serveAccess (run : Instr → State → Outcome) (a : Access) (s : State) : Outcome :=
  if a.width ≠ 8 then .fault (.busError a.offset a.width)
  else
    match targetAt a.offset with
    | none => .fault (.busError a.offset a.width)
    | some t =>
      match a.dir, t with
      | .read, t => .next { s with reply := .data (s.windowWord t) }
      | .write v, .cmd => issue run v { s with reply := .ack }
      | .write v, t => .next { s.writeWord t v with reply := .ack }

/-- One event: an access, the platform's reset (R410), or an access while reset is asserted, whose outcome
is the platform's (R410). -/
def serve (run : Instr → State → Outcome) (e : HostEvent) (s : State) : Outcome :=
  match e with
  | .access a => serveAccess run a s
  | .reset => .next s.platformReset
  | .accessInReset a => .refused (.accessDuringReset a.offset a.width)

/-- Serve the oldest event; with none to serve, TLFCORE does nothing (R69, R415; log 3). -/
def serveNext (run : Instr → State → Outcome) (s : State) : Outcome :=
  match s.pending with
  | [] => .next s
  | e :: rest => serve run e { s with pending := rest }

/-- The host access that writes v to CMD. -/
def cmdWrite (v : Word) : HostEvent := .access { offset := 0x210, width := 8, dir := .write v }

/-- The host access that writes the command word given as the low `nbits` bits of w to CMD, put before
every other event. -/
def State.withCommand (s : State) (nbits w : Nat) : State :=
  { s with pending := cmdWrite (BitVec.ofNat 64 (BitVec.ofNat 32 (w % 2 ^ nbits)).toNat) :: s.pending }

end Sys2Proof.Machine
end

