-- ==== Sys2Proof/Machine/Step.lean ====
section
/-! DEFINITION. One step of the machine: it serves one host event (R69, R415). -/

namespace Sys2Proof.Machine

open Sys2Proof

/-- One step. -/
def step (s : State) : Host.Outcome State Fault Refusal := serveNext exec s

/-- The state in which the next step writes the given command word to CMD: TLFCORE fetches nothing, its
commands come from the host (R46, R72). -/
def State.withFetchWord (s : State) (nbits w : Nat) : State := s.withCommand nbits w

end Sys2Proof.Machine
end

