-- ==== Sys2Proof/Machine/Asm.lean ====
section
/-! DEFINITION. The assembler's notation: syntax (R105), disassembly (R108), the pseudo-instructions (R107)
and the host directives (R106).  Not architectural: no step uses it. -/

namespace Sys2Proof

/-! ### Text -/

/-- The assembler suffix of a format (R92). -/
def Fmt.suffix : Fmt → String
  | .half => "H"
  | .bfloat16 => "BF"
  | .single => "S"
  | .double => "D"
  | .quadruple => "Q"
  | .octuple => "O"

/-- The assembler suffix of an integer type (R93). -/
def IntTy.suffix : IntTy → String
  | .i8 => "I8"
  | .u8 => "U8"
  | .i16 => "I16"
  | .u16 => "U16"
  | .i32 => "I32"
  | .u32 => "U32"
  | .i64 => "I64"
  | .u64 => "U64"

/-- A register's name (R105). -/
def regName (r : RegIdx) : String := "f" ++ toString r.val

def asmUnary (m sfx : String) (rd rs1 : RegIdx) : String :=
  m ++ "." ++ sfx ++ " " ++ regName rd ++ ", " ++ regName rs1
def asmBinary (m sfx : String) (rd rs1 rs2 : RegIdx) : String :=
  asmUnary m sfx rd rs1 ++ ", " ++ regName rs2
def asmTernary (m sfx : String) (rd rs1 rs2 rs3 : RegIdx) : String :=
  asmBinary m sfx rd rs1 rs2 ++ ", " ++ regName rs3

/-- `MNEMONIC.FMT rd, rs1[, rs2[, rs3]]`; a conversion puts the destination type first (R105). -/
def Instr.asm : Instr → String
  | .fadd F rd rs1 rs2 => asmBinary "FADD" F.suffix rd rs1 rs2
  | .fsub F rd rs1 rs2 => asmBinary "FSUB" F.suffix rd rs1 rs2
  | .fmul F rd rs1 rs2 => asmBinary "FMUL" F.suffix rd rs1 rs2
  | .fdiv F rd rs1 rs2 => asmBinary "FDIV" F.suffix rd rs1 rs2
  | .fma F rd rs1 rs2 rs3 => asmTernary "FMA" F.suffix rd rs1 rs2 rs3
  | .fsqrt F rd rs1 => asmUnary "FSQRT" F.suffix rd rs1
  | .fneg F rd rs1 => asmUnary "FNEG" F.suffix rd rs1
  | .fabs F rd rs1 => asmUnary "FABS" F.suffix rd rs1
  | .fcopysign F rd rs1 rs2 => asmBinary "FCOPYSIGN" F.suffix rd rs1 rs2
  | .feq F rd rs1 rs2 => asmBinary "FEQ" F.suffix rd rs1 rs2
  | .flt F rd rs1 rs2 => asmBinary "FLT" F.suffix rd rs1 rs2
  | .fle F rd rs1 rs2 => asmBinary "FLE" F.suffix rd rs1 rs2
  | .fne F rd rs1 rs2 => asmBinary "FNE" F.suffix rd rs1 rs2
  | .ftrunc F rd rs1 => asmUnary "FTRUNC" F.suffix rd rs1
  | .ffloor F rd rs1 => asmUnary "FFLOOR" F.suffix rd rs1
  | .fceil F rd rs1 => asmUnary "FCEIL" F.suffix rd rs1
  | .fround F rd rs1 => asmUnary "FROUND" F.suffix rd rs1
  | .frint F rd rs1 => asmUnary "FRINT" F.suffix rd rs1
  | .fisint F rd rs1 => asmUnary "FISINT" F.suffix rd rs1
  | .fcvtFF S D rd rs1 => asmUnary "FCVT" (D.suffix ++ "." ++ S.suffix) rd rs1
  | .fcvtIF F T rd rs1 => asmUnary "FCVT" (T.suffix ++ "." ++ F.suffix) rd rs1
  | .fcvtFI F T rd rs1 => asmUnary "FCVT" (F.suffix ++ "." ++ T.suffix) rd rs1
  | .fsin F rd rs1 => asmUnary "FSIN" F.suffix rd rs1
  | .fcos F rd rs1 => asmUnary "FCOS" F.suffix rd rs1
  | .ftan F rd rs1 => asmUnary "FTAN" F.suffix rd rs1
  | .fasin F rd rs1 => asmUnary "FASIN" F.suffix rd rs1
  | .facos F rd rs1 => asmUnary "FACOS" F.suffix rd rs1
  | .fatan F rd rs1 => asmUnary "FATAN" F.suffix rd rs1
  | .fatan2 F rd rs1 rs2 => asmBinary "FATAN2" F.suffix rd rs1 rs2
  | .fexp F rd rs1 => asmUnary "FEXP" F.suffix rd rs1
  | .fexpm1 F rd rs1 => asmUnary "FEXPM1" F.suffix rd rs1
  | .flog F rd rs1 => asmUnary "FLOG" F.suffix rd rs1
  | .flog1p F rd rs1 => asmUnary "FLOG1P" F.suffix rd rs1
  | .fpow F rd rs1 rs2 => asmBinary "FPOW" F.suffix rd rs1 rs2
  | .fcbrt F rd rs1 => asmUnary "FCBRT" F.suffix rd rs1
  | .fsinh F rd rs1 => asmUnary "FSINH" F.suffix rd rs1
  | .fcosh F rd rs1 => asmUnary "FCOSH" F.suffix rd rs1
  | .ftanh F rd rs1 => asmUnary "FTANH" F.suffix rd rs1
  | .fasinh F rd rs1 => asmUnary "FASINH" F.suffix rd rs1
  | .facosh F rd rs1 => asmUnary "FACOSH" F.suffix rd rs1
  | .fatanh F rd rs1 => asmUnary "FATANH" F.suffix rd rs1
  | .ferf F rd rs1 => asmUnary "FERF" F.suffix rd rs1
  | .ferfc F rd rs1 => asmUnary "FERFC" F.suffix rd rs1
  | .ftgamma F rd rs1 => asmUnary "FTGAMMA" F.suffix rd rs1
  | .flgamma F rd rs1 => asmUnary "FLGAMMA" F.suffix rd rs1
  | .ffmod F rd rs1 rs2 => asmBinary "FFMOD" F.suffix rd rs1 rs2
  | .fremainder F rd rs1 rs2 => asmBinary "FREMAINDER" F.suffix rd rs1 rs2
  | .fremquo F rd rs1 rs2 => asmBinary "FREMQUO" F.suffix rd rs1 rs2

/-- One hexadecimal digit. -/
def hexDigit (n : Nat) : Char :=
  if n < 10 then Char.ofNat (48 + n) else Char.ofNat (55 + n)

/-- The eight hexadecimal digits of a word, the most significant first (R11). -/
def hex8 (w : CmdWord) : String :=
  String.ofList ([7, 6, 5, 4, 3, 2, 1, 0].map fun k => hexDigit (w.toNat / 16 ^ k % 16))

/-- Disassembly: a command's syntax, or `.word 0x<8 hex digits>` for an illegal word (R108). -/
def disassemble (w : CmdWord) : String :=
  match decode w with
  | .ok i => i.asm
  | .error _ => ".word 0x" ++ hex8 w

/-! ### Pseudo-instructions (R107) -/

def pseudoFgt (F : Fmt) (rd a b : RegIdx) : List Instr := [.flt F rd b a]
def pseudoFge (F : Fmt) (rd a b : RegIdx) : List Instr := [.fle F rd b a]
def pseudoFmv (F : Fmt) (rd a : RegIdx) : List Instr := [.fcopysign F rd a a]
/-- k holds 1.0 of the format, written by the host. -/
def pseudoFinc (F : Fmt) (rd a k : RegIdx) : List Instr := [.fadd F rd a k]
/-- k holds 1.0 of the format, written by the host. -/
def pseudoFdec (F : Fmt) (rd a k : RegIdx) : List Instr := [.fsub F rd a k]
def pseudoFsqr (F : Fmt) (rd a : RegIdx) : List Instr := [.fmul F rd a a]
/-- -(a*b)+c; rd is overwritten first, so it must differ from b and c. -/
def pseudoFnma (F : Fmt) (rd a b c : RegIdx) : List Instr := [.fneg F rd a, .fma F rd rd b c]

namespace Machine

/-! ### Host directives (R106) -/

def hostWrite (t : Target) (v : Word) : HostEvent :=
  .access { offset := t.offset, width := 8, dir := .write v }
def hostRead (t : Target) : HostEvent := .access { offset := t.offset, width := 8, dir := .read }

/-- `WR fi, v`: the four words of f_i, least significant first (R62, R106). -/
def directiveWr (i : RegIdx) (v : Reg) : List HostEvent :=
  (List.finRange 4).map fun j => hostWrite (.regWord i j) (v.extractLsb' (64 * j.val) 64)
/-- `RD fi` (R106). -/
def directiveRd (i : RegIdx) : List HostEvent := (List.finRange 4).map fun j => hostRead (.regWord i j)
/-- A command issued by the host: `CMD w`. -/
def directiveCmd (i : Instr) : HostEvent := hostWrite .cmd ((encode i).setWidth 64)

end Machine
end Sys2Proof
end

