-- ==== Sys2Proof/Machine/Datapath.lean ====
section
/-! DEFINITION. The hardware's integer datapaths as the spec describes them: guard and sticky rounding
(R132), addition with its shortcut (R136), multiplication (R138), division by remainder comparison (R140),
the fused multiply-add (R142), the square root (R144), the mask-and-bias rounding family (R207), and the
casts by shifting (R211, R214).  The meanings use the rules (R145); that each datapath gives the rule's
result is stated, not assumed. -/

namespace Sys2Proof.Datapath

open Sys2Proof

/-- Guard and sticky rounding (R132) of a value M·2^q, M > 0, with a sticky bit for what lies below bit 0 of
M.  n holds the result's significant bits, g is the next bit below, and the sticky bit is the OR of all
bits below that. -/
def round (F : Fmt) (s : Bool) (M : Nat) (q : Int) (sticky : Bool) : Reg :=
  let e := max ((Nat.log2 M : Int) + q) F.emin
  let k := e - F.p - q
  if k ≤ 0 then settle F s e (M * 2 ^ (-k).toNat)
  else
    let w := k.toNat
    let n := M / 2 ^ w
    let g := M / 2 ^ (w - 1) % 2
    let st := sticky || M % 2 ^ (w - 1) != 0
    settle F s e (if g = 1 ∧ (st ∨ n % 2 = 1) then n + 1 else n)

/-- Sum of two signed magnitudes over one exponent, then rounding; an exact zero is +0 (R133). -/
def addAligned (F : Fmt) (s1 : Bool) (A : Nat) (s2 : Bool) (B : Nat) (q : Int) : Reg :=
  if s1 = s2 then round F s1 (A + B) q false
  else if A = B then zeroF F false
  else if A > B then round F s1 (A - B) q false
  else round F s2 (B - A) q false

/-- Addition of two finite nonzero values, the first of the larger exponent (R136).  When the exponents
differ by more than the working mantissa width plus 2 the larger operand is returned unchanged; that width
is taken to be p + 1, the model's choice (log 30), which no result depends on. -/
def addOrdered (F : Fmt) (s1 : Bool) (e1 : Int) (m1 : Nat) (s2 : Bool) (e2 : Int) (m2 : Nat) : Reg :=
  let d := (e1 - e2).toNat
  if d > F.p + 1 + 2 then packFinite F s1 e1 m1
  else addAligned F s1 (m1 * 2 ^ d) s2 m2 (e2 - F.p)

def add (F : Fmt) (s1 : Bool) (e1 : Int) (m1 : Nat) (s2 : Bool) (e2 : Int) (m2 : Nat) : Reg :=
  if e2 ≤ e1 then addOrdered F s1 e1 m1 s2 e2 m2 else addOrdered F s2 e2 m2 s1 e1 m1

/-- Multiplication: the exact double-width product, rounded once (R138). -/
def mul (F : Fmt) (s : Bool) (e1 : Int) (m1 : Nat) (e2 : Int) (m2 : Nat) : Reg :=
  round F s (m1 * m2) (e1 + e2 - 2 * F.p) false

/-- Division: the mantissas' leading bits give the quotient's exponent; the remainder against half the
divisor gives the rounding direction (R140). -/
def div (F : Fmt) (s : Bool) (e1 : Int) (m1 : Nat) (e2 : Int) (m2 : Nat) : Reg :=
  let l1 := Nat.log2 m1
  let l2 := Nat.log2 m2
  let lead : Int := (e1 + l1) - (e2 + l2) - (if m1 * 2 ^ l2 < m2 * 2 ^ l1 then 1 else 0)
  let e := max lead F.emin
  let a := e1 - e2 - e + F.p
  let N := m1 * 2 ^ a.toNat
  let D := m2 * 2 ^ (-a).toNat
  let n := N / D
  let rem := N % D
  settle F s e (if 2 * rem > D ∨ (2 * rem = D ∧ n % 2 = 1) then n + 1 else n)

/-- Fused multiply-add: the exact product and the third operand at full precision, rounded once (R142). -/
def fma (F : Fmt) (sp : Bool) (e1 : Int) (m1 : Nat) (e2 : Int) (m2 : Nat)
    (s3 : Bool) (e3 : Int) (m3 : Nat) : Reg :=
  let qp := e1 + e2 - 2 * F.p
  let qc := e3 - F.p
  let q := min qp qc
  addAligned F sp (m1 * m2 * 2 ^ (qp - q).toNat) s3 (m3 * 2 ^ (qc - q).toNat) q

/-- Square root: an even exponent, the integer root of the mantissa shifted to a fixed position, and a
sticky bit that is set exactly when the root's remainder is not 0 (R144).  R144 gives no position: the model
shifts by 2(p+2) bits and one more for an odd exponent, and leaves a subnormal's mantissa as it is; no result
depends on it (log 34). -/
def sqrt (F : Fmt) (e : Int) (m : Nat) : Reg :=
  let t := e - F.p
  let j := 2 * (F.p + 2) + (t % 2).toNat
  let N := m * 2 ^ j
  let M := isqrt N
  round F false M ((t - j) / 2) (M * M != N)

/-- What is added to the mantissa before the bits below the binary point are masked off, for a value of
sign s with f fraction bits (R207). -/
inductive Mode where
  | trunc | floor | ceil | round | rint
  deriving DecidableEq, Repr

def bias (mode : Mode) (s : Bool) (m f : Nat) : Nat :=
  match mode with
  | .trunc => 0
  | .floor => if s then 2 ^ f - 1 else 0
  | .ceil => if s then 0 else 2 ^ f - 1
  | .round => 2 ^ (f - 1)
  | .rint => 2 ^ (f - 1) - 1 + m / 2 ^ f % 2

/-- The rounding family on a finite nonzero value (R207): bias, mask, and the sign bit never changed. -/
def roundInt (mode : Mode) (F : Fmt) (s : Bool) (e : Int) (m : Nat) : Reg :=
  let f := (F.p - e).toNat
  if f = 0 then packFinite F s e m
  else
    let M := (m + bias mode s m f) / 2 ^ f * 2 ^ f
    if M = 0 then zeroF F s else round F s M (e - F.p) false

/-- The rounding command of a mode, on every class (R200, R207). -/
def roundIntF (mode : Mode) (F : Fmt) (a : Reg) : Reg :=
  match unpack F a with
  | .nan s => nanF F s
  | .inf _ => a
  | .zero _ => a
  | .finite s e m => roundInt mode F s e m

/-- The cast of a finite value to format D: the mantissa shifted into D's position, rounded as in
arithmetic (R211). -/
def cast (S D : Fmt) (s : Bool) (e : Int) (m : Nat) : Reg := round D s m (e - S.p) false

/-- `castToInt` on a finite value: the mantissa shifted according to the exponent, saturating (R214). -/
def toInt (F : Fmt) (T : IntTy) (s : Bool) (e : Int) (m : Nat) : Int :=
  let mag := if e ≤ F.p then m / 2 ^ (F.p - e).toNat else m * 2 ^ (e - F.p).toNat
  saturate T (if s then -(mag : Int) else mag)

/-- `castFromInt` of a nonzero integer: normalised by its leading one and rounded (R214). -/
def ofInt (F : Fmt) (x : Int) : Reg := round F (decide (x < 0)) x.natAbs 0 false

end Sys2Proof.Datapath
end

