-- ==== Sys2Proof/Machine/Reduction.lean ====
section
/-! DEFINITION. The trigonometric range reduction and the quadrant rules as the spec reads them (R246, R278;
90_conflicts C7).  Mathematics only: the commands' results do not depend on it. -/

namespace Sys2Proof

/-- (q, r) is a reduction of x: x = (q/2 + r)·π + 2πk for an integer k, with r in [-1/4, 1/4] (R246). -/
def Reduces (x : ℝ) (q : Fin 4) (r : ℝ) : Prop :=
  |r| ≤ 1 / 4 ∧ ∃ k : ℤ, x = ((q.val : ℝ) / 2 + r) * Real.pi + 2 * Real.pi * k

/-- sin x from sin(rπ) and cos(rπ), by quadrant code (R278). -/
def quadrantSin {K : Type} [Neg K] : Fin 4 → K → K → K
  | 0, sr, _ => sr
  | 1, _, cr => cr
  | 2, sr, _ => -sr
  | 3, _, cr => -cr

/-- cos x from sin(rπ) and cos(rπ), by quadrant code (R278). -/
def quadrantCos {K : Type} [Neg K] : Fin 4 → K → K → K
  | 0, _, cr => cr
  | 1, sr, _ => -sr
  | 2, _, cr => -cr
  | 3, sr, _ => sr

end Sys2Proof
end

