-- ==== Sys2Proof/Machine/Rules.lean ====
section
/-! DEFINITION. The rules of the correctly rounded commands as the spec writes them, over real numbers (R129,
R134 to R143, R183, R200 to R213): what the statements say a command writes.  No step runs this file; the
meanings compute with exact rationals. -/

namespace Sys2Proof

/-- `class(b)` (R14, R122). -/
inductive Cls where
  | zero | finite | inf | nan
  deriving DecidableEq, Repr

def cls (F : Fmt) (b : Reg) : Cls :=
  match unpack F b with
  | .zero _ => .zero
  | .finite _ _ _ => .finite
  | .inf _ => .inf
  | .nan _ => .nan

/-- `sgn(b)` (R13, R122). -/
def sgn (F : Fmt) (b : Reg) : Bool := (unpack F b).sign

/-- `RNE_F(s, x)` for a real x > 0 (R129). -/
noncomputable def rneR (F : Fmt) (s : Bool) (x : ℝ) : Reg :=
  let e := max (Int.log 2 x) F.emin
  let m := x / (2 : ℝ) ^ (e - F.p)
  let n := ⌊m⌋.toNat
  let r := m - n
  let n' := if r > 1 / 2 ∨ (r = 1 / 2 ∧ n % 2 = 1) then n + 1 else n
  let n'' := if n' = 2 ^ (F.p + 1) then 2 ^ F.p else n'
  let e'' := if n' = 2 ^ (F.p + 1) then e + 1 else e
  if e'' > F.emax then infF F s
  else if n'' = 0 then zeroF F s
  else packFinite F s e'' n''

/-- `RNE_F(S < 0, |S|)`. -/
noncomputable def rneSignedR (F : Fmt) (S : ℝ) : Reg := rneR F (decide (S < 0)) |S|

/-- `addsub_F(a, b)` (R134). -/
noncomputable def addRule (F : Fmt) (a b : Reg) : Reg :=
  if cls F a = .nan then nanF F (sgn F a)
  else if cls F b = .nan then nanF F (sgn F b)
  else if cls F a = .inf ∧ cls F b = .inf then
    if sgn F a = sgn F b then infF F (sgn F a) else nanF F false
  else if cls F a = .inf then infF F (sgn F a)
  else if cls F b = .inf then infF F (sgn F b)
  else if cls F a = .zero ∧ cls F b = .zero then zeroF F (sgn F a && sgn F b)
  else if cls F a = .zero then b
  else if cls F b = .zero then a
  else if valR F a + valR F b = 0 then zeroF F false
  else rneSignedR F (valR F a + valR F b)

/-- The pattern `{~b[W-1], b[W-2:0]}` (R135, R180), as a number. -/
def negated (F : Fmt) (b : Reg) : Reg :=
  BitVec.ofNat 256
    ((if signBit F b then 0 else 2 ^ (F.width - 1)) + b.toNat % 2 ^ (F.width - 1))

/-- FMUL (R137). -/
noncomputable def mulRule (F : Fmt) (a b : Reg) : Reg :=
  if cls F a = .nan then nanF F (sgn F a)
  else if cls F b = .nan then nanF F (sgn F b)
  else if (cls F a = .zero ∧ cls F b = .inf) ∨ (cls F a = .inf ∧ cls F b = .zero) then nanF F false
  else if cls F a = .inf ∨ cls F b = .inf then infF F (sgn F a ^^ sgn F b)
  else if cls F a = .zero ∨ cls F b = .zero then zeroF F (sgn F a ^^ sgn F b)
  else rneR F (sgn F a ^^ sgn F b) (|valR F a| * |valR F b|)

/-- FDIV (R139). -/
noncomputable def divRule (F : Fmt) (a b : Reg) : Reg :=
  if cls F a = .nan then nanF F (sgn F a)
  else if cls F b = .nan then nanF F (sgn F b)
  else if cls F a = .zero ∧ cls F b = .zero then nanF F false
  else if cls F a = .inf ∧ cls F b = .inf then nanF F false
  else if cls F a = .inf then infF F (sgn F a ^^ sgn F b)
  else if cls F b = .zero then infF F (sgn F a ^^ sgn F b)
  else if cls F a = .zero ∨ cls F b = .inf then zeroF F (sgn F a ^^ sgn F b)
  else rneR F (sgn F a ^^ sgn F b) (|valR F a| / |valR F b|)

/-- FMA (R141). -/
noncomputable def fmaRule (F : Fmt) (a b c : Reg) : Reg :=
  let sp := sgn F a ^^ sgn F b
  if cls F a = .nan then nanF F (sgn F a)
  else if cls F b = .nan then nanF F (sgn F b)
  else if cls F c = .nan then nanF F (sgn F c)
  else if (cls F a = .zero ∧ cls F b = .inf) ∨ (cls F a = .inf ∧ cls F b = .zero) then nanF F false
  else if cls F a = .inf ∨ cls F b = .inf then
    if cls F c = .inf ∧ sgn F c ≠ sp then nanF F false else infF F sp
  else if cls F c = .inf then infF F (sgn F c)
  else if cls F a = .zero ∨ cls F b = .zero then
    if cls F c = .zero then zeroF F (sp && sgn F c) else c
  else
    let S := valR F a * valR F b + (if cls F c = .zero then 0 else valR F c)
    if S = 0 then zeroF F false else rneSignedR F S

/-- FSQRT (R143). -/
noncomputable def sqrtRule (F : Fmt) (a : Reg) : Reg :=
  if cls F a = .nan then nanF F (sgn F a)
  else if cls F a = .zero then zeroF F (sgn F a)
  else if sgn F a = true then nanF F false
  else if cls F a = .inf then infF F false
  else rneR F false (Real.sqrt (valR F a))

/-- `val_F(b)` as an extended real (R123). -/
noncomputable def valE (F : Fmt) (b : Reg) : EReal :=
  if cls F b = .inf then (if sgn F b then ⊥ else ⊤) else ((valR F b : ℝ) : EReal)

/-- Neither operand is a NaN (R183). -/
def Ordered (F : Fmt) (a b : Reg) : Prop := cls F a ≠ .nan ∧ cls F b ≠ .nan

/-- Toward zero: `sign(x) * floor(|x|)` (R201). -/
noncomputable def truncR (x : ℝ) : ℤ := if x < 0 then -⌊|x|⌋ else ⌊|x|⌋
/-- Nearest, ties away from zero: `sign(x) * floor(|x| + 1/2)` (R204). -/
noncomputable def roundAwayR (x : ℝ) : ℤ := if x < 0 then -⌊|x| + 1 / 2⌋ else ⌊|x| + 1 / 2⌋
/-- n is the integer nearest x, the even one of two equally near (R205, R351). -/
def NearestEven (x : ℝ) (n : ℤ) : Prop :=
  |x - n| ≤ 1 / 2 ∧ (|x - n| = 1 / 2 → n % 2 = 0)

/-- `roundint_F(a, ri)` with y = ri(val(a)) given (R200). -/
noncomputable def roundRule (F : Fmt) (a : Reg) (y : ℤ) : Reg :=
  if cls F a = .nan then nanF F (sgn F a)
  else if cls F a = .inf then a
  else if cls F a = .zero then a
  else if y = 0 then zeroF F (sgn F a)
  else rneSignedR F y

/-- FCVT.F.F from S to D (R210). -/
noncomputable def castRule (S D : Fmt) (a : Reg) : Reg :=
  if cls S a = .nan then nanF D (sgn S a)
  else if cls S a = .inf then infF D (sgn S a)
  else if cls S a = .zero then zeroF D (sgn S a)
  else rneR D (sgn S a) |valR S a|

/-- The integer FCVT.I.F writes for an operand that is no NaN (R212). -/
noncomputable def toIntRule (F : Fmt) (T : IntTy) (a : Reg) : ℤ :=
  if cls F a = .inf then (if sgn F a = false then T.hi else T.lo)
  else if cls F a = .zero then 0
  else min (max (if sgn F a = false then ⌊|valR F a|⌋ else -⌊|valR F a|⌋) T.lo) T.hi

/-- FCVT.F.I (R213). -/
noncomputable def ofIntRule (F : Fmt) (x : ℤ) : Reg :=
  if x = 0 then zeroF F false else rneSignedR F x

/-! ### Tables and encodings -/

/-- The encoding of a command as its rule gives it: OP, and the fields its shape leaves out are 0 (R96). -/
def HasEncoding (i : Instr) (op : BitVec 8) (m : Shape) : Prop := encode i &&& m.mask = op.setWidth 32

/-- A special-value table, checked row by row: the first row whose condition holds gives what is written,
and the general case stands where none holds (R250, R270). -/
def FirstRow {α : Type} (write : α → Prop) (general : Prop) : List (Prop × α) → Prop
  | [] => general
  | (c, v) :: rows => (c → write v) ∧ (¬ c → FirstRow write general rows)

/-- b is finite and its value is an integer. -/
def IsInteger (F : Fmt) (b : Reg) : Prop := cls F b = .finite ∧ ∃ n : ℤ, valR F b = n

/-- b is finite and its value is an odd integer, by R305's definition (log 31). -/
def IsOddInteger (F : Fmt) (b : Reg) : Prop := cls F b = .finite ∧ ∃ n : ℤ, Odd n ∧ valR F b = n

/-- What a command leaves in rd (R97): a float of a format, a Boolean, or an integer of a type. -/
inductive Result where
  | float (F : Fmt)
  | bool
  | int (T : IntTy)
  deriving DecidableEq, Repr

/-- The opcode map's result column (R97). -/
def Instr.result : Instr → Result
  | .fadd F _ _ _ => .float F
  | .fsub F _ _ _ => .float F
  | .fmul F _ _ _ => .float F
  | .fdiv F _ _ _ => .float F
  | .fma F _ _ _ _ => .float F
  | .fsqrt F _ _ => .float F
  | .fneg F _ _ => .float F
  | .fabs F _ _ => .float F
  | .fcopysign F _ _ _ => .float F
  | .feq _ _ _ _ => .bool
  | .flt _ _ _ _ => .bool
  | .fle _ _ _ _ => .bool
  | .fne _ _ _ _ => .bool
  | .ftrunc F _ _ => .float F
  | .ffloor F _ _ => .float F
  | .fceil F _ _ => .float F
  | .fround F _ _ => .float F
  | .frint F _ _ => .float F
  | .fisint _ _ _ => .bool
  | .fcvtFF _ D _ _ => .float D
  | .fcvtIF _ T _ _ => .int T
  | .fcvtFI F _ _ _ => .float F
  | .fsin F _ _ => .float F
  | .fcos F _ _ => .float F
  | .ftan F _ _ => .float F
  | .fasin F _ _ => .float F
  | .facos F _ _ => .float F
  | .fatan F _ _ => .float F
  | .fatan2 F _ _ _ => .float F
  | .fexp F _ _ => .float F
  | .fexpm1 F _ _ => .float F
  | .flog F _ _ => .float F
  | .flog1p F _ _ => .float F
  | .fpow F _ _ _ => .float F
  | .fcbrt F _ _ => .float F
  | .fsinh F _ _ => .float F
  | .fcosh F _ _ => .float F
  | .ftanh F _ _ => .float F
  | .fasinh F _ _ => .float F
  | .facosh F _ _ => .float F
  | .fatanh F _ _ => .float F
  | .ferf F _ _ => .float F
  | .ferfc F _ _ => .float F
  | .ftgamma F _ _ => .float F
  | .flgamma F _ _ => .float F
  | .ffmod F _ _ _ => .float F
  | .fremainder F _ _ _ => .float F
  | .fremquo F _ _ _ => .float F

/-- How many low bits of rd a result occupies; the bits above are 0 (R32). -/
def Result.width : Result → Nat
  | .float F => F.width
  | .bool => 1
  | .int T => T.bits

/-- The format pairs S, D for which every finite value of S is a finite value of D (R211). -/
def containedIn : Fmt → List Fmt
  | .half => [.half, .single, .double, .quadruple, .octuple]
  | .bfloat16 => [.bfloat16, .single, .double, .quadruple, .octuple]
  | .single => [.single, .double, .quadruple, .octuple]
  | .double => [.double, .quadruple, .octuple]
  | .quadruple => [.quadruple, .octuple]
  | .octuple => [.octuple]

end Sys2Proof
end

