-- ==== Sys2Proof/Safety.lean ====
section
/-! DEFINITION. What counts as a safe step: it reads no register word that nothing has written since reset
(R33), and it stops on nothing. -/

namespace Sys2Proof.Safety

open Sys2Proof Sys2Proof.Machine

/-- A float operand of format F in register i: words 0 to ceil(W/64) - 1 (R413). -/
def floatWords (F : Fmt) (i : RegIdx) : List (RegIdx × Fin 4) :=
  ((List.finRange 4).filter (·.val < F.words)).map fun j => (i, j)

/-- An operand of a command: a float of a format, or an integer of a type, in a register (R32). -/
inductive Operand where
  | float (F : Fmt) (i : RegIdx)
  | int (T : IntTy) (i : RegIdx)
  deriving DecidableEq, Repr

/-- The operand's bits in s: the low W bits of a float, the integer in the low N bits (R32, R213). -/
def Operand.value (s : State) : Operand → Reg ⊕ Int
  | .float F i => .inl (s.operand F i)
  | .int T i => .inr (s.intOperand T i)

/-- The register words an operand lies in: every integer type lies in word 0 (R32, R413). -/
def Operand.words : Operand → List (RegIdx × Fin 4)
  | .float F i => floatWords F i
  | .int _ i => [(i, 0)]

/-- A command's operands, in the order rs1, rs2, rs3 (R32). -/
def operands : Instr → List Operand
  | .fadd F _ rs1 rs2 => [.float F rs1, .float F rs2]
  | .fsub F _ rs1 rs2 => [.float F rs1, .float F rs2]
  | .fmul F _ rs1 rs2 => [.float F rs1, .float F rs2]
  | .fdiv F _ rs1 rs2 => [.float F rs1, .float F rs2]
  | .fma F _ rs1 rs2 rs3 => [.float F rs1, .float F rs2, .float F rs3]
  | .fsqrt F _ rs1 => [.float F rs1]
  | .fneg F _ rs1 => [.float F rs1]
  | .fabs F _ rs1 => [.float F rs1]
  | .fcopysign F _ rs1 rs2 => [.float F rs1, .float F rs2]
  | .feq F _ rs1 rs2 => [.float F rs1, .float F rs2]
  | .flt F _ rs1 rs2 => [.float F rs1, .float F rs2]
  | .fle F _ rs1 rs2 => [.float F rs1, .float F rs2]
  | .fne F _ rs1 rs2 => [.float F rs1, .float F rs2]
  | .ftrunc F _ rs1 => [.float F rs1]
  | .ffloor F _ rs1 => [.float F rs1]
  | .fceil F _ rs1 => [.float F rs1]
  | .fround F _ rs1 => [.float F rs1]
  | .frint F _ rs1 => [.float F rs1]
  | .fisint F _ rs1 => [.float F rs1]
  | .fcvtFF S _ _ rs1 => [.float S rs1]
  | .fcvtIF F _ _ rs1 => [.float F rs1]
  | .fcvtFI _ T _ rs1 => [.int T rs1]
  | .fsin F _ rs1 => [.float F rs1]
  | .fcos F _ rs1 => [.float F rs1]
  | .ftan F _ rs1 => [.float F rs1]
  | .fasin F _ rs1 => [.float F rs1]
  | .facos F _ rs1 => [.float F rs1]
  | .fatan F _ rs1 => [.float F rs1]
  | .fatan2 F _ rs1 rs2 => [.float F rs1, .float F rs2]
  | .fexp F _ rs1 => [.float F rs1]
  | .fexpm1 F _ rs1 => [.float F rs1]
  | .flog F _ rs1 => [.float F rs1]
  | .flog1p F _ rs1 => [.float F rs1]
  | .fpow F _ rs1 rs2 => [.float F rs1, .float F rs2]
  | .fcbrt F _ rs1 => [.float F rs1]
  | .fsinh F _ rs1 => [.float F rs1]
  | .fcosh F _ rs1 => [.float F rs1]
  | .ftanh F _ rs1 => [.float F rs1]
  | .fasinh F _ rs1 => [.float F rs1]
  | .facosh F _ rs1 => [.float F rs1]
  | .fatanh F _ rs1 => [.float F rs1]
  | .ferf F _ rs1 => [.float F rs1]
  | .ferfc F _ rs1 => [.float F rs1]
  | .ftgamma F _ rs1 => [.float F rs1]
  | .flgamma F _ rs1 => [.float F rs1]
  | .ffmod F _ rs1 rs2 => [.float F rs1, .float F rs2]
  | .fremainder F _ rs1 rs2 => [.float F rs1, .float F rs2]
  | .fremquo F _ rs1 rs2 => [.float F rs1, .float F rs2]

/-- The register words a command reads, in the order of its operands. -/
def reads (i : Instr) : List (RegIdx × Fin 4) := (operands i).flatMap Operand.words

/-- In s and t the command has the same operands; the bits above them may differ (R32, R242). -/
def SameOperands (i : Instr) (s t : State) : Prop := ∀ o ∈ operands i, o.value s = o.value t

/-- The first word, of those a list names, that nothing has written since reset. -/
def firstUnwritten (s : State) (ws : List (RegIdx × Fin 4)) : Option (RegIdx × Fin 4) :=
  ws.find? fun w => !(s.isWritten w.1 w.2)

/-- The register words a host event reads: those of the command a CMD write issues, or the word a read
of the window returns. -/
def eventReads : HostEvent → List (RegIdx × Fin 4)
  | .access a =>
    if a.width ≠ 8 then []
    else
      match targetAt a.offset, a.dir with
      | some (.regWord i j), .read => [(i, j)]
      | some .cmd, .write v =>
        match decode (cmdWord v) with
        | .ok i => reads i
        | .error _ => []
      | _, _ => []
  | .reset => []
  | .accessInReset _ => []

/-- The register word, unwritten since reset, that the next step would read: where R33 has a model raise
UnwrittenRegister, naming the register and the word.  This model reads the word's value (log 1), so a
claim that must not rest on that value assumes this is `none`. -/
def unwrittenRead (s : State) : Option (RegIdx × Fin 4) :=
  match s.pending with
  | [] => none
  | e :: _ => firstUnwritten s (eventReads e)

/-- The next step stops on nothing. -/
def goesOn (s : State) : Prop := ∃ t, step s = .next t

/-- A safe step. -/
def SafeStep (s : State) : Prop := unwrittenRead s = none ∧ goesOn s

/-- Two states that a host cannot tell apart without reading an unwritten word: they agree on everything
but the contents of words that nothing has written since reset (R33). -/
structure AgreeOnWritten (s t : State) : Prop where
  written : s.written = t.written
  words : ∀ i j, s.isWritten i j = true → s.regWord i j = t.regWord i j
  cmd : s.cmd = t.cmd
  status : s.status = t.status
  aux : s.aux = t.aux
  coefRom : s.coefRom = t.coefRom
  invPiRom : s.invPiRom = t.invPiRom
  pending : s.pending = t.pending
  reply : s.reply = t.reply
  resets : s.resets = t.resets

/-- The ROMs hold their fixed contents (R75, R412). -/
structure RomIntact (s : State) : Prop where
  coef : s.coefRom = Config.coefRom
  invPi : s.invPiRom = Config.invPiRom

/-- What STATUS, CMD and the ROMs satisfy in every state that reset and steps can leave. -/
structure Inv (s : State) : Prop where
  /-- Bits 3:2 and 63:8 of STATUS are 0 (R38). -/
  reserved : s.status = statusWord (ill s.status) (lastIll s.status) (causeField s.status)
  /-- CAUSE is 0 or one of the four causes; 5..15 are never written (R381). -/
  cause : (causeField s.status).toNat ≤ 4
  /-- ILL stands only with the cause of an illegal command (R38, R382). -/
  illCause : ill s.status = true → causeField s.status ≠ 0
  /-- LAST_ILL says that the word in CMD is illegal, and CAUSE is its cause (R37, R38, R382). -/
  lastCause : lastIll s.status = true →
    ∃ c, decode (cmdWord s.cmd) = .error c ∧ causeField s.status = c.code
  /-- CMD holds a 32-bit word, zero-extended (R37). -/
  cmd : s.cmd = (cmdWord s.cmd).setWidth 64
  rom : RomIntact s

/-! ### What a command writes -/

/-- Run in s, the command goes on, and all it does is to leave v in rd (zero-extended as v is) with its
words marked, and to clear STATUS.LAST_ILL (R14, R32, R38). -/
def Writes (i : Instr) (rd : RegIdx) (s : State) (v : Reg) : Prop := exec i s = .next (s.retire rd v)

/-- As `Writes`, with `a` in AUX as well (R39). -/
def WritesAux (i : Instr) (rd : RegIdx) (s : State) (v : Reg) (a : Word) : Prop :=
  exec i s = .next (s.retireAux rd v a)

/-- The command writes some result that is admissible for the exact value y (R241). -/
def WritesNear (i : Instr) (rd : RegIdx) (s : State) (F : Fmt) (y : ℝ) : Prop :=
  ∃ r, Adm F y r ∧ Writes i rd s r

end Sys2Proof.Safety
end

