-- ==== Sys2Proof/Certificates/Slice0/Obligations.lean ====
section
/-! DEFINITION. The statements for the provers.  `Writes i rd s v` says that `exec i s` answers the next state
in which v stands in rd, rd's words are marked, LAST_ILL is 0, and nothing else has changed. -/

open Sys2Proof Sys2Proof.Machine Sys2Proof.Safety

/-! ### Encoding and decoding -/

/-- Words written out field by field (R91, R96, R97; the word of R105) decode to the commands they stand for. -/
def Obligations.WrittenWordsDecode : Prop :=
  decode 0x32140305 = .ok (.fma .double 4 1 2 3) ∧
  decode 0x02130301 = .ok (.fadd .double 3 1 2) ∧
  decode 0x00F00506 = .ok (.fsqrt .octuple 0 15) ∧
  decode 0x0218020A = .ok (.fcopysign .single 8 1 2) ∧
  decode 0x0954010F = .ok (.fne .bfloat16 4 5 9) ∧
  decode 0x00210014 = .ok (.frint .half 1 2) ∧
  decode 0x00213218 = .ok (.fcvtFF .single .double 1 2) ∧
  decode 0x00214319 = .ok (.fcvtIF .double .i32 1 2) ∧
  decode 0x0021431A = .ok (.fcvtFI .double .i32 1 2) ∧
  decode 0x00700420 = .ok (.fsin .quadruple 0 7) ∧
  decode 0x0CBA032C = .ok (.fpow .double 10 11 12) ∧
  decode 0x0213023E = .ok (.fremquo .single 3 1 2)

/-- Decoding the encoding of a command gives the command back (R91, R96, R97, R104): no field is dropped. -/
def Obligations.DecodeOfEncode : Prop := ∀ i : Instr, decode (encode i) = .ok i

/-- A word that decodes is the encoding of the command it decodes to, and its fields are well formed (R96,
R97, R102): no two words stand for one command, and every word is a command or illegal. -/
def Obligations.DecodedWordIsItsEncoding : Prop :=
  ∀ (w : CmdWord) (i : Instr), decode w = .ok i → encode i = w ∧ (fieldsOf w).wellFormed = true

/-- The decoder's checks run in the order of R104, and the first that fails names the cause (R383); with the
rule's three examples. -/
def Obligations.FirstFailedCheckDecides : Prop :=
  (∀ w : CmdWord,
    let f := fieldsOf w
    (f.opListed = false → decode w = .error .badOp) ∧
    (f.opListed = true → f.fmtLegal = false → decode w = .error .badFmt) ∧
    (f.opListed = true → f.fmtLegal = true → f.fmt2Legal = false → decode w = .error .badFmt2) ∧
    (f.opListed = true → f.fmtLegal = true → f.fmt2Legal = true → f.unusedZero = false →
      decode w = .error .badField) ∧
    (f.wellFormed = true → ∃ i, decode w = .ok i)) ∧
  decode 0x00000FFF = .error .badOp ∧ decode 0x00000F01 = .error .badFmt ∧
  decode 0xF0000F01 = .error .badFmt

/-! ### Host accesses and steps -/

/-- A step whose oldest event writes a legal command word to CMD runs the command it decodes to, on the state
that has recorded the word and acknowledged the access (R37, R415). -/
def Obligations.StepRunsDecodedCommand : Prop :=
  ∀ (s : State) (v : Word) (rest : List HostEvent) (i : Instr),
    s.pending = .access { offset := 0x210, width := 8, dir := .write v } :: rest →
    decode (v.setWidth 32) = .ok i →
    step s = exec i { s with pending := rest, reply := .ack, cmd := (v.setWidth 32).setWidth 64 }

/-- An illegal command records the word, sets ILL, LAST_ILL and CAUSE, and changes nothing else (R382): every
other bit of STATUS, every register, every mark, AUX and the ROMs stay, and the machine goes on. -/
def Obligations.IllegalCommandEffect : Prop :=
  ∀ (s : State) (v : Word) (rest : List HostEvent) (c : Cause),
    s.pending = .access { offset := 0x210, width := 8, dir := .write v } :: rest →
    decode (v.setWidth 32) = .error c →
    ∃ st : Word,
      step s = .next { s with pending := rest, reply := .ack, cmd := (v.setWidth 32).setWidth 64, status := st } ∧
      st.getLsbD 0 = true ∧ st.getLsbD 1 = true ∧ st.extractLsb' 4 4 = c.code ∧
      (∀ k, k ≠ 0 → k ≠ 1 → ¬(4 ≤ k ∧ k < 8) → st.getLsbD k = s.status.getLsbD k)

/-- A host read returns the current value of the word and changes nothing (R66): the registers' words at
0x20·i + 8·j, then ID, FEATURES, CMD, STATUS and AUX. -/
def Obligations.HostReadsReturnCurrentValues : Prop :=
  ∀ (s : State) (rest : List HostEvent) (off : BitVec 12),
    s.pending = .access { offset := off, width := 8, dir := .read } :: rest →
    let answers := fun v : Word => step s = .next { s with pending := rest, reply := .data v }
    (∀ (i : RegIdx) (j : Fin 4), off.toNat = 0x20 * i.val + 8 * j.val →
      answers ((s.reg i).extractLsb' (64 * j.val) 64)) ∧
    (off = 0x200 → answers 0x00000007544C4643) ∧
    (off = 0x208 → answers 0x000000000000013F) ∧
    (off = 0x210 → answers s.cmd) ∧
    (off = 0x218 → answers s.status) ∧
    (off = 0x220 → answers s.aux)

/-- A host write of a register word changes that word and no other (and marks it), a write to CMD issues the
command, a write to STATUS clears ILL if bit 0 is 1 and does nothing else, and writes to ID, FEATURES and
AUX are accepted and ignored (R67). -/
def Obligations.HostWritesChangeOneWord : Prop :=
  ∀ (s : State) (rest : List HostEvent) (off : BitVec 12) (v : Word),
    s.pending = .access { offset := off, width := 8, dir := .write v } :: rest →
    let served : State := { s with pending := rest, reply := .ack }
    (∀ (i : RegIdx) (j : Fin 4), off.toNat = 0x20 * i.val + 8 * j.val →
      ∃ t, step s = .next t ∧
        (∀ k l, t.regWord k l = if k = i ∧ l = j then v else s.regWord k l) ∧
        (∀ k l, t.isWritten k l = if k = i ∧ l = j then true else s.isWritten k l) ∧
        t = { served with regs := t.regs, written := t.written }) ∧
    (off = 0x210 → ∀ i, decode (v.setWidth 32) = .ok i →
      step s = exec i { served with cmd := (v.setWidth 32).setWidth 64 }) ∧
    (off = 0x218 → ∃ st : Word, step s = .next { served with status := st } ∧
      st.getLsbD 0 = (s.status.getLsbD 0 && !v.getLsbD 0) ∧
      ∀ k, k ≠ 0 → st.getLsbD k = s.status.getLsbD k) ∧
    (off = 0x200 ∨ off = 0x208 ∨ off = 0x220 → step s = .next served)

/-- An access faults exactly when its width is not 8, its offset is no multiple of 8, or its offset is in
0x228..0xFFF, and the fault is the bus error that names the offset and the width (R384). -/
def Obligations.BusErrorConditions : Prop :=
  ∀ (s : State) (rest : List HostEvent) (a : Access), s.pending = .access a :: rest →
    ((a.width ≠ 8 ∨ a.offset.toNat % 8 ≠ 0 ∨ 0x228 ≤ a.offset.toNat) →
      step s = .fault (.busError a.offset a.width)) ∧
    (a.width = 8 → a.offset.toNat % 8 = 0 → a.offset.toNat < 0x228 → ∃ t, step s = .next t)

/-! ### Reset and invariants -/

/-- The platform's reset (R410): CMD, STATUS and AUX become 0, ID and FEATURES are the constants, no register
word is marked; the ROMs stay (R412), and a host access while reset is asserted is refused. -/
def Obligations.PlatformResetEffect : Prop :=
  ∀ (s : State) (rest : List HostEvent),
    (s.pending = .reset :: rest →
      ∃ t, step s = .next t ∧ t.cmd = 0 ∧ t.status = 0 ∧ t.aux = 0 ∧
        (∀ i j, t.isWritten i j = false) ∧
        t.windowWord .id = 0x00000007544C4643 ∧ t.windowWord .features = 0x000000000000013F ∧
        t.coefRom = s.coefRom ∧ t.invPiRom = s.invPiRom ∧ t.pending = rest) ∧
    (∀ a, s.pending = .accessInReset a :: rest →
      step s = .refused (.accessDuringReset a.offset a.width))

/-- The state after reset, for every piece that R48 gives a value: no register word is marked, ID and FEATURES
are the constants, CMD, STATUS and AUX are 0, and the ROMs hold their fixed contents.  (The registers'
contents, which R48 leaves unspecified, are the model's choice: log 1; nothing is said of them here.) -/
def Obligations.StateAfterReset : Prop :=
  (∀ i j, State.reset.isWritten i j = false) ∧
  State.reset.windowWord .id = 0x00000007544C4643 ∧ State.reset.windowWord .features = 0x000000000000013F ∧
  State.reset.cmd = 0 ∧ ill State.reset.status = false ∧ lastIll State.reset.status = false ∧
  causeField State.reset.status = 0 ∧ State.reset.status = 0 ∧ State.reset.aux = 0 ∧
  State.reset.coefRom = Config.coefRom ∧ State.reset.invPiRom = Config.invPiRom

/-- The invariant `Safety.Inv` holds after reset. -/
def Obligations.InvHoldsAfterReset : Prop := Inv State.reset

/-- Every step keeps `Safety.Inv`: STATUS's reserved bits read 0 (R38), CAUSE is 0 or one of the four causes
(R381), ILL stands only with a cause (R382), LAST_ILL says that the word in CMD is illegal with the cause in
CAUSE (R37, R38), CMD holds a zero-extended 32-bit word (R37), and the ROMs hold their contents (R75). -/
def Obligations.StepKeepsInv : Prop := ∀ s t : State, Inv s → step s = .next t → Inv t

/-- No step changes a ROM (R75). -/
def Obligations.RomsAreReadOnly : Prop :=
  ∀ s t : State, step s = .next t → t.coefRom = s.coefRom ∧ t.invPiRom = s.invPiRom

/-- What a word that nothing has written since reset holds cannot be learnt (R33): from two states that differ
only in such words, a step that reads none of them ends alike, and the next states again differ only in
such words. -/
def Obligations.UnwrittenWordsCannotBeLearnt : Prop :=
  ∀ s t : State, AgreeOnWritten s t → unwrittenRead s = none →
    (∃ s' t', step s = .next s' ∧ step t = .next t' ∧ AgreeOnWritten s' t') ∨
    (∃ f, step s = .fault f ∧ step t = .fault f) ∨
    (∃ r, step s = .refused r ∧ step t = .refused r)

/-! ### Frames -/

/-- Every command completes, and what it leaves unchanged: every register but rd, and its marks; STATUS but
for LAST_ILL, which becomes 0; AUX, unless it is FLGAMMA or FREMQUO; CMD, the ROMs, and the model's own
fields (R32, R38, R39, R380, R415).  Every word of rd is marked (R33). -/
def Obligations.CommandFrame : Prop :=
  ∀ (i : Instr) (s : State), ∃ t, exec i s = .next t ∧
    (∀ k, k ≠ regOf i.fields.rd → t.reg k = s.reg k) ∧
    (∀ k j, t.isWritten k j = if k = regOf i.fields.rd then true else s.isWritten k j) ∧
    (∀ n, t.status.getLsbD n = (s.status.getLsbD n && !decide (n = 1))) ∧
    (i.fields.op ≠ 0x3B → i.fields.op ≠ 0x3E → t.aux = s.aux) ∧
    t.cmd = s.cmd ∧ t.coefRom = s.coefRom ∧ t.invPiRom = s.invPiRom ∧
    t.pending = s.pending ∧ t.reply = s.reply ∧ t.resets = s.resets

/-- The frame of a command in bytes of the host window: every byte outside rd's 32 bytes at 0x20·rd, STATUS's
first byte at 0x218, and AUX's 8 bytes at 0x220 where the command is FLGAMMA or FREMQUO, reads as before
(R32, R39, R61, R63).  TLFCORE has no other memory (R60, R72). -/
def Obligations.CommandWindowFrame : Prop :=
  ∀ (i : Instr) (s t : State) (off : BitVec 12), exec i s = .next t →
    ¬(0x20 * (regOf i.fields.rd).val ≤ off.toNat ∧ off.toNat < 0x20 * (regOf i.fields.rd).val + 0x20) →
    off.toNat ≠ 0x218 →
    ((i.fields.op = 0x3B ∨ i.fields.op = 0x3E) → ¬(0x220 ≤ off.toNat ∧ off.toNat < 0x228)) →
    t.windowByte off = s.windowByte off

/-- The result is zero-extended (R32): rd holds a W-bit float, an N-bit integer, or a Boolean that is 0 or 1,
and the bits above are 0. -/
def Obligations.ResultsAreZeroExtended : Prop :=
  ∀ (i : Instr) (s t : State), exec i s = .next t →
    (t.reg (regOf i.fields.rd)).toNat < 2 ^ i.result.width

/-- A command's result is a fixed function of its operand bits (R32, R242, R419): in any two states whose ROMs are
the same and which agree on the operands (the low W or N bits; the bits above, and every other register,
may differ), it writes the same rd, and the same AUX if it writes AUX. -/
def Obligations.ResultDependsOnOperandsOnly : Prop :=
  ∀ (i : Instr) (s t : State),
    SameOperands i s t → s.coefRom = t.coefRom → s.invPiRom = t.invPiRom →
    ∃ (v : Reg) (a : Word), (∃ b, WritesAux i (regOf i.fields.rd) s v b ∧
        (i.fields.op = 0x3B ∨ i.fields.op = 0x3E → b = a)) ∧
      (∃ b, WritesAux i (regOf i.fields.rd) t v b ∧ (i.fields.op = 0x3B ∨ i.fields.op = 0x3E → b = a))

/-! ### Correctly rounded arithmetic -/

/-- FADD (R134). -/
def Obligations.FaddResult : Prop :=
  ∀ (F : Fmt) (rd rs1 rs2 : RegIdx) (s : State),
    HasEncoding (.fadd F rd rs1 rs2) 0x01 .binary ∧
    Writes (.fadd F rd rs1 rs2) rd s (addRule F (s.operand F rs1) (s.operand F rs2))

/-- FSUB: addition with the sign bit of the second operand inverted first, a NaN's too (R135). -/
def Obligations.FsubResult : Prop :=
  ∀ (F : Fmt) (rd rs1 rs2 : RegIdx) (s : State),
    HasEncoding (.fsub F rd rs1 rs2) 0x02 .binary ∧
    Writes (.fsub F rd rs1 rs2) rd s (addRule F (s.operand F rs1) (negated F (s.operand F rs2)))

/-- FMUL (R137). -/
def Obligations.FmulResult : Prop :=
  ∀ (F : Fmt) (rd rs1 rs2 : RegIdx) (s : State),
    HasEncoding (.fmul F rd rs1 rs2) 0x03 .binary ∧
    Writes (.fmul F rd rs1 rs2) rd s (mulRule F (s.operand F rs1) (s.operand F rs2))

/-- FDIV (R139). -/
def Obligations.FdivResult : Prop :=
  ∀ (F : Fmt) (rd rs1 rs2 : RegIdx) (s : State),
    HasEncoding (.fdiv F rd rs1 rs2) 0x04 .binary ∧
    Writes (.fdiv F rd rs1 rs2) rd s (divRule F (s.operand F rs1) (s.operand F rs2))

/-- FMA (R141). -/
def Obligations.FmaResult : Prop :=
  ∀ (F : Fmt) (rd rs1 rs2 rs3 : RegIdx) (s : State),
    HasEncoding (.fma F rd rs1 rs2 rs3) 0x05 .ternary ∧
    Writes (.fma F rd rs1 rs2 rs3) rd s
      (fmaRule F (s.operand F rs1) (s.operand F rs2) (s.operand F rs3))

/-- FSQRT (R143). -/
def Obligations.FsqrtResult : Prop :=
  ∀ (F : Fmt) (rd rs1 : RegIdx) (s : State),
    HasEncoding (.fsqrt F rd rs1) 0x06 .unary ∧
    Writes (.fsqrt F rd rs1) rd s (sqrtRule F (s.operand F rs1))

/-! ### Sign manipulation and comparison -/

/-- FNEG, FABS and FCOPYSIGN on bits, for every class (R180, R181, R182): bits W-2..0 are the first operand's,
bit W-1 is inverted, 0, or the second operand's, and the bits above are 0. -/
def Obligations.SignCommandsWorkOnBits : Prop :=
  ∀ (F : Fmt) (rd rs1 rs2 : RegIdx) (s : State),
    let W := F.width
    let a := s.reg rs1
    let b := s.reg rs2
    HasEncoding (.fneg F rd rs1) 0x08 .unary ∧
    (∃ r, Writes (.fneg F rd rs1) rd s r ∧
      ∀ k, r.getLsbD k = if k < W - 1 then a.getLsbD k else (decide (k = W - 1) && !a.getLsbD k)) ∧
    HasEncoding (.fabs F rd rs1) 0x09 .unary ∧
    (∃ r, Writes (.fabs F rd rs1) rd s r ∧
      ∀ k, r.getLsbD k = (decide (k < W - 1) && a.getLsbD k)) ∧
    HasEncoding (.fcopysign F rd rs1 rs2) 0x0A .binary ∧
    (∃ r, Writes (.fcopysign F rd rs1 rs2) rd s r ∧
      ∀ k, r.getLsbD k = if k < W - 1 then a.getLsbD k else (decide (k = W - 1) && b.getLsbD k))

/-- FEQ, FLT, FLE and FNE compare the operands' values as extended reals; with a NaN the pair is unordered,
and only FNE holds (R183 to R187). -/
def Obligations.ComparisonResults : Prop :=
  ∀ (F : Fmt) (rd rs1 rs2 : RegIdx) (s : State),
    let a := s.operand F rs1
    let b := s.operand F rs2
    let eq := Ordered F a b ∧ valE F a = valE F b
    let lt := Ordered F a b ∧ valE F a < valE F b
    let le := Ordered F a b ∧ valE F a ≤ valE F b
    HasEncoding (.feq F rd rs1 rs2) 0x0C .binary ∧
    (eq → Writes (.feq F rd rs1 rs2) rd s 1) ∧ (¬eq → Writes (.feq F rd rs1 rs2) rd s 0) ∧
    HasEncoding (.flt F rd rs1 rs2) 0x0D .binary ∧
    (lt → Writes (.flt F rd rs1 rs2) rd s 1) ∧ (¬lt → Writes (.flt F rd rs1 rs2) rd s 0) ∧
    HasEncoding (.fle F rd rs1 rs2) 0x0E .binary ∧
    (le → Writes (.fle F rd rs1 rs2) rd s 1) ∧ (¬le → Writes (.fle F rd rs1 rs2) rd s 0) ∧
    HasEncoding (.fne F rd rs1 rs2) 0x0F .binary ∧
    (¬eq → Writes (.fne F rd rs1 rs2) rd s 1) ∧ (eq → Writes (.fne F rd rs1 rs2) rd s 0)

/-! ### Rounding to integral values and casts -/

/-- FTRUNC, FFLOOR, FCEIL, FROUND and FRINT: NaNs, infinities and zeros as R200, else the integer their rule
names, a zero keeping the operand's sign (R200 to R205). -/
def Obligations.RoundingFamilyResults : Prop :=
  ∀ (F : Fmt) (rd rs1 : RegIdx) (s : State),
    let a := s.operand F rs1
    let x := valR F a
    HasEncoding (.ftrunc F rd rs1) 0x10 .unary ∧
    Writes (.ftrunc F rd rs1) rd s (roundRule F a (truncR x)) ∧
    HasEncoding (.ffloor F rd rs1) 0x11 .unary ∧
    Writes (.ffloor F rd rs1) rd s (roundRule F a ⌊x⌋) ∧
    HasEncoding (.fceil F rd rs1) 0x12 .unary ∧
    Writes (.fceil F rd rs1) rd s (roundRule F a ⌈x⌉) ∧
    HasEncoding (.fround F rd rs1) 0x13 .unary ∧
    Writes (.fround F rd rs1) rd s (roundRule F a (roundAwayR x)) ∧
    HasEncoding (.frint F rd rs1) 0x14 .unary ∧
    ∃ n, NearestEven x n ∧ Writes (.frint F rd rs1) rd s (roundRule F a n)

/-- FISINT: 1 for a zero and for a finite integral value, 0 for the infinities and NaNs (R206). -/
def Obligations.FisintResult : Prop :=
  ∀ (F : Fmt) (rd rs1 : RegIdx) (s : State),
    let a := s.operand F rs1
    HasEncoding (.fisint F rd rs1) 0x15 .unary ∧
    (cls F a = .zero ∨ IsInteger F a → Writes (.fisint F rd rs1) rd s 1) ∧
    (¬(cls F a = .zero ∨ IsInteger F a) → Writes (.fisint F rd rs1) rd s 0)

/-- FCVT.F.F from S, named by FMT, to D, named by FMT2 (R210). -/
def Obligations.FormatCastResult : Prop :=
  ∀ (S D : Fmt) (rd rs1 : RegIdx) (s : State),
    HasEncoding (.fcvtFF S D rd rs1) 0x18 .convert ∧
    (encode (.fcvtFF S D rd rs1)).extractLsb' 8 4 = S.code ∧
    (encode (.fcvtFF S D rd rs1)).extractLsb' 12 4 = D.code ∧
    Writes (.fcvtFF S D rd rs1) rd s (castRule S D (s.operand S rs1))

/-- FCVT.I.F: toward zero, saturating, as N bits of two's complement, zero-extended; a NaN gives the parameter
NAN_TO_INT(T), some N-bit value (R212). -/
def Obligations.FloatToIntResult : Prop :=
  ∀ (F : Fmt) (T : IntTy) (rd rs1 : RegIdx) (s : State),
    let a := s.operand F rs1
    HasEncoding (.fcvtIF F T rd rs1) 0x19 .convert ∧
    (encode (.fcvtIF F T rd rs1)).extractLsb' 8 4 = F.code ∧
    (encode (.fcvtIF F T rd rs1)).extractLsb' 12 4 = T.code ∧
    (cls F a = .nan → Writes (.fcvtIF F T rd rs1) rd s (Config.nanToInt T) ∧
      (Config.nanToInt T).toNat < 2 ^ T.bits) ∧
    (cls F a ≠ .nan → ∃ r, Writes (.fcvtIF F T rd rs1) rd s r ∧
      (r.toNat : ℤ) = toIntRule F T a % 2 ^ T.bits ∧ T.lo ≤ toIntRule F T a ∧ toIntRule F T a ≤ T.hi)

/-- FCVT.F.I: the low N bits of rs1, two's complement if T is signed, correctly rounded; 0 gives +0 (R213). -/
def Obligations.IntToFloatResult : Prop :=
  ∀ (F : Fmt) (T : IntTy) (rd rs1 : RegIdx) (s : State),
    let bits := (s.reg rs1).extractLsb' 0 T.bits
    HasEncoding (.fcvtFI F T rd rs1) 0x1A .convert ∧
    (encode (.fcvtFI F T rd rs1)).extractLsb' 8 4 = F.code ∧
    (encode (.fcvtFI F T rd rs1)).extractLsb' 12 4 = T.code ∧
    Writes (.fcvtFI F T rd rs1) rd s (ofIntRule F (if T.signed then bits.toInt else (bits.toNat : ℤ)))

/-- Every NaN that a correctly rounded command, a rounding or a format cast writes is quiet, with the fraction
QNAN_FRAC of its format (R126). -/
def Obligations.NanResultsAreQuiet : Prop :=
  ∀ (i : Instr) (F : Fmt) (s t : State),
    i.fields.op ∈ ([0x01, 0x02, 0x03, 0x04, 0x05, 0x06, 0x10, 0x11, 0x12, 0x13, 0x14, 0x18, 0x1A] : List (BitVec 8)) →
    i.result = .float F → exec i s = .next t → cls F (t.reg (regOf i.fields.rd)) = .nan →
    fracField F (t.reg (regOf i.fields.rd)) = Config.qnanFrac F ∧ (Config.qnanFrac F).testBit (F.p - 1) = true

/-- Applying a command of the rounding family to its own result gives the same pattern again (R208). -/
def Obligations.RoundingIsIdempotent : Prop :=
  ∀ (F : Fmt) (rd rd2 rs1 : RegIdx) (s : State),
    ∀ c ∈ [Instr.ftrunc, Instr.ffloor, Instr.fceil, Instr.fround, Instr.frint],
      ∃ t u, exec (c F rd rs1) s = .next t ∧ exec (c F rd2 rd) t = .next u ∧ u.reg rd2 = t.reg rd

/-- Casting to a format that contains the source is exact, and casting back gives the original pattern; a NaN
comes back as NaN_S with its sign (R211). -/
def Obligations.WideningCastRoundTrip : Prop :=
  ∀ (S D : Fmt) (rd rd2 rs1 : RegIdx) (s : State), D ∈ containedIn S →
    let a := s.operand S rs1
    ∃ t u, exec (.fcvtFF S D rd rs1) s = .next t ∧ exec (.fcvtFF D S rd2 rd) t = .next u ∧
      (cls S a = .finite → cls D (t.reg rd) = .finite ∧ valR D (t.reg rd) = valR S a) ∧
      (cls S a ≠ .nan → u.reg rd2 = a) ∧
      (cls S a = .nan → u.reg rd2 = nanF S (sgn S a))

/-- Rounding the exact value of a finite pattern gives the pattern, and no other pattern has that value
(R130). -/
def Obligations.ExactResultsStayExact : Prop :=
  ∀ (F : Fmt) (b c : Reg), b.toNat < 2 ^ F.width → c.toNat < 2 ^ F.width →
    cls F b = .finite → cls F c = .finite →
    rneSigned F (valF F b) = b ∧ (valF F c = valF F b → c = b)

/-! ### Elementary commands -/

/-- FSIN, FCOS and FTAN (R271, R272, R273), with the range rule of R246 and R270. -/
def Obligations.FsinFcosFtanResults : Prop :=
  ∀ (F : Fmt) (rd rs1 : RegIdx) (s : State), RomIntact s →
    let x := s.operand F rs1
    let inRange := |valR F x| < 2 ^ Config.phRange F
    let general := fun (i : Instr) (y : ℝ) =>
      (inRange → WritesNear i rd s F y) ∧ (¬inRange → ∃ r, r.toNat < 2 ^ F.width ∧ Writes i rd s r)
    HasEncoding (.fsin F rd rs1) 0x20 .unary ∧
    FirstRow (Writes (.fsin F rd rs1) rd s) (general (.fsin F rd rs1) (Real.sin (valR F x)))
      [(cls F x = .nan, nanF F (sgn F x)), (cls F x = .zero, x), (cls F x = .inf, nanF F false)] ∧
    HasEncoding (.fcos F rd rs1) 0x21 .unary ∧
    FirstRow (Writes (.fcos F rd rs1) rd s) (general (.fcos F rd rs1) (Real.cos (valR F x)))
      [(cls F x = .nan, nanF F (sgn F x)), (cls F x = .zero, oneF F false), (cls F x = .inf, nanF F false)] ∧
    HasEncoding (.ftan F rd rs1) 0x22 .unary ∧
    FirstRow (Writes (.ftan F rd rs1) rd s) (general (.ftan F rd rs1) (Real.tan (valR F x)))
      [(cls F x = .nan, nanF F (sgn F x)), (cls F x = .zero, x), (cls F x = .inf, nanF F false)]

/-- FASIN, FACOS and FATAN (R274, R275, R276); π/2 is RNE_F of π/2 (R244). -/
def Obligations.FasinFacosFatanResults : Prop :=
  ∀ (F : Fmt) (rd rs1 : RegIdx) (s : State), RomIntact s →
    let x := s.operand F rs1
    let outside := cls F x = .inf ∨ (cls F x = .finite ∧ 1 < |valR F x|)
    HasEncoding (.fasin F rd rs1) 0x23 .unary ∧
    FirstRow (Writes (.fasin F rd rs1) rd s)
      (WritesNear (.fasin F rd rs1) rd s F (Real.arcsin (valR F x)))
      [(cls F x = .nan, nanF F (sgn F x)), (cls F x = .zero, x), (outside, nanF F false)] ∧
    HasEncoding (.facos F rd rs1) 0x24 .unary ∧
    FirstRow (Writes (.facos F rd rs1) rd s)
      (WritesNear (.facos F rd rs1) rd s F (Real.arccos (valR F x)))
      [(cls F x = .nan, nanF F (sgn F x)), (cls F x = .finite ∧ valR F x = 1, zeroF F false),
       (outside, nanF F false)] ∧
    HasEncoding (.fatan F rd rs1) 0x25 .unary ∧
    FirstRow (Writes (.fatan F rd rs1) rd s)
      (WritesNear (.fatan F rd rs1) rd s F (Real.arctan (valR F x)))
      [(cls F x = .nan, nanF F (sgn F x)), (cls F x = .zero, x),
       (cls F x = .inf, rneR F (sgn F x) (Real.pi / 2))]

/-- FATAN2 (R277): y is rs1, x is rs2, and ± is the sign of y.  "Finite" in the rows of an infinite y takes in
the zeros, as the model reads it (log 18). -/
def Obligations.Fatan2Result : Prop :=
  ∀ (F : Fmt) (rd rs1 rs2 : RegIdx) (s : State), RomIntact s →
    let y := s.operand F rs1
    let x := s.operand F rs2
    let sy := sgn F y
    let c := fun b => cls F b
    let Y := valR F y
    let X := valR F x
    HasEncoding (.fatan2 F rd rs1 rs2) 0x26 .binary ∧
    FirstRow (Writes (.fatan2 F rd rs1 rs2) rd s)
      (∃ θ : ℝ, -Real.pi < θ ∧ θ ≤ Real.pi ∧ Real.cos θ = X / Real.sqrt (X ^ 2 + Y ^ 2) ∧
        Real.sin θ = Y / Real.sqrt (X ^ 2 + Y ^ 2) ∧ WritesNear (.fatan2 F rd rs1 rs2) rd s F θ)
      [(c y = .nan, nanF F sy),
       (c x = .nan, nanF F (sgn F x)),
       (c y = .zero ∧ c x = .zero ∧ sgn F x = true, rneR F sy Real.pi),
       (c y = .zero ∧ c x = .zero ∧ sgn F x = false, y),
       (c y = .zero ∧ sgn F x = true, rneR F sy Real.pi),
       (c y = .zero ∧ sgn F x = false, y),
       (c y = .finite ∧ Y < 0 ∧ c x = .zero, rneR F true (Real.pi / 2)),
       (c y = .finite ∧ 0 < Y ∧ c x = .zero, rneR F false (Real.pi / 2)),
       (c y = .finite ∧ c x = .inf ∧ sgn F x = true, rneR F sy Real.pi),
       (c y = .finite ∧ c x = .inf ∧ sgn F x = false, zeroF F sy),
       (c y = .inf ∧ (c x = .finite ∨ c x = .zero), rneR F sy (Real.pi / 2)),
       (c y = .inf ∧ c x = .inf ∧ sgn F x = true, rneR F sy (3 * Real.pi / 4)),
       (c y = .inf ∧ c x = .inf ∧ sgn F x = false, rneR F sy (Real.pi / 4))]

/-- FEXP and FEXPM1 (R301, R302). -/
def Obligations.FexpFexpm1Results : Prop :=
  ∀ (F : Fmt) (rd rs1 : RegIdx) (s : State), RomIntact s →
    let x := s.operand F rs1
    HasEncoding (.fexp F rd rs1) 0x28 .unary ∧
    FirstRow (Writes (.fexp F rd rs1) rd s)
      (WritesNear (.fexp F rd rs1) rd s F (Real.exp (valR F x)))
      [(cls F x = .nan, nanF F (sgn F x)), (cls F x = .zero, oneF F false),
       (cls F x = .inf ∧ sgn F x = true, zeroF F false), (cls F x = .inf ∧ sgn F x = false, infF F false)] ∧
    HasEncoding (.fexpm1 F rd rs1) 0x29 .unary ∧
    FirstRow (Writes (.fexpm1 F rd rs1) rd s)
      (WritesNear (.fexpm1 F rd rs1) rd s F (Real.exp (valR F x) - 1))
      [(cls F x = .nan, nanF F (sgn F x)), (cls F x = .zero, x),
       (cls F x = .inf ∧ sgn F x = true, oneF F true), (cls F x = .inf ∧ sgn F x = false, infF F false)]

/-- FLOG and FLOG1P (R303, R304). -/
def Obligations.FlogFlog1pResults : Prop :=
  ∀ (F : Fmt) (rd rs1 : RegIdx) (s : State), RomIntact s →
    let x := s.operand F rs1
    HasEncoding (.flog F rd rs1) 0x2A .unary ∧
    FirstRow (Writes (.flog F rd rs1) rd s)
      (0 < valR F x ∧ WritesNear (.flog F rd rs1) rd s F (Real.log (valR F x)))
      [(cls F x = .nan, nanF F (sgn F x)), (cls F x = .zero, infF F true),
       (cls F x = .finite ∧ valR F x = 1, zeroF F false),
       ((cls F x = .finite ∧ valR F x < 0) ∨ (cls F x = .inf ∧ sgn F x = true), nanF F false),
       (cls F x = .inf, infF F false)] ∧
    HasEncoding (.flog1p F rd rs1) 0x2B .unary ∧
    FirstRow (Writes (.flog1p F rd rs1) rd s)
      (-1 < valR F x ∧ WritesNear (.flog1p F rd rs1) rd s F (Real.log (1 + valR F x)))
      [(cls F x = .nan, nanF F (sgn F x)), (cls F x = .zero, x),
       (cls F x = .finite ∧ valR F x = -1, infF F true),
       ((cls F x = .finite ∧ valR F x < -1) ∨ (cls F x = .inf ∧ sgn F x = true), nanF F false),
       (cls F x = .inf, infF F false)]

/-- FPOW: the 20 rows in order, then |x|^y, negated for a negative x and an odd integer y (R305).  An exponent is
odd by the exact parity of its value: the model's reading (log 31), which does not follow R305's remark that
every finite y with |val(y)| ≥ 2^p is even. -/
def Obligations.FpowResult : Prop :=
  ∀ (F : Fmt) (rd rs1 rs2 : RegIdx) (s : State), RomIntact s →
    let x := s.operand F rs1
    let y := s.operand F rs2
    let X := valR F x
    let Y := valR F y
    let finX := cls F x = .finite
    let finY := cls F y = .finite
    let below := cls F x = .zero ∨ (finX ∧ |X| < 1)
    let above := cls F x = .inf ∨ (finX ∧ 1 < |X|)
    let odd := IsOddInteger F y
    HasEncoding (.fpow F rd rs1 rs2) 0x2C .binary ∧
    FirstRow (Writes (.fpow F rd rs1 rs2) rd s)
      ((X < 0 ∧ odd → WritesNear (.fpow F rd rs1 rs2) rd s F (-(|X| ^ Y))) ∧
        (¬(X < 0 ∧ odd) → WritesNear (.fpow F rd rs1 rs2) rd s F (|X| ^ Y)))
      [(cls F y = .zero, oneF F false),
       (finX ∧ X = 1, oneF F false),
       (cls F x = .nan, nanF F (sgn F x)),
       (cls F y = .nan, nanF F (sgn F y)),
       (finX ∧ X = -1 ∧ cls F y = .inf, oneF F false),
       (below ∧ cls F y = .inf ∧ sgn F y = true, infF F false),
       (above ∧ cls F y = .inf ∧ sgn F y = true, zeroF F false),
       (below ∧ cls F y = .inf ∧ sgn F y = false, zeroF F false),
       (above ∧ cls F y = .inf ∧ sgn F y = false, infF F false),
       (cls F x = .zero ∧ odd ∧ Y < 0, infF F (sgn F x)),
       (cls F x = .zero ∧ finY ∧ Y < 0, infF F false),
       (cls F x = .zero ∧ odd ∧ 0 < Y, x),
       (cls F x = .zero ∧ finY ∧ 0 < Y, zeroF F false),
       (cls F x = .inf ∧ sgn F x = true ∧ odd ∧ Y < 0, zeroF F true),
       (cls F x = .inf ∧ sgn F x = true ∧ finY ∧ Y < 0, zeroF F false),
       (cls F x = .inf ∧ sgn F x = true ∧ odd ∧ 0 < Y, infF F true),
       (cls F x = .inf ∧ sgn F x = true ∧ finY ∧ 0 < Y, infF F false),
       (cls F x = .inf ∧ sgn F x = false ∧ finY ∧ Y < 0, zeroF F false),
       (cls F x = .inf ∧ sgn F x = false ∧ finY ∧ 0 < Y, infF F false),
       (finX ∧ X < 0 ∧ finY ∧ ¬IsInteger F y, nanF F false)]

/-- FCBRT (R306): y is the real number with y³ = val(x). -/
def Obligations.FcbrtResult : Prop :=
  ∀ (F : Fmt) (rd rs1 : RegIdx) (s : State), RomIntact s →
    let x := s.operand F rs1
    HasEncoding (.fcbrt F rd rs1) 0x2D .unary ∧
    FirstRow (Writes (.fcbrt F rd rs1) rd s)
      (∃ y : ℝ, y ^ 3 = valR F x ∧ WritesNear (.fcbrt F rd rs1) rd s F y)
      [(cls F x = .nan, nanF F (sgn F x)), (cls F x = .zero, x), (cls F x = .inf, x)]

/-- FSINH, FCOSH and FTANH (R331, R332, R333). -/
def Obligations.FsinhFcoshFtanhResults : Prop :=
  ∀ (F : Fmt) (rd rs1 : RegIdx) (s : State), RomIntact s →
    let x := s.operand F rs1
    HasEncoding (.fsinh F rd rs1) 0x30 .unary ∧
    FirstRow (Writes (.fsinh F rd rs1) rd s)
      (WritesNear (.fsinh F rd rs1) rd s F (Real.sinh (valR F x)))
      [(cls F x = .nan, nanF F (sgn F x)), (cls F x = .zero, x), (cls F x = .inf, x)] ∧
    HasEncoding (.fcosh F rd rs1) 0x31 .unary ∧
    FirstRow (Writes (.fcosh F rd rs1) rd s)
      (WritesNear (.fcosh F rd rs1) rd s F (Real.cosh (valR F x)))
      [(cls F x = .nan, nanF F (sgn F x)), (cls F x = .zero, oneF F false), (cls F x = .inf, infF F false)] ∧
    HasEncoding (.ftanh F rd rs1) 0x32 .unary ∧
    FirstRow (Writes (.ftanh F rd rs1) rd s)
      (WritesNear (.ftanh F rd rs1) rd s F (Real.tanh (valR F x)))
      [(cls F x = .nan, nanF F (sgn F x)), (cls F x = .zero, x), (cls F x = .inf, oneF F (sgn F x))]

/-- FASINH, FACOSH and FATANH (R334, R335, R336). -/
def Obligations.FasinhFacoshFatanhResults : Prop :=
  ∀ (F : Fmt) (rd rs1 : RegIdx) (s : State), RomIntact s →
    let x := s.operand F rs1
    let X := valR F x
    HasEncoding (.fasinh F rd rs1) 0x33 .unary ∧
    FirstRow (Writes (.fasinh F rd rs1) rd s)
      (WritesNear (.fasinh F rd rs1) rd s F (Real.log (X + Real.sqrt (X ^ 2 + 1))))
      [(cls F x = .nan, nanF F (sgn F x)), (cls F x = .zero, x), (cls F x = .inf, x)] ∧
    HasEncoding (.facosh F rd rs1) 0x34 .unary ∧
    FirstRow (Writes (.facosh F rd rs1) rd s)
      (1 < X ∧ WritesNear (.facosh F rd rs1) rd s F (Real.log (X + Real.sqrt (X ^ 2 - 1))))
      [(cls F x = .nan, nanF F (sgn F x)), (cls F x = .finite ∧ X = 1, zeroF F false),
       ((cls F x = .finite ∧ X < 1) ∨ cls F x = .zero ∨ (cls F x = .inf ∧ sgn F x = true), nanF F false),
       (cls F x = .inf, infF F false)] ∧
    HasEncoding (.fatanh F rd rs1) 0x35 .unary ∧
    FirstRow (Writes (.fatanh F rd rs1) rd s)
      (|X| < 1 ∧ WritesNear (.fatanh F rd rs1) rd s F (1 / 2 * Real.log ((1 + X) / (1 - X))))
      [(cls F x = .nan, nanF F (sgn F x)), (cls F x = .zero, x),
       (cls F x = .finite ∧ |X| = 1, infF F (sgn F x)),
       ((cls F x = .finite ∧ 1 < |X|) ∨ cls F x = .inf, nanF F false)]

/-- FERF and FERFC (R340, R341). -/
def Obligations.FerfFerfcResults : Prop :=
  ∀ (F : Fmt) (rd rs1 : RegIdx) (s : State), RomIntact s →
    let x := s.operand F rs1
    let erf := 2 / Real.sqrt Real.pi * ∫ t in (0 : ℝ)..(valR F x), Real.exp (-t ^ 2)
    HasEncoding (.ferf F rd rs1) 0x38 .unary ∧
    FirstRow (Writes (.ferf F rd rs1) rd s) (WritesNear (.ferf F rd rs1) rd s F erf)
      [(cls F x = .nan, nanF F (sgn F x)), (cls F x = .zero, x), (cls F x = .inf, oneF F (sgn F x))] ∧
    HasEncoding (.ferfc F rd rs1) 0x39 .unary ∧
    FirstRow (Writes (.ferfc F rd rs1) rd s) (WritesNear (.ferfc F rd rs1) rd s F (1 - erf))
      [(cls F x = .nan, nanF F (sgn F x)),
       (cls F x = .inf ∧ sgn F x = true, packFinite F false 1 (2 ^ F.p)),
       (cls F x = .inf ∧ sgn F x = false, zeroF F false)]

/-- FTGAMMA (R345), with the sign of Γ as R347 gives it. -/
def Obligations.FtgammaResult : Prop :=
  ∀ (F : Fmt) (rd rs1 : RegIdx) (s : State), RomIntact s →
    let x := s.operand F rs1
    let X := valR F x
    HasEncoding (.ftgamma F rd rs1) 0x3A .unary ∧
    FirstRow (Writes (.ftgamma F rd rs1) rd s)
      (WritesNear (.ftgamma F rd rs1) rd s F (Real.Gamma X) ∧ (0 < X → 0 < Real.Gamma X) ∧
        (X < 0 → Real.Gamma X ≠ 0 ∧ (Real.Gamma X < 0 ↔ Odd ⌊X⌋)))
      [(cls F x = .nan, nanF F (sgn F x)), (cls F x = .zero, infF F (sgn F x)),
       (IsInteger F x ∧ X < 0, nanF F false),
       (cls F x = .inf ∧ sgn F x = true, nanF F false), (cls F x = .inf, infF F false)]

/-- FLGAMMA, rd and AUX (R349): in the general case AUX is 1 exactly when Γ is negative. -/
def Obligations.FlgammaResult : Prop :=
  ∀ (F : Fmt) (rd rs1 : RegIdx) (s : State), RomIntact s →
    let x := s.operand F rs1
    let X := valR F x
    let writes := fun v : Reg × Word => WritesAux (.flgamma F rd rs1) rd s v.1 v.2
    HasEncoding (.flgamma F rd rs1) 0x3B .unary ∧
    FirstRow writes
      (∃ r, Adm F (Real.log |Real.Gamma X|) r ∧ (Real.Gamma X < 0 → writes (r, 1)) ∧
        (¬Real.Gamma X < 0 → writes (r, 0)))
      [(cls F x = .nan, (nanF F (sgn F x), 0)),
       (cls F x = .finite ∧ (X = 1 ∨ X = 2), (zeroF F false, 0)),
       (cls F x = .zero ∧ sgn F x = false, (infF F false, 0)),
       (cls F x = .zero ∧ sgn F x = true, (infF F false, 1)),
       (IsInteger F x ∧ X < 0, (infF F false, 0)),
       (cls F x = .inf, (infF F false, 0))]

/-- FFMOD and FREMAINDER (R350, R351): the shared rows; then the exact remainder t is representable, smaller
than the divisor (at most half of it for FREMAINDER), FFMOD's has the dividend's sign, a zero t keeps
that sign, and the result is within 1 ULP of t, and exactly t where FMOD_EXACT holds. -/
def Obligations.FfmodFremainderResults : Prop :=
  ∀ (F : Fmt) (rd rs1 rs2 : RegIdx) (s : State), RomIntact s →
    let x := s.operand F rs1
    let y := s.operand F rs2
    let X := valR F x
    let Y := valR F y
    let rows := [(cls F x = .nan, nanF F (sgn F x)), (cls F y = .nan, nanF F (sgn F y)),
      (cls F x = .inf, nanF F false), (cls F y = .zero, nanF F false), (cls F x = .zero, x),
      (cls F y = .inf, x)]
    let general := fun (i : Instr) (t : ℝ) =>
      (t = 0 → Writes i rd s (zeroF F (sgn F x))) ∧
      (t ≠ 0 → (∃ b, cls F b = .finite ∧ valR F b = t) ∧ WritesNear i rd s F t ∧
        (Config.fmodExact = true → ∃ r, Writes i rd s r ∧ cls F r = .finite ∧ valR F r = t))
    HasEncoding (.ffmod F rd rs1 rs2) 0x3C .binary ∧
    FirstRow (Writes (.ffmod F rd rs1 rs2) rd s)
      (let t := X - truncR (X / Y) * Y
       general (.ffmod F rd rs1 rs2) t ∧ |t| < |Y| ∧ (t ≠ 0 → (t < 0 ↔ X < 0))) rows ∧
    HasEncoding (.fremainder F rd rs1 rs2) 0x3D .binary ∧
    FirstRow (Writes (.fremainder F rd rs1 rs2) rd s)
      (∃ n : ℤ, NearestEven (X / Y) n ∧
        general (.fremainder F rd rs1 rs2) (X - n * Y) ∧ |X - n * Y| ≤ |Y| / 2) rows

/-- FREMQUO (R352): rd is the very result that FREMAINDER leaves on the same operands, in the general case without
FMOD_EXACT too, which is the model's reading of R352's "exactly as FREMAINDER" (log 19); AUX is 0 in every
special row and for a zero x, else the low REMQUO_QBITS bits of |n| with the sign of n, in 64-bit two's
complement. -/
def Obligations.FremquoResult : Prop :=
  ∀ (F : Fmt) (rd rs1 rs2 : RegIdx) (s : State),
    let x := s.operand F rs1
    let y := s.operand F rs2
    HasEncoding (.fremquo F rd rs1 rs2) 0x3E .binary ∧
    3 ≤ Config.remquoQbits ∧ Config.remquoQbits ≤ 63 ∧
    ∃ r a, Writes (.fremainder F rd rs1 rs2) rd s r ∧ WritesAux (.fremquo F rd rs1 rs2) rd s r a ∧
      (¬(cls F x = .finite ∧ cls F y = .finite) → a = 0) ∧
      (cls F x = .finite → cls F y = .finite →
        ∃ n : ℤ, NearestEven (valR F x / valR F y) n ∧
          let q := n.natAbs % 2 ^ Config.remquoQbits
          a = BitVec.ofNat 64 (if n < 0 then (2 ^ 64 - q) % 2 ^ 64 else q))

/-- The derived bounds of R270, R330 and R340: FSIN, FCOS, FTANH and FERF never write a value above 1.0 or below
-1.0 for a finite operand (in range, for FSIN and FCOS); FCOSH writes +Inf or a value of at least 1 for every
operand but a NaN, which the model asks beside the accuracy rule (log 26), and FACOSH no negative value and no -0 for an operand of at least 1. -/
def Obligations.BoundedResults : Prop :=
  ∀ (F : Fmt) (rd rs1 : RegIdx) (s : State), RomIntact s →
    let x := s.operand F rs1
    (cls F x = .finite → |valR F x| < 2 ^ Config.phRange F → ∀ c ∈ [Instr.fsin, Instr.fcos],
      ∃ r, Writes (c F rd rs1) rd s r ∧ (cls F r = .zero ∨ cls F r = .finite) ∧ |valR F r| ≤ 1) ∧
    (cls F x = .finite → ∀ c ∈ [Instr.ftanh, Instr.ferf],
      ∃ r, Writes (c F rd rs1) rd s r ∧ (cls F r = .zero ∨ cls F r = .finite) ∧ |valR F r| ≤ 1) ∧
    (cls F x ≠ .nan → ∃ r, Writes (.fcosh F rd rs1) rd s r ∧ cls F r ≠ .nan ∧ 1 ≤ valE F r) ∧
    (cls F x ≠ .nan → 1 ≤ valE F x →
      ∃ r, Writes (.facosh F rd rs1) rd s r ∧ cls F r ≠ .nan ∧ sgn F r = false)

/-- The correctly rounded result is always admissible (R241). -/
def Obligations.RoundedResultIsAdmissible : Prop :=
  ∀ (F : Fmt) (y : ℝ), y ≠ 0 → Adm F y (rneSignedR F y)

/-! ### Notation and reduction -/

/-- The pseudo-instructions (R107), each with its expansion: FGT and FGE compare the swapped operands, FMV copies
the W-bit pattern and zeroes the bits above, FSQR squares, FINC and FDEC add and subtract 1.0 held in k, and
FNMA gives -(a·b)+c when rd differs from b and c. -/
def Obligations.PseudoInstructionsMeanWhatTheySay : Prop :=
  ∀ (F : Fmt) (rd a b c k : RegIdx) (s : State),
    let x := s.operand F a
    let y := s.operand F b
    let gt := Ordered F x y ∧ valE F y < valE F x
    let ge := Ordered F x y ∧ valE F y ≤ valE F x
    (∃ i, pseudoFgt F rd a b = [i] ∧ (gt → Writes i rd s 1) ∧ (¬gt → Writes i rd s 0)) ∧
    (∃ i, pseudoFge F rd a b = [i] ∧ (ge → Writes i rd s 1) ∧ (¬ge → Writes i rd s 0)) ∧
    (∃ i, pseudoFmv F rd a = [i] ∧ Writes i rd s x) ∧
    (∃ i, pseudoFsqr F rd a = [i] ∧ Writes i rd s (mulRule F x x)) ∧
    (s.operand F k = oneF F false →
      (∃ i, pseudoFinc F rd a k = [i] ∧ Writes i rd s (addRule F x (oneF F false))) ∧
      (∃ i, pseudoFdec F rd a k = [i] ∧ Writes i rd s (addRule F x (oneF F true)))) ∧
    (rd ≠ b → rd ≠ c → ∃ t u, pseudoFnma F rd a b c = [.fneg F rd a, .fma F rd rd b c] ∧
      exec (.fneg F rd a) s = .next t ∧ exec (.fma F rd rd b c) t = .next u ∧
      u.reg rd = fmaRule F (negated F x) y (s.operand F c))

/-- Every real number has a reduction, and the quadrant rules give its sine and cosine (R246 and R278, in the
spec's own reading). -/
def Obligations.QuadrantRules : Prop :=
  (∀ x : ℝ, ∃ q r, Reduces x q r) ∧
  ∀ (x : ℝ) (q : Fin 4) (r : ℝ), Reduces x q r →
    Real.sin x = quadrantSin q (Real.sin (r * Real.pi)) (Real.cos (r * Real.pi)) ∧
    Real.cos x = quadrantCos q (Real.sin (r * Real.pi)) (Real.cos (r * Real.pi))

/-! ### Datapaths -/

/-- Guard and sticky rounding computes RNE (R132): of M·2^q exactly, and, with the sticky bit, of any value
strictly between M·2^q and (M+1)·2^q, where M holds the guard bit. -/
def Obligations.GuardStickyRounding : Prop :=
  ∀ (F : Fmt) (s : Bool) (M : ℕ) (q : ℤ),
    (0 < M → Datapath.round F s M q false = rneR F s ((M : ℝ) * (2 : ℝ) ^ q)) ∧
    (2 ^ (F.p + 1) ≤ M → ∀ x : ℝ, (M : ℝ) * (2 : ℝ) ^ q < x → x < ((M : ℝ) + 1) * (2 : ℝ) ^ q →
      Datapath.round F s M q true = rneR F s x)

/-- The addition datapath, with its shortcut for far apart exponents, gives the rule's sum (R136).  The shortcut's
threshold of p + 3 takes the working mantissa width to be p + 1: the model's choice (log 30). -/
def Obligations.AdditionDatapath : Prop :=
  ∀ (F : Fmt) (a b : Reg) (s1 s2 : Bool) (e1 e2 : ℤ) (m1 m2 : ℕ),
    unpack F a = .finite s1 e1 m1 → unpack F b = .finite s2 e2 m2 →
    Datapath.add F s1 e1 m1 s2 e2 m2 = addRule F a b

/-- The multiplication, division and fused multiply-add datapaths give the rules' results (R138, R140, R142). -/
def Obligations.ProductAndQuotientDatapaths : Prop :=
  ∀ (F : Fmt) (a b c : Reg) (s1 s2 s3 : Bool) (e1 e2 e3 : ℤ) (m1 m2 m3 : ℕ),
    unpack F a = .finite s1 e1 m1 → unpack F b = .finite s2 e2 m2 → unpack F c = .finite s3 e3 m3 →
    Datapath.mul F (s1 ^^ s2) e1 m1 e2 m2 = mulRule F a b ∧
    Datapath.div F (s1 ^^ s2) e1 m1 e2 m2 = divRule F a b ∧
    Datapath.fma F (s1 ^^ s2) e1 m1 e2 m2 s3 e3 m3 = fmaRule F a b c

/-- The square-root datapath, from the integer root and its remainder, gives the rule's root (R144).  The position
the mantissa is shifted into is the model's choice (log 34). -/
def Obligations.SquareRootDatapath : Prop :=
  ∀ (F : Fmt) (a : Reg) (e : ℤ) (m : ℕ), unpack F a = .finite false e m →
    Datapath.sqrt F e m = sqrtRule F a

/-- The mask-and-bias datapath gives the results of the rounding family (R207). -/
def Obligations.RoundingFamilyDatapath : Prop :=
  ∀ (F : Fmt) (a : Reg),
    Datapath.roundIntF .trunc F a = roundRule F a (truncR (valR F a)) ∧
    Datapath.roundIntF .floor F a = roundRule F a ⌊valR F a⌋ ∧
    Datapath.roundIntF .ceil F a = roundRule F a ⌈valR F a⌉ ∧
    Datapath.roundIntF .round F a = roundRule F a (roundAwayR (valR F a)) ∧
    ∀ n, NearestEven (valR F a) n → Datapath.roundIntF .rint F a = roundRule F a n

/-- The casts by shifting give the rules' results (R211, R214). -/
def Obligations.CastDatapaths : Prop :=
  (∀ (S D : Fmt) (a : Reg) (s : Bool) (e : ℤ) (m : ℕ), unpack S a = .finite s e m →
    Datapath.cast S D s e m = castRule S D a) ∧
  (∀ (F : Fmt) (T : IntTy) (a : Reg) (s : Bool) (e : ℤ) (m : ℕ), unpack F a = .finite s e m →
    Datapath.toInt F T s e m = toIntRule F T a) ∧
  (∀ (F : Fmt) (x : ℤ), x ≠ 0 → Datapath.ofInt F x = ofIntRule F x)
end

