-- ==== Sys2Proof/Laws/Decode.lean ====
section
/-! SUPPORT. Fields, codes, and what the decoder answers on the fields of a command. -/

namespace Sys2Proof

/-- The fields of a word that was put together from fields are those fields (R91). -/
@[simp] theorem fieldsOf_word (f : Fields) : fieldsOf f.word = f := by
  obtain ⟨op, fmt, fmt2, rd, rs1, rs2, rs3⟩ := f
  simp only [fieldsOf, Fields.word, Fields.mk.injEq]
  refine ⟨?_, ?_, ?_, ?_, ?_, ?_, ?_⟩ <;>
  · apply BitVec.eq_of_getLsbD_eq
    intro k hk
    simp only [BitVec.getLsbD_extractLsb', BitVec.getLsbD_append, hk, decide_true, Bool.true_and]
    interval_cases k <;> simp

/-- A word is put together from its fields (R91). -/
@[simp] theorem word_fieldsOf (w : CmdWord) : (fieldsOf w).word = w := by
  apply BitVec.eq_of_getLsbD_eq
  intro k hk
  simp only [fieldsOf, Fields.word, BitVec.getLsbD_append, BitVec.getLsbD_extractLsb']
  interval_cases k <;> simp

@[simp] theorem regOf_regCode (r : RegIdx) : regOf (regCode r) = r := by
  apply Fin.ext
  simp [regOf, regCode]

@[simp] theorem regCode_regOf (b : BitVec 4) : regCode (regOf b) = b := by
  apply BitVec.eq_of_toNat_eq
  simp [regOf, regCode]

@[simp] theorem Fmt.ofCode_code (F : Fmt) : Fmt.ofCode F.code = some F := by cases F <;> rfl
@[simp] theorem IntTy.ofCode_code (T : IntTy) : IntTy.ofCode T.code = some T := by cases T <;> rfl

theorem Fmt.code_of_ofCode {b : BitVec 4} {F : Fmt} (h : Fmt.ofCode b = some F) : b = F.code := by
  revert h; revert F; revert b; decide

theorem IntTy.code_of_ofCode {b : BitVec 4} {T : IntTy} (h : IntTy.ofCode b = some T) : b = T.code := by
  revert h; revert T; revert b; decide

/-! ### The mask check reads the fields -/

/-- A word and its masks, bit by bit: the mask check asks that the fields a shape fixes are 0. -/
theorem field_of_mask {x y m : CmdWord} (h : x &&& m = y) {n : Nat}
    (hm : m.extractLsb' n 4 = 15) : x.extractLsb' n 4 = y.extractLsb' n 4 := by
  subst h
  apply BitVec.eq_of_getLsbD_eq
  intro k hk
  have := congrArg (·.getLsbD k) hm
  simp only [BitVec.getLsbD_extractLsb', hk, decide_true, Bool.true_and, BitVec.getLsbD_and] at this ⊢
  rw [this]
  interval_cases k <;> simp

/-- A word meets the mask of a shape exactly when the fields the shape fixes to 0 are 0 (R96, R102). -/
theorem mask_iff (f : Fields) (m : Shape) :
    f.word &&& m.mask = f.op.setWidth 32 ↔
      match m with
      | .unary => f.fmt2 = 0 ∧ f.rs2 = 0 ∧ f.rs3 = 0
      | .binary => f.fmt2 = 0 ∧ f.rs3 = 0
      | .ternary => f.fmt2 = 0
      | .convert => f.rs2 = 0 ∧ f.rs3 = 0 := by
  have e2 : f.word.extractLsb' 12 4 = f.fmt2 := congrArg Fields.fmt2 (fieldsOf_word f)
  have e3 : f.word.extractLsb' 24 4 = f.rs2 := congrArg Fields.rs2 (fieldsOf_word f)
  have e4 : f.word.extractLsb' 28 4 = f.rs3 := congrArg Fields.rs3 (fieldsOf_word f)
  have z : ∀ n, 8 ≤ n → (f.op.setWidth 32).extractLsb' n 4 = 0 := by
    intro n hn
    apply BitVec.eq_of_getLsbD_eq
    intro k hk
    simp only [BitVec.getLsbD_extractLsb', BitVec.getLsbD_setWidth]
    rw [BitVec.getLsbD_of_ge f.op (n + k) (by omega)]; simp
  constructor
  · intro h
    cases m
    · exact ⟨by rw [← e2, field_of_mask h rfl, z _ (by decide)],
        by rw [← e3, field_of_mask h rfl, z _ (by decide)],
        by rw [← e4, field_of_mask h rfl, z _ (by decide)]⟩
    · exact ⟨by rw [← e2, field_of_mask h rfl, z _ (by decide)],
        by rw [← e4, field_of_mask h rfl, z _ (by decide)]⟩
    · show f.fmt2 = 0
      rw [← e2, field_of_mask h rfl, z _ (by decide)]
    · exact ⟨by rw [← e3, field_of_mask h rfl, z _ (by decide)],
        by rw [← e4, field_of_mask h rfl, z _ (by decide)]⟩
  · intro h
    obtain ⟨op, fmt, fmt2, rd, rs1, rs2, rs3⟩ := f
    apply BitVec.eq_of_getLsbD_eq
    intro k hk
    cases m <;> simp only at h <;>
    · simp only [Fields.word, Shape.mask, h, BitVec.getLsbD_and, BitVec.getLsbD_append,
        BitVec.getLsbD_setWidth]
      interval_cases k <;> simp
/-! ### Decoding -/

/-- What the decoder accepts: it built an instruction, and the word meets the shape's mask (R104). -/
theorem decode_eq_ok {w : CmdWord} {i : Instr} :
    decode w = .ok i ↔ ∃ m F, opShape (fieldsOf w).op = some m ∧ Fmt.ofCode (fieldsOf w).fmt = some F ∧
      build F (fieldsOf w) = some i ∧ w &&& m.mask = (fieldsOf w).op.setWidth 32 := by
  simp only [decode]
  split
  · rename_i h; simp [h]
  · rename_i m hm
    split
    · rename_i h; simp [h]
    · rename_i F hF
      split
      · rename_i h; simp [hm, hF, h]
      · rename_i j hj
        split
        · rename_i hk; simp [hm, hF, hj, hk]
        · rename_i hk; simp [hm, hF, hj, hk]

/-- Building from the fields of a command gives the command, with the shape and format of its own (R97). -/
theorem build_fields (i : Instr) :
    ∃ m F, opShape i.fields.op = some m ∧ Fmt.ofCode i.fields.fmt = some F ∧ build F i.fields = some i ∧
      i.fields.word &&& m.mask = i.fields.op.setWidth 32 := by
  cases i <;>
  · refine ⟨_, _, rfl, Fmt.ofCode_code _, ?_, ?_⟩
    · simp [build, Instr.fields, unaryFields, binaryFields, ternaryFields, convertFields]
    · rw [mask_iff]
      simp [Instr.fields, unaryFields, binaryFields, ternaryFields, convertFields]

/-- The command that is built from fields has those fields, if the shape leaves none out (R96, R97). -/
theorem fields_of_build {F : Fmt} {f : Fields} {i : Instr} {m : Shape} (hm : opShape f.op = some m)
    (hF : Fmt.ofCode f.fmt = some F) (hb : build F f = some i)
    (hw : f.word &&& m.mask = f.op.setWidth 32) : i.fields = f := by
  rw [mask_iff] at hw
  have hF' := Fmt.code_of_ofCode hF
  obtain ⟨op, fmt, fmt2, rd, rs1, rs2, rs3⟩ := f
  simp only at hm hF hw hF'
  subst hF'
  simp only [build] at hb
  split at hb
  all_goals first
    | (cases hb; simp only [opShape] at hm; cases hm; simp only at hw
       simp [Instr.fields, unaryFields, binaryFields, ternaryFields, hw])
    | (simp only [Option.map_eq_some_iff] at hb
       obtain ⟨T, hT, rfl⟩ := hb
       simp only [opShape] at hm; cases hm; simp only at hw
       first
       | (have := Fmt.code_of_ofCode hT; subst this
          simp [Instr.fields, convertFields, hw])
       | (have := IntTy.code_of_ofCode hT; subst this
          simp [Instr.fields, convertFields, hw]))
    | cases hb

end Sys2Proof
end

