-- ==== Sys2Proof/Laws/Format.lean ====
section
/-! SUPPORT. Unpacking, packing and exact values: what the later laws cite. -/

namespace Sys2Proof

theorem toNat_lowBits {w : Nat} (hw : w ≤ 256) (x : Reg) : (lowBits w x).toNat = x.toNat % 2 ^ w := by
  rw [lowBits, BitVec.toNat_setWidth, BitVec.toNat_setWidth]
  exact Nat.mod_eq_of_lt (lt_of_lt_of_le (Nat.mod_lt _ (by positivity)) (Nat.pow_le_pow_right (by decide) hw))

theorem lowBits_lt {w : Nat} (hw : w ≤ 256) (x : Reg) : (lowBits w x).toNat < 2 ^ w := by
  rw [toNat_lowBits hw]; exact Nat.mod_lt _ (by positivity)

/-- A pattern that fits is its own low bits. -/
theorem lowBits_of_lt {w : Nat} (hw : w ≤ 256) {x : Reg} (h : x.toNat < 2 ^ w) : lowBits w x = x := by
  apply BitVec.eq_of_toNat_eq
  rw [toNat_lowBits hw, Nat.mod_eq_of_lt h]

@[simp] theorem lowBits_lowBits {w : Nat} (hw : w ≤ 256) (x : Reg) :
    lowBits w (lowBits w x) = lowBits w x := lowBits_of_lt hw (lowBits_lt hw x)

theorem expField_lt (F : Fmt) (b : Reg) : expField F b < 2 ^ F.nbexp := Nat.mod_lt _ (by positivity)
theorem fracField_lt (F : Fmt) (b : Reg) : fracField F b < 2 ^ F.p := Nat.mod_lt _ (by positivity)

/-- Every finite value that is read meets the unpacked invariants (R124). -/
theorem finiteOk_of_unpack {F : Fmt} {b : Reg} {s : Bool} {e : Int} {m : Nat}
    (h : unpack F b = .finite s e m) : FiniteOk F e m := by
  have hE := expField_lt F b
  have hT := fracField_lt F b
  have ho := F.expOnes_eq
  have hb := F.bias_pos
  have hp : 2 ^ (F.p + 1) = 2 ^ F.p + 2 ^ F.p := by rw [pow_succ]; ring
  simp only [unpack] at h
  split at h
  · split at h <;> cases h
  · split at h
    · split at h
      · cases h
      · cases h
        refine ⟨by omega, by omega, le_rfl, ?_, fun _ => rfl⟩
        rw [F.emin_eq, F.emax_eq]; omega
    · cases h
      have hmax : expField F b < F.expOnes := by
        have : F.expOnes + 1 = 2 ^ F.nbexp := by
          have := F.expOnes_lt
          unfold Fmt.expOnes at *; omega
        omega
      refine ⟨?_, by omega, ?_, ?_, fun h => absurd h (by omega)⟩
      · have : 0 < 2 ^ F.p := by positivity
        omega
      · rw [F.emin_eq]; omega
      · rw [F.emax_eq]; omega

/-- A pattern is the sign, exponent and fraction fields it holds (R121). -/
theorem packFields_fields {F : Fmt} {b : Reg} (hb : b.toNat < 2 ^ F.width) :
    packFields F (signBit F b) (expField F b) (fracField F b) = b := by
  apply BitVec.eq_of_toNat_eq
  rw [toNat_packFields F _ (expField_lt F b) (fracField_lt F b)]
  have h1 : 2 ^ (F.width - 1) = 2 ^ F.p * 2 ^ F.nbexp := by rw [F.width_pred, pow_add]; ring
  have h2 : 2 ^ F.width = 2 * 2 ^ (F.width - 1) := by
    rw [F.width_pred, F.width_eq, pow_succ]; ring
  have hs : (signBit F b).toNat = b.toNat / 2 ^ (F.width - 1) := by
    have hlt : b.toNat / 2 ^ (F.width - 1) < 2 := by
      rw [Nat.div_lt_iff_lt_mul (by positivity)]; omega
    rw [signBit, BitVec.getLsbD, Nat.testBit_eq_decide_div_mod_eq]
    generalize b.toNat / 2 ^ (F.width - 1) = q at *
    interval_cases q <;> rfl
  rw [hs, expField, fracField]
  have e1 : b.toNat / 2 ^ F.p % 2 ^ F.nbexp + 2 ^ F.nbexp * (b.toNat / 2 ^ F.p / 2 ^ F.nbexp)
      = b.toNat / 2 ^ F.p := Nat.mod_add_div _ _
  have e2 : b.toNat % 2 ^ F.p + 2 ^ F.p * (b.toNat / 2 ^ F.p) = b.toNat := Nat.mod_add_div _ _
  have e3 : b.toNat / 2 ^ (F.width - 1) = b.toNat / 2 ^ F.p / 2 ^ F.nbexp := by
    rw [h1, Nat.div_div_eq_div_mul]
  rw [e3, h1]
  generalize b.toNat / 2 ^ F.p / 2 ^ F.nbexp = q at *
  generalize b.toNat / 2 ^ F.p % 2 ^ F.nbexp = r at *
  generalize b.toNat / 2 ^ F.p = u at *
  calc q * (2 ^ F.p * 2 ^ F.nbexp) + r * 2 ^ F.p + b.toNat % 2 ^ F.p
      = b.toNat % 2 ^ F.p + 2 ^ F.p * (r + 2 ^ F.nbexp * q) := by ring
    _ = b.toNat := by rw [e1, e2]

/-- A zero's pattern is the signed zero's (R125). -/
theorem eq_zeroF_of_unpack {F : Fmt} {b : Reg} (hb : b.toNat < 2 ^ F.width) {s : Bool}
    (h : unpack F b = .zero s) : b = zeroF F s := by
  have hpf := packFields_fields hb
  simp only [unpack] at h
  split at h
  · split at h <;> cases h
  · split at h
    · split at h
      · cases h
        rename_i _ h1 h2
        rw [zeroF, ← hpf, h1, h2, signBit_packFields F _ (by positivity) (by positivity)]
      · cases h
    · cases h

/-- An infinity's pattern is the signed infinity's (R125). -/
theorem eq_infF_of_unpack {F : Fmt} {b : Reg} (hb : b.toNat < 2 ^ F.width) {s : Bool}
    (h : unpack F b = .inf s) : b = infF F s := by
  have hpf := packFields_fields hb
  simp only [unpack] at h
  split at h
  · split at h
    · cases h
      rename_i h1 h2
      rw [infF, ← hpf, h1, h2, signBit_packFields F _ F.expOnes_lt (by positivity)]
    · cases h
  · split at h
    · split at h <;> cases h
    · cases h

/-- A finite value's pattern is its packing (R125). -/
theorem eq_packFinite_of_unpack {F : Fmt} {b : Reg} (hb : b.toNat < 2 ^ F.width) {s : Bool} {e : Int}
    {m : Nat} (h : unpack F b = .finite s e m) : b = packFinite F s e m := by
  have hpf := packFields_fields hb
  have hT := fracField_lt F b
  simp only [unpack] at h
  split at h
  · split at h <;> cases h
  · split at h
    · split at h
      · cases h
      · cases h
        rename_i _ h1 _
        rw [packFinite, if_neg (by omega)]
        rw [h1] at hpf; exact hpf.symm
    · cases h
      rw [packFinite, if_pos (by omega)]
      have e1 : ((expField F b : Int) - F.bias + F.bias).toNat = expField F b := by omega
      have e2 : 2 ^ F.p + fracField F b - 2 ^ F.p = fracField F b := by omega
      rw [e1, e2]; exact hpf.symm

/-- The unpacked sign is the sign bit (R122). -/
theorem unpack_sign (F : Fmt) (b : Reg) : (unpack F b).sign = signBit F b := by
  simp only [unpack]
  split
  · split <;> rfl
  · split
    · split <;> rfl
    · rfl

/-- `sgn` is the sign bit. -/
@[simp] theorem sgn_eq_signBit (F : Fmt) (b : Reg) : sgn F b = signBit F b := unpack_sign F b

/-- A finite value is not 0. -/
theorem val_finite_ne_zero {F : Fmt} {s : Bool} {e : Int} {m : Nat} (h : FiniteOk F e m) :
    (Unpacked.finite s e m).val F ≠ 0 := by
  have h1 := pow2_pos (e - F.p)
  have h2 : (0 : Rat) < m := by exact_mod_cast h.pos
  simp only [Unpacked.val]
  exact mul_ne_zero (mul_ne_zero (by cases s <;> simp) h2.ne') h1.ne'

/-- The sign of a finite value (R123). -/
theorem val_finite_neg {F : Fmt} {s : Bool} {e : Int} {m : Nat} (h : FiniteOk F e m) :
    (Unpacked.finite s e m).val F < 0 ↔ s = true := by
  have h1 := pow2_pos (e - F.p)
  have h2 : (0 : Rat) < m := by exact_mod_cast h.pos
  have h3 : 0 < (m : Rat) * pow2 (e - F.p) := mul_pos h2 h1
  simp only [Unpacked.val]
  cases s
  · simp only [Bool.false_eq_true, if_false, one_mul, iff_false, not_lt]; exact h3.le
  · simp only [if_true, iff_true]; rw [mul_assoc]; linarith

/-- The magnitude of a finite value (R123). -/
theorem abs_val_finite {F : Fmt} (s : Bool) (e : Int) (m : Nat) :
    |(Unpacked.finite s e m).val F| = (m : Rat) * pow2 (e - F.p) := by
  have h1 := pow2_pos (e - F.p)
  have h3 : 0 ≤ (m : Rat) * pow2 (e - F.p) := mul_nonneg (by positivity) h1.le
  simp only [Unpacked.val]
  cases s
  · simp only [Bool.false_eq_true, if_false, one_mul]; exact abs_of_nonneg h3
  · simp only [if_true]; rw [mul_assoc, neg_one_mul, abs_neg]; exact abs_of_nonneg h3

/-! ### Values of patterns -/

theorem valF_ne_zero {F : Fmt} {b : Reg} {s : Bool} {e : Int} {m : Nat} (h : unpack F b = .finite s e m) :
    valF F b ≠ 0 := by
  rw [valF, h]; exact val_finite_ne_zero (finiteOk_of_unpack h)

theorem valF_neg_iff {F : Fmt} {b : Reg} {s : Bool} {e : Int} {m : Nat} (h : unpack F b = .finite s e m) :
    valF F b < 0 ↔ s = true := by
  rw [valF, h]; exact val_finite_neg (finiteOk_of_unpack h)

theorem valF_pos_iff {F : Fmt} {b : Reg} {s : Bool} {e : Int} {m : Nat} (h : unpack F b = .finite s e m) :
    0 < valF F b ↔ s = false := by
  have h1 := valF_ne_zero h
  have h2 := valF_neg_iff h
  cases s
  · simp only [Bool.false_eq_true, iff_false, not_lt] at h2
    exact iff_of_true (lt_of_le_of_ne h2 h1.symm) rfl
  · simp only [iff_true] at h2
    exact iff_of_false (not_lt.mpr h2.le) (by decide)

theorem abs_valF {F : Fmt} {b : Reg} {s : Bool} {e : Int} {m : Nat} (h : unpack F b = .finite s e m) :
    |valF F b| = (m : Rat) * pow2 (e - F.p) := by
  rw [valF, h]; exact abs_val_finite s e m

/-- A real-number value is the cast of the exact rational the meanings use. -/
theorem valR_eq_cast (F : Fmt) (b : Reg) : valR F b = ((valF F b : ℚ) : ℝ) := rfl

theorem valR_lt_iff (F : Fmt) (b : Reg) (q : ℚ) : valR F b < q ↔ valF F b < q := by
  rw [valR_eq_cast]; exact_mod_cast Iff.rfl
theorem lt_valR_iff (F : Fmt) (b : Reg) (q : ℚ) : (q : ℝ) < valR F b ↔ q < valF F b := by
  rw [valR_eq_cast]; exact_mod_cast Iff.rfl
theorem valR_eq_iff (F : Fmt) (b : Reg) (q : ℚ) : valR F b = q ↔ valF F b = q := by
  rw [valR_eq_cast]; exact_mod_cast Iff.rfl

/-- A float operand fits its format's width (R32). -/
theorem operand_lt (s : Machine.State) (F : Fmt) (i : RegIdx) : (s.operand F i).toNat < 2 ^ F.width :=
  lowBits_lt F.width_le _

end Sys2Proof
end

