-- ==== Sys2Proof/Laws/Elementary.lean ====
section
/-! SUPPORT. What an elementary command writes: a special row's pattern, or an admissible result. -/

namespace Sys2Proof.Machine

open Sys2Proof Sys2Proof.Safety

/-- An admissible result fits the format's width. -/
theorem adm_lt {F : Fmt} {y : ℝ} {r : Reg} (h : Adm F y r) : r.toNat < 2 ^ F.width := h.1

/-- With the ROMs' own contents, a general-case result in range is admissible (R241, R242). -/
theorem State.elem_adm {s : State} (h : RomIntact s) {op : ElemOp} {F : Fmt} {a b : Reg}
    (ht : op.table F a b = none) (hr : op.inRange F a = true) :
    Adm F (exactValue op (valF F a) (valF F b)) (s.elem op F a b) := by
  rw [State.elem, h.coef, h.invPi]
  exact (Config.evaluator.ok op F a b ht hr).1

/-- With the ROMs' own contents, FCOSH's general-case results are at least 1 (R330). -/
theorem State.elem_bound {s : State} (h : RomIntact s) {op : ElemOp} {F : Fmt} {a b : Reg}
    (ht : op.table F a b = none) (hr : op.inRange F a = true) : op.bound F (s.elem op F a b) := by
  rw [State.elem, h.coef, h.invPi]
  exact (Config.evaluator.ok op F a b ht hr).2

/-- A command whose result is a special row's pattern writes the pattern (R250). -/
theorem elemUnary_row {op : ElemOp} {F : Fmt} {rd rs1 : RegIdx} {s : State} {v : Reg}
    (h : op.table F (s.operand F rs1) 0 = some v) (hv : v.toNat < 2 ^ F.width) :
    elemUnary op F rd rs1 s = .next (s.retire rd v) := by
  rw [elemUnary, wrF, State.elemResult, h, Option.getD_some, lowBits_of_lt F.width_le hv]

theorem elemBinary_row {op : ElemOp} {F : Fmt} {rd rs1 rs2 : RegIdx} {s : State} {v : Reg}
    (h : op.table F (s.operand F rs1) (s.operand F rs2) = some v) (hv : v.toNat < 2 ^ F.width) :
    elemBinary op F rd rs1 rs2 s = .next (s.retire rd v) := by
  rw [elemBinary, wrF, State.elemResult, h, Option.getD_some, lowBits_of_lt F.width_le hv]

/-- In the general case a command writes an admissible result (R250). -/
theorem elemUnary_general {op : ElemOp} {F : Fmt} {rd rs1 : RegIdx} {s : State} (hs : RomIntact s)
    (h : op.table F (s.operand F rs1) 0 = none) (hr : op.inRange F (s.operand F rs1) = true) :
    ∃ r, Adm F (exactValue op (valF F (s.operand F rs1)) (valF F 0)) r ∧
      elemUnary op F rd rs1 s = .next (s.retire rd r) := by
  refine ⟨_, s.elem_adm hs h hr, ?_⟩
  rw [elemUnary, wrF, State.elemResult, h, Option.getD_none,
    lowBits_of_lt F.width_le (adm_lt (s.elem_adm hs h hr))]

theorem elemBinary_general {op : ElemOp} {F : Fmt} {rd rs1 rs2 : RegIdx} {s : State} (hs : RomIntact s)
    (h : op.table F (s.operand F rs1) (s.operand F rs2) = none)
    (hr : op.inRange F (s.operand F rs1) = true) :
    ∃ r, Adm F (exactValue op (valF F (s.operand F rs1)) (valF F (s.operand F rs2))) r ∧
      elemBinary op F rd rs1 rs2 s = .next (s.retire rd r) := by
  refine ⟨_, s.elem_adm hs h hr, ?_⟩
  rw [elemBinary, wrF, State.elemResult, h, Option.getD_none,
    lowBits_of_lt F.width_le (adm_lt (s.elem_adm hs h hr))]

end Sys2Proof.Machine
end

