-- ==== Sys2Proof/Laws/State.lean ====
section
/-! SUPPORT. One lemma per field per update of the state, and the registers read after a write. -/

namespace Sys2Proof.Machine

open Sys2Proof

/-! ### `setReg` -/

@[simp] theorem State.regs_setReg (s : State) (i : RegIdx) (v : Reg) :
    (s.setReg i v).regs = s.regs.set i v := rfl
@[simp] theorem State.written_setReg (s : State) (i : RegIdx) (v : Reg) :
    (s.setReg i v).written = s.written.set i (Vector.replicate 4 true) := rfl
@[simp] theorem State.cmd_setReg (s : State) (i : RegIdx) (v : Reg) : (s.setReg i v).cmd = s.cmd := rfl
@[simp] theorem State.status_setReg (s : State) (i : RegIdx) (v : Reg) :
    (s.setReg i v).status = s.status := rfl
@[simp] theorem State.aux_setReg (s : State) (i : RegIdx) (v : Reg) : (s.setReg i v).aux = s.aux := rfl
@[simp] theorem State.coefRom_setReg (s : State) (i : RegIdx) (v : Reg) :
    (s.setReg i v).coefRom = s.coefRom := rfl
@[simp] theorem State.invPiRom_setReg (s : State) (i : RegIdx) (v : Reg) :
    (s.setReg i v).invPiRom = s.invPiRom := rfl
@[simp] theorem State.pending_setReg (s : State) (i : RegIdx) (v : Reg) :
    (s.setReg i v).pending = s.pending := rfl
@[simp] theorem State.reply_setReg (s : State) (i : RegIdx) (v : Reg) : (s.setReg i v).reply = s.reply := rfl
@[simp] theorem State.resets_setReg (s : State) (i : RegIdx) (v : Reg) :
    (s.setReg i v).resets = s.resets := rfl

/-! ### `setRegWord` -/

@[simp] theorem State.regs_setRegWord (s : State) (i : RegIdx) (j : Fin 4) (v : Word) :
    (s.setRegWord i j v).regs = s.regs.set i (setWord (s.reg i) j v) := rfl
@[simp] theorem State.written_setRegWord (s : State) (i : RegIdx) (j : Fin 4) (v : Word) :
    (s.setRegWord i j v).written = s.written.set i ((s.written[i]).set j true) := rfl
@[simp] theorem State.cmd_setRegWord (s : State) (i : RegIdx) (j : Fin 4) (v : Word) :
    (s.setRegWord i j v).cmd = s.cmd := rfl
@[simp] theorem State.status_setRegWord (s : State) (i : RegIdx) (j : Fin 4) (v : Word) :
    (s.setRegWord i j v).status = s.status := rfl
@[simp] theorem State.aux_setRegWord (s : State) (i : RegIdx) (j : Fin 4) (v : Word) :
    (s.setRegWord i j v).aux = s.aux := rfl
@[simp] theorem State.coefRom_setRegWord (s : State) (i : RegIdx) (j : Fin 4) (v : Word) :
    (s.setRegWord i j v).coefRom = s.coefRom := rfl
@[simp] theorem State.invPiRom_setRegWord (s : State) (i : RegIdx) (j : Fin 4) (v : Word) :
    (s.setRegWord i j v).invPiRom = s.invPiRom := rfl
@[simp] theorem State.pending_setRegWord (s : State) (i : RegIdx) (j : Fin 4) (v : Word) :
    (s.setRegWord i j v).pending = s.pending := rfl
@[simp] theorem State.reply_setRegWord (s : State) (i : RegIdx) (j : Fin 4) (v : Word) :
    (s.setRegWord i j v).reply = s.reply := rfl
@[simp] theorem State.resets_setRegWord (s : State) (i : RegIdx) (j : Fin 4) (v : Word) :
    (s.setRegWord i j v).resets = s.resets := rfl

/-! ### `retire` -/

@[simp] theorem State.regs_retire (s : State) (rd : RegIdx) (v : Reg) :
    (s.retire rd v).regs = s.regs.set rd v := rfl
@[simp] theorem State.written_retire (s : State) (rd : RegIdx) (v : Reg) :
    (s.retire rd v).written = s.written.set rd (Vector.replicate 4 true) := rfl
@[simp] theorem State.cmd_retire (s : State) (rd : RegIdx) (v : Reg) : (s.retire rd v).cmd = s.cmd := rfl
@[simp] theorem State.status_retire (s : State) (rd : RegIdx) (v : Reg) :
    (s.retire rd v).status = statusLegal s.status := rfl
@[simp] theorem State.aux_retire (s : State) (rd : RegIdx) (v : Reg) : (s.retire rd v).aux = s.aux := rfl
@[simp] theorem State.coefRom_retire (s : State) (rd : RegIdx) (v : Reg) :
    (s.retire rd v).coefRom = s.coefRom := rfl
@[simp] theorem State.invPiRom_retire (s : State) (rd : RegIdx) (v : Reg) :
    (s.retire rd v).invPiRom = s.invPiRom := rfl
@[simp] theorem State.pending_retire (s : State) (rd : RegIdx) (v : Reg) :
    (s.retire rd v).pending = s.pending := rfl
@[simp] theorem State.reply_retire (s : State) (rd : RegIdx) (v : Reg) :
    (s.retire rd v).reply = s.reply := rfl
@[simp] theorem State.resets_retire (s : State) (rd : RegIdx) (v : Reg) :
    (s.retire rd v).resets = s.resets := rfl

/-! ### `retireAux` -/

@[simp] theorem State.regs_retireAux (s : State) (rd : RegIdx) (v : Reg) (a : Word) :
    (s.retireAux rd v a).regs = s.regs.set rd v := rfl
@[simp] theorem State.written_retireAux (s : State) (rd : RegIdx) (v : Reg) (a : Word) :
    (s.retireAux rd v a).written = s.written.set rd (Vector.replicate 4 true) := rfl
@[simp] theorem State.cmd_retireAux (s : State) (rd : RegIdx) (v : Reg) (a : Word) :
    (s.retireAux rd v a).cmd = s.cmd := rfl
@[simp] theorem State.status_retireAux (s : State) (rd : RegIdx) (v : Reg) (a : Word) :
    (s.retireAux rd v a).status = statusLegal s.status := rfl
@[simp] theorem State.aux_retireAux (s : State) (rd : RegIdx) (v : Reg) (a : Word) :
    (s.retireAux rd v a).aux = a := rfl
@[simp] theorem State.coefRom_retireAux (s : State) (rd : RegIdx) (v : Reg) (a : Word) :
    (s.retireAux rd v a).coefRom = s.coefRom := rfl
@[simp] theorem State.invPiRom_retireAux (s : State) (rd : RegIdx) (v : Reg) (a : Word) :
    (s.retireAux rd v a).invPiRom = s.invPiRom := rfl
@[simp] theorem State.pending_retireAux (s : State) (rd : RegIdx) (v : Reg) (a : Word) :
    (s.retireAux rd v a).pending = s.pending := rfl
@[simp] theorem State.reply_retireAux (s : State) (rd : RegIdx) (v : Reg) (a : Word) :
    (s.retireAux rd v a).reply = s.reply := rfl
@[simp] theorem State.resets_retireAux (s : State) (rd : RegIdx) (v : Reg) (a : Word) :
    (s.retireAux rd v a).resets = s.resets := rfl

/-! ### `raiseIllegal` -/

@[simp] theorem State.regs_raiseIllegal (s : State) (c : Cause) : (s.raiseIllegal c).regs = s.regs := rfl
@[simp] theorem State.written_raiseIllegal (s : State) (c : Cause) :
    (s.raiseIllegal c).written = s.written := rfl
@[simp] theorem State.cmd_raiseIllegal (s : State) (c : Cause) : (s.raiseIllegal c).cmd = s.cmd := rfl
@[simp] theorem State.status_raiseIllegal (s : State) (c : Cause) :
    (s.raiseIllegal c).status = statusIllegal s.status c := rfl
@[simp] theorem State.aux_raiseIllegal (s : State) (c : Cause) : (s.raiseIllegal c).aux = s.aux := rfl
@[simp] theorem State.coefRom_raiseIllegal (s : State) (c : Cause) :
    (s.raiseIllegal c).coefRom = s.coefRom := rfl
@[simp] theorem State.invPiRom_raiseIllegal (s : State) (c : Cause) :
    (s.raiseIllegal c).invPiRom = s.invPiRom := rfl
@[simp] theorem State.pending_raiseIllegal (s : State) (c : Cause) :
    (s.raiseIllegal c).pending = s.pending := rfl
@[simp] theorem State.reply_raiseIllegal (s : State) (c : Cause) : (s.raiseIllegal c).reply = s.reply := rfl
@[simp] theorem State.resets_raiseIllegal (s : State) (c : Cause) :
    (s.raiseIllegal c).resets = s.resets := rfl

/-! ### `writeStatus` -/

@[simp] theorem State.regs_writeStatus (s : State) (v : Word) : (s.writeStatus v).regs = s.regs := rfl
@[simp] theorem State.written_writeStatus (s : State) (v : Word) :
    (s.writeStatus v).written = s.written := rfl
@[simp] theorem State.cmd_writeStatus (s : State) (v : Word) : (s.writeStatus v).cmd = s.cmd := rfl
@[simp] theorem State.status_writeStatus (s : State) (v : Word) :
    (s.writeStatus v).status = statusHostWrite s.status v := rfl
@[simp] theorem State.aux_writeStatus (s : State) (v : Word) : (s.writeStatus v).aux = s.aux := rfl
@[simp] theorem State.coefRom_writeStatus (s : State) (v : Word) :
    (s.writeStatus v).coefRom = s.coefRom := rfl
@[simp] theorem State.invPiRom_writeStatus (s : State) (v : Word) :
    (s.writeStatus v).invPiRom = s.invPiRom := rfl
@[simp] theorem State.pending_writeStatus (s : State) (v : Word) :
    (s.writeStatus v).pending = s.pending := rfl
@[simp] theorem State.reply_writeStatus (s : State) (v : Word) : (s.writeStatus v).reply = s.reply := rfl
@[simp] theorem State.resets_writeStatus (s : State) (v : Word) : (s.writeStatus v).resets = s.resets := rfl

/-! ### `platformReset` -/

@[simp] theorem State.regs_platformReset (s : State) :
    (s.platformReset).regs = Vector.ofFn (Config.afterReset s.resets) := rfl
@[simp] theorem State.written_platformReset (s : State) : (s.platformReset).written = noneWritten := rfl
@[simp] theorem State.cmd_platformReset (s : State) : (s.platformReset).cmd = 0 := rfl
@[simp] theorem State.status_platformReset (s : State) : (s.platformReset).status = 0 := rfl
@[simp] theorem State.aux_platformReset (s : State) : (s.platformReset).aux = 0 := rfl
@[simp] theorem State.coefRom_platformReset (s : State) : (s.platformReset).coefRom = s.coefRom := rfl
@[simp] theorem State.invPiRom_platformReset (s : State) : (s.platformReset).invPiRom = s.invPiRom := rfl
@[simp] theorem State.pending_platformReset (s : State) : (s.platformReset).pending = s.pending := rfl
@[simp] theorem State.reply_platformReset (s : State) : (s.platformReset).reply = s.reply := rfl
@[simp] theorem State.resets_platformReset (s : State) : (s.platformReset).resets = s.resets + 1 := rfl

/-! ### `recordCmd` -/

@[simp] theorem State.regs_recordCmd (s : State) (v : Word) : (s.recordCmd v).regs = s.regs := rfl
@[simp] theorem State.written_recordCmd (s : State) (v : Word) : (s.recordCmd v).written = s.written := rfl
@[simp] theorem State.cmd_recordCmd (s : State) (v : Word) :
    (s.recordCmd v).cmd = (cmdWord v).setWidth 64 := rfl
@[simp] theorem State.status_recordCmd (s : State) (v : Word) : (s.recordCmd v).status = s.status := rfl
@[simp] theorem State.aux_recordCmd (s : State) (v : Word) : (s.recordCmd v).aux = s.aux := rfl
@[simp] theorem State.coefRom_recordCmd (s : State) (v : Word) : (s.recordCmd v).coefRom = s.coefRom := rfl
@[simp] theorem State.invPiRom_recordCmd (s : State) (v : Word) : (s.recordCmd v).invPiRom = s.invPiRom := rfl
@[simp] theorem State.pending_recordCmd (s : State) (v : Word) : (s.recordCmd v).pending = s.pending := rfl
@[simp] theorem State.reply_recordCmd (s : State) (v : Word) : (s.recordCmd v).reply = s.reply := rfl
@[simp] theorem State.resets_recordCmd (s : State) (v : Word) : (s.recordCmd v).resets = s.resets := rfl

/-! ### `withCommand` -/

@[simp] theorem State.regs_withCommand (s : State) (n w : Nat) : (s.withCommand n w).regs = s.regs := rfl
@[simp] theorem State.written_withCommand (s : State) (n w : Nat) :
    (s.withCommand n w).written = s.written := rfl
@[simp] theorem State.cmd_withCommand (s : State) (n w : Nat) : (s.withCommand n w).cmd = s.cmd := rfl
@[simp] theorem State.status_withCommand (s : State) (n w : Nat) :
    (s.withCommand n w).status = s.status := rfl
@[simp] theorem State.aux_withCommand (s : State) (n w : Nat) : (s.withCommand n w).aux = s.aux := rfl
@[simp] theorem State.coefRom_withCommand (s : State) (n w : Nat) :
    (s.withCommand n w).coefRom = s.coefRom := rfl
@[simp] theorem State.invPiRom_withCommand (s : State) (n w : Nat) :
    (s.withCommand n w).invPiRom = s.invPiRom := rfl
@[simp] theorem State.pending_withCommand (s : State) (n w : Nat) :
    (s.withCommand n w).pending = cmdWrite (BitVec.ofNat 64 (BitVec.ofNat 32 (w % 2 ^ n)).toNat) :: s.pending := rfl
@[simp] theorem State.reply_withCommand (s : State) (n w : Nat) : (s.withCommand n w).reply = s.reply := rfl
@[simp] theorem State.resets_withCommand (s : State) (n w : Nat) :
    (s.withCommand n w).resets = s.resets := rfl

/-! ### Registers after a write -/

@[simp] theorem State.reg_setReg_self (s : State) (i : RegIdx) (v : Reg) : (s.setReg i v).reg i = v := by
  simp [State.reg]

theorem State.reg_setReg_ne (s : State) {i k : RegIdx} (v : Reg) (h : k ≠ i) :
    (s.setReg i v).reg k = s.reg k := by
  have : i.val ≠ k.val := fun e => h (Fin.ext e.symm)
  simp [State.reg, this]

@[simp] theorem State.reg_retire_self (s : State) (i : RegIdx) (v : Reg) : (s.retire i v).reg i = v :=
  s.reg_setReg_self i v

theorem State.reg_retire_ne (s : State) {i k : RegIdx} (v : Reg) (h : k ≠ i) :
    (s.retire i v).reg k = s.reg k := s.reg_setReg_ne v h

@[simp] theorem State.reg_retireAux_self (s : State) (i : RegIdx) (v : Reg) (a : Word) :
    (s.retireAux i v a).reg i = v := s.reg_setReg_self i v

theorem State.reg_retireAux_ne (s : State) {i k : RegIdx} (v : Reg) (a : Word) (h : k ≠ i) :
    (s.retireAux i v a).reg k = s.reg k := s.reg_setReg_ne v h

@[simp] theorem State.isWritten_setReg_self (s : State) (i : RegIdx) (v : Reg) (j : Fin 4) :
    (s.setReg i v).isWritten i j = true := by
  simp [State.isWritten]

theorem State.isWritten_setReg_ne (s : State) {i k : RegIdx} (v : Reg) (h : k ≠ i) (j : Fin 4) :
    (s.setReg i v).isWritten k j = s.isWritten k j := by
  have : i.val ≠ k.val := fun e => h (Fin.ext e.symm)
  simp [State.isWritten, this]

/-- Word j of a register after one of its words was written: that word has the value written. -/
theorem extract_setWord_self (x : Reg) (j : Fin 4) (v : Word) :
    (setWord x j v).extractLsb' (64 * j.val) 64 = v := by
  apply BitVec.eq_of_getLsbD_eq
  intro k hk
  have h1 : ¬ 64 * j.val + k < 64 * j.val := by omega
  have h2 : 64 * j.val + k - 64 * j.val = k := by omega
  have h3 : 64 * j.val + k < 256 := by omega
  simp only [setWord, BitVec.getLsbD_extractLsb', hk, decide_true, Bool.true_and, BitVec.getLsbD_or,
    BitVec.getLsbD_and, BitVec.getLsbD_not, BitVec.getLsbD_shiftLeft, BitVec.getLsbD_setWidth,
    BitVec.getLsbD_allOnes, h1, h2, h3]
  simp [show k < 256 by omega]

/-- The other words keep their values. -/
theorem extract_setWord_ne (x : Reg) {j k : Fin 4} (v : Word) (h : k ≠ j) :
    (setWord x j v).extractLsb' (64 * k.val) 64 = x.extractLsb' (64 * k.val) 64 := by
  apply BitVec.eq_of_getLsbD_eq
  intro n hn
  have : k.val ≠ j.val := fun e => h (Fin.ext e)
  simp only [setWord, BitVec.getLsbD_extractLsb', hn, decide_true, Bool.true_and, BitVec.getLsbD_or,
    BitVec.getLsbD_and, BitVec.getLsbD_not, BitVec.getLsbD_shiftLeft, BitVec.getLsbD_setWidth,
    BitVec.getLsbD_allOnes]
  by_cases h1 : 64 * k.val + n < 64 * j.val
  · simp [h1]; omega
  · have h2 : ¬ 64 * k.val + n - 64 * j.val < 64 := by omega
    have h3 : v.getLsbD (64 * k.val + n - 64 * j.val) = false := BitVec.getLsbD_of_ge _ _ (by omega)
    simp [h2, h3]; omega

theorem State.regWord_setRegWord_self (s : State) (i : RegIdx) (j : Fin 4) (v : Word) :
    (s.setRegWord i j v).regWord i j = v := by
  have : (s.setRegWord i j v).reg i = setWord (s.reg i) j v := by simp [State.reg]
  rw [State.regWord, this, extract_setWord_self]

theorem State.regWord_setRegWord_ne (s : State) {i k : RegIdx} {j l : Fin 4} (v : Word)
    (h : ¬ (k = i ∧ l = j)) : (s.setRegWord i j v).regWord k l = s.regWord k l := by
  by_cases hk : k = i
  · subst hk
    have e : (s.setRegWord k j v).reg k = setWord (s.reg k) j v := by simp [State.reg]
    rw [State.regWord, e, extract_setWord_ne _ _ (fun e => h ⟨rfl, e⟩), State.regWord]
  · have hne : i.val ≠ k.val := fun e => hk (Fin.ext e.symm)
    have e : (s.setRegWord i j v).reg k = s.reg k := by simp [State.reg, hne]
    rw [State.regWord, e, State.regWord]

end Sys2Proof.Machine
end

