-- ==== Sys2Proof/Laws/Exec.lean ====
section
/-! SUPPORT. What a command, an access and a step can do, each said once. -/

namespace Sys2Proof.Machine

open Sys2Proof

/-! ### Commands -/

/-- Whether a command writes AUX (R39). -/
def writesAux : Instr → Bool
  | .flgamma _ _ _ => true
  | .fremquo _ _ _ _ => true
  | _ => false

/-- Every command retires into the register its RD field names, and two of them write AUX as well: it
never stops (R380), and nothing else of the state changes. -/
theorem exec_retires (i : Instr) (s : State) :
    ∃ v a, exec i s = .next (s.retireAux (regOf i.fields.rd) v a) ∧ (writesAux i = false → a = s.aux) := by
  cases i <;>
  · simp only [Instr.fields, unaryFields, binaryFields, ternaryFields, convertFields, regOf_regCode]
    first
    | exact ⟨_, s.aux, rfl, fun _ => rfl⟩
    | exact ⟨_, _, rfl, fun h => by cases h⟩

/-- A command that does not write AUX retires into RD alone. -/
theorem exec_retires_of_not_aux {i : Instr} (h : writesAux i = false) (s : State) :
    ∃ v, exec i s = .next (s.retire (regOf i.fields.rd) v) := by
  obtain ⟨v, a, he, ha⟩ := exec_retires i s
  exact ⟨v, by rw [he, ha h]; rfl⟩

/-! ### Host events -/

/-- A CMD write performs the decoded command on the state that has recorded the word (R37, R415). -/
theorem issue_ok {run : Instr → State → Outcome} {v : Word} {s : State} {i : Instr}
    (h : decode (cmdWord v) = .ok i) : issue run v s = run i (s.recordCmd v) := by
  simp only [issue, h]

/-- A CMD write of an illegal word raises IllegalCommand (R382). -/
theorem issue_error {run : Instr → State → Outcome} {v : Word} {s : State} {c : Cause}
    (h : decode (cmdWord v) = .error c) : issue run v s = .next ((s.recordCmd v).raiseIllegal c) := by
  simp only [issue, h]

/-- What an access that goes on can have been: a read, a write of a word that is not CMD, a legal command
or an illegal one (R64 to R67, R415). -/
theorem serveAccess_cases {a : Access} {s t : State} (h : serveAccess exec a s = .next t) :
    a.width = 8 ∧
    ((∃ g, targetAt a.offset = some g ∧ a.dir = .read ∧ t = { s with reply := .data (s.windowWord g) }) ∨
     (∃ g v, targetAt a.offset = some g ∧ g ≠ .cmd ∧ a.dir = .write v ∧
        t = { s.writeWord g v with reply := .ack }) ∨
     (∃ v i, targetAt a.offset = some .cmd ∧ a.dir = .write v ∧ decode (cmdWord v) = .ok i ∧
        exec i ({ s with reply := .ack }.recordCmd v) = .next t) ∨
     (∃ v c, targetAt a.offset = some .cmd ∧ a.dir = .write v ∧ decode (cmdWord v) = .error c ∧
        t = ({ s with reply := .ack }.recordCmd v).raiseIllegal c)) := by
  obtain ⟨off, width, dir⟩ := a
  simp only [serveAccess] at h
  split at h
  · cases h
  · rename_i hw
    refine ⟨not_not.mp hw, ?_⟩
    split at h
    · cases h
    · rename_i g hg
      split at h
      · cases h
        exact .inl ⟨g, hg, rfl, rfl⟩
      · rename_i v
        cases hdec : decode (cmdWord v) with
        | ok i => rw [issue_ok hdec] at h; exact .inr (.inr (.inl ⟨v, i, hg, rfl, hdec, h⟩))
        | error c =>
          rw [issue_error hdec] at h; cases h
          exact .inr (.inr (.inr ⟨v, c, hg, rfl, hdec, rfl⟩))
      · rename_i v hne
        cases h
        exact .inr (.inl ⟨g, v, hg, fun e => hne e, rfl, rfl⟩)

/-- What a step that goes on can have been: idle, an access, or a platform reset (R69, R410). -/
theorem step_cases {s t : State} (h : step s = .next t) :
    (s.pending = [] ∧ t = s) ∨
    (∃ a rest, s.pending = .access a :: rest ∧ serveAccess exec a { s with pending := rest } = .next t) ∨
    (∃ rest, s.pending = .reset :: rest ∧ t = { s with pending := rest }.platformReset) := by
  simp only [step, serveNext] at h
  split at h
  · rename_i hp; cases h; exact .inl ⟨hp, rfl⟩
  · rename_i e rest hp
    cases e with
    | access a => exact .inr (.inl ⟨a, rest, hp, h⟩)
    | reset => cases h; exact .inr (.inr ⟨rest, hp, rfl⟩)
    | accessInReset a => cases h

/-- A step whose oldest event is a write of a legal word to CMD runs the command. -/
theorem step_cmdWrite {s : State} {v : Word} {rest : List HostEvent} {i : Instr}
    (hp : s.pending = cmdWrite v :: rest) (hd : decode (cmdWord v) = .ok i) :
    step s = exec i ({ s with pending := rest, reply := .ack }.recordCmd v) := by
  simp only [step, serveNext, hp, cmdWrite, serve, serveAccess]
  rw [if_neg (by simp)]
  exact issue_ok hd

end Sys2Proof.Machine
end

