-- ==== Sys2Proof/Machine/Kernels.lean ====
section
/-! DEFINITION. The schemes by which the evaluator computes, as the spec describes them, over exact real numbers
and integers (R45, R246, R247, R278 to R280, R307 to R310, R337, R342, R346, R353).  Each route takes the
series it evaluates, the constants it splits, and how often it repeats a step; `Machine/Routes.lean` supplies
them from the ROMs and the tuning.  The commands' results do not depend on them (R242; log 25).
`Laws/Kernels.lean` proves where the routes lead when their series are exact. -/

namespace Sys2Proof.Kernel

open Sys2Proof

/-- v with the sign of x. -/
noncomputable def signed (x v : ℝ) : ℝ := if x < 0 then -v else v

/-! ### Coefficients and working precision -/

/-- Horner evaluation of a polynomial, the constant coefficient first (R247). -/
def horner {K : Type} [Add K] [Mul K] [Zero K] (x : K) : List K → K
  | [] => 0
  | c :: cs => c + x * horner x cs

/-- The value of a literal of the coefficient ROM (R41).  The model's choice: its mantissa is scaled by the
fraction bits P of the internal format (log 28). -/
def literalVal (P : Nat) : Unpacked → Rat
  | .finite s e m => (if s then -1 else 1) * (m : Rat) * pow2 (e - P)
  | .zero _ => 0
  | .inf _ => 0
  | .nan _ => 0

/-- The exponent of an internal extended format: a signed 32-bit integer that saturates (R45). -/
def extExponent (e : Int) : Int := max (-2 ^ 31) (min e (2 ^ 31 - 1))

/-- The number in [0, 1) whose binary digits after the point the bytes of the 1/π ROM are (R42).  The model's
choice: the first byte holds the first digits, its most significant bit the very first (log 28). -/
def digitsVal : List Byte → Rat
  | [] => 0
  | b :: bs => ((b.toNat : Rat) + digitsVal bs) / 256

/-! ### Trigonometric -/

/-- The bits of the 1/π ROM as one integer, in the order of `digitsVal` (R42; log 28). -/
def romInt : List Byte → Nat
  | [] => 0
  | b :: bs => b.toNat * 256 ^ bs.length + romInt bs

/-- The K digits of 1/π that follow the first o (R246). -/
def digitWindow (rom : List Byte) (o K : Nat) : Nat := romInt rom / 2 ^ (8 * rom.length - (o + K)) % 2 ^ K

/-- The bit offset that the exponent of m·2^t implies: the digits before it only add whole turns (R246). -/
def digitOffset (t : Int) : Nat := (t - 1).toNat

/-- The mantissa m of m·2^t times K digits from the offset on, whole turns dropped: (v, s) stands for the fraction
v/2^s of a turn, and is short of the true one by less than m/2^s (R246). -/
def turnFraction (rom : List Byte) (t : Int) (m K : Nat) : Nat × Nat :=
  let o := digitOffset t
  let s := ((K : Int) + 1 + o - t).toNat
  (m * digitWindow rom o K % 2 ^ s, s)

/-- How many leading bits of an s-bit number are 0. -/
def leadingZeros (s g : Nat) : Nat := s - Nat.size g

/-- The check of R246: beside the two quadrant bits, neither the value's leading zero bits nor its complement's
leave fewer than P trusted bits.  The bits that the digits left out can reach are not trusted; how many are
enough is the model's choice (log 32). -/
def separated (p P : Nat) (vs : Nat × Nat) : Bool :=
  let g := 4 * vs.1 % 2 ^ vs.2
  max (leadingZeros vs.2 g) (leadingZeros vs.2 (2 ^ vs.2 - 1 - g)) + P + p + 4 ≤ vs.2

/-- The digits that j blocks of B bytes give, as far as the ROM reaches (R246). -/
def blockDigits (rom : List Byte) (B : Nat) (t : Int) (j : Nat) : Nat :=
  min (8 * B * j) (8 * rom.length - digitOffset t)

/-- The table extension (R246, R248): while the check fails another block is pulled in and the product made anew.
`fuel` is how many blocks are left. -/
def extendTable (rom : List Byte) (B p P : Nat) (t : Int) (m : Nat) : Nat → Nat → Nat × Nat
  | 0, j => turnFraction rom t m (blockDigits rom B t j)
  | fuel + 1, j =>
    let vs := turnFraction rom t m (blockDigits rom B t j)
    if separated p P vs then vs else extendTable rom B p P t m fuel (j + 1)

/-- How many blocks of B bytes the ROM still has after the first: the bound of the extension (R248). -/
def blocksLeft (rom : List Byte) (B : Nat) (t : Int) : Nat := (8 * rom.length - digitOffset t) / (8 * B)

/-- Quadrant code and remainder of a fraction of a turn, the nearest quarter turn taken off (R246; 90_conflicts
C7). -/
def quadrantOf (vs : Nat × Nat) : Nat × Rat :=
  let n := (8 * vs.1 + 2 ^ vs.2) / 2 ^ (vs.2 + 1)
  (n, 2 * (vs.1 : Rat) / 2 ^ vs.2 - n / 2)

/-- Payne–Hanek reduction of a finite operand, its sign put back at the end (R246): a block of B bytes at a time,
for P working bits. -/
def payneHanek (rom : List Byte) (B P : Nat) (F : Fmt) (x : Reg) : Fin 4 × Rat :=
  match unpack F x with
  | .finite neg e m =>
    let t := e - F.p
    let nr := quadrantOf (extendTable rom B F.p P t m (blocksLeft rom B t) 1)
    if neg then (Fin.ofNat 4 (3 * nr.1), -nr.2) else (Fin.ofNat 4 nr.1, nr.2)
  | _ => (0, 0)

/-- FSIN and FCOS (R278): the series ss and sc of the reduced argument, then the quadrant code's rules. -/
noncomputable def sinRoute (ss sc : ℝ → ℝ) (qr : Fin 4 × ℝ) : ℝ := quadrantSin qr.1 (ss qr.2) (sc qr.2)
noncomputable def cosRoute (ss sc : ℝ → ℝ) (qr : Fin 4 × ℝ) : ℝ := quadrantCos qr.1 (ss qr.2) (sc qr.2)

/-- One double-angle pass of FTAN (R279); the formula is the model's (log 27). -/
noncomputable def tanDouble (t : ℝ) : ℝ := 2 * t / (1 - t ^ 2)

/-- FTAN (R279): the series of the reduced argument halved k times, k double-angle passes, and the quadrant
code's swap; the halving is the model's (log 27). -/
noncomputable def tanRoute (st : ℝ → ℝ) (k : Nat) (qr : Fin 4 × ℝ) : ℝ :=
  let t := tanDouble^[k] (st (qr.2 / 2 ^ k))
  if qr.1.val % 2 = 0 then t else -1 / t

/-- One half-angle reduction (R280, step 2). -/
noncomputable def atanHalf (d : ℝ) : ℝ := d / (Real.sqrt (1 + d ^ 2) + 1)

/-- The odd-power Horner series (R280, step 3). -/
noncomputable def oddSeries (cs : List ℝ) (d : ℝ) : ℝ := d * horner (d ^ 2) cs

/-- Steps 2 to 4 for an argument in [0, 1]: k half-angle reductions, the series, and k doublings (R280). -/
noncomputable def atanCore (sa : ℝ → ℝ) (k : Nat) (d : ℝ) : ℝ := 2 ^ k * sa (atanHalf^[k] d)

/-- FATAN2 (R280): step 1 compares magnitudes and signs and swaps the operands to keep the argument in [0, 1];
afterwards the swap and the quadrant are undone. -/
noncomputable def atan2Route (sa : ℝ → ℝ) (k : Nat) (y x : ℝ) : ℝ :=
  let t := if |y| ≤ |x| then atanCore sa k (|y| / |x|) else Real.pi / 2 - atanCore sa k (|x| / |y|)
  signed y (if x < 0 then Real.pi - t else t)

/-- FATAN, FASIN and FACOS by way of FATAN2, the last two by the usual identities (R280). -/
noncomputable def atanRoute (sa : ℝ → ℝ) (k : Nat) (x : ℝ) : ℝ := atan2Route sa k x 1
noncomputable def asinRoute (sa : ℝ → ℝ) (k : Nat) (x : ℝ) : ℝ := atan2Route sa k x (Real.sqrt (1 - x ^ 2))
noncomputable def acosRoute (sa : ℝ → ℝ) (k : Nat) (x : ℝ) : ℝ := atan2Route sa k (Real.sqrt (1 - x ^ 2)) x

/-! ### Exponential, logarithm, power and cube root -/

/-- A constant kept as an upper and a lower part, whose exact sum it is (R247). -/
structure Split where
  upper : ℝ
  lower : ℝ

noncomputable def Split.sum (c : Split) : ℝ := c.upper + c.lower

/-- The reduction of FEXP: q = round(x/ln 2), and q·ln 2 subtracted part by part (R307). -/
noncomputable def expReduce (ln2 : Split) (x : ℝ) : ℤ × ℝ :=
  let q := round (x / ln2.sum)
  (q, x - q * ln2.upper - q * ln2.lower)

/-- k squaring doublings of e^r, and of e^r - 1 with the -1 kept symbolic (R307). -/
def expDouble {K : Type} [Mul K] (e : K) : Nat → K
  | 0 => e
  | k + 1 => expDouble (e * e) k
def expm1Double (u : ℝ) : Nat → ℝ
  | 0 => u
  | k + 1 => expm1Double (u * (u + 2)) k

/-- FEXP (R307): reduction, the series se of the remainder halved k times (log 27), k doublings, ldexp by q. -/
noncomputable def expRoute (se : ℝ → ℝ) (k : Nat) (ln2 : Split) (x : ℝ) : ℝ :=
  let qr := expReduce ln2 x
  expDouble (se (qr.2 / 2 ^ k)) k * (2 : ℝ) ^ qr.1

/-- FEXPM1 (R307): as FEXP, with a series for e^r - 1; the ldexp by q is of u + 1, the 1 kept apart. -/
noncomputable def expm1Route (su : ℝ → ℝ) (k : Nat) (ln2 : Split) (x : ℝ) : ℝ :=
  let qr := expReduce ln2 x
  expm1Double (su (qr.2 / 2 ^ k)) k * (2 : ℝ) ^ qr.1 + ((2 : ℝ) ^ qr.1 - 1)

/-- FLOG's split of x > 0: an exponent e and a mantissa in [√2/2, √2) (R308). -/
noncomputable def logSplit (x : ℝ) : ℤ × ℝ :=
  let e := Int.log 2 (x * Real.sqrt 2)
  (e, x / (2 : ℝ) ^ e)

/-- The argument of FLOG's series (R308). -/
noncomputable def logArg (m : ℝ) : ℝ := (m - 1) / (m + 1)

/-- FLOG (R308): split, k square-root reductions, the series sl, and e·ln 2 added part by part, the upper
product last, to the series value scaled back by k. -/
noncomputable def logRoute (sl : ℝ → ℝ) (k : Nat) (ln2 : Split) (x : ℝ) : ℝ :=
  let em := logSplit x
  em.1 * ln2.upper + (em.1 * ln2.lower + 2 ^ k * sl (logArg (Real.sqrt^[k] em.2)))

/-- FLOG1P: the steps of R308.  The rule does not say what FLOG1P splits; 1 + x is the model's choice (log 27). -/
noncomputable def log1pRoute (sl : ℝ → ℝ) (k : Nat) (ln2 : Split) (x : ℝ) : ℝ := logRoute sl k ln2 (1 + x)

/-- The route of FPOW's general case by a logarithm lg and an exponential ex, with the sign put right afterwards
(R310; whose tables those use is the model's choice, log 33). -/
noncomputable def powRoute (lg ex : ℝ → ℝ) (x y : ℚ) : ℝ :=
  (if x < 0 ∧ isOddQ y then -1 else 1) * ex (y * lg |(x : ℝ)|)

/-- FCBRT's split of an exponent by mod 3, and its correction constants ∛1, ∛2, ∛4 (R309). -/
def cbrtSplit (e : Int) : Int × Int := (e / 3, e % 3)
noncomputable def cbrtConst (j : Int) : ℝ := cbrtR ((2 : ℝ) ^ j)

/-- The Newton-Raphson pass, as R309 prints it. -/
noncomputable def cbrtPass (d x : ℝ) : ℝ := x - (x ^ 3 * d - x) / 3

/-- The final correction step, from x near the cube root of m (R309); its formula is the model's (log 29). -/
noncomputable def cbrtCorrect (m x : ℝ) : ℝ := x - (x ^ 3 - m) / (3 * x ^ 2)

/-- FCBRT (R309): exponent split, the series sc of the mantissa m in [1, 2), k passes, the correction step, the
correction constant and the exponent.  R309 does not say what the pass's d is: the model takes x/m, with 1/m
found once, so that no pass divides and the cube root of m is where they rest.  Nor does it say where the
selected constant is multiplied in: after the correction step is the model's choice (log 29). -/
noncomputable def cbrtRoute (sc : ℝ → ℝ) (k : Nat) (x : ℝ) : ℝ :=
  let e := Int.log 2 |x|
  let m := |x| / (2 : ℝ) ^ e
  let w := 1 / m
  let qj := cbrtSplit e
  signed x (cbrtConst qj.2 * cbrtCorrect m ((fun c => cbrtPass (w * c) c)^[k] (sc m)) * (2 : ℝ) ^ qj.1)

/-! ### Hyperbolic: the spec names the parts and the branches, the formulas are the usual ones (log 27) -/

/-- FSINH from expm1; beyond the cutoff ±∞ (R337). -/
noncomputable def sinhRoute (em1 : ℝ → ℝ) (cut x : ℝ) : EReal :=
  let u := em1 |x|
  if cut < |x| then (if x < 0 then ⊥ else ⊤) else ((signed x ((u + u / (u + 1)) / 2) : ℝ) : EReal)

/-- FCOSH from exp; beyond the cutoff +∞ (R337). -/
noncomputable def coshRoute (ex : ℝ → ℝ) (cut x : ℝ) : EReal :=
  let e := ex |x|
  if cut < |x| then ⊤ else (((e + 1 / e) / 2 : ℝ) : EReal)

/-- FTANH from expm1; beyond the cutoff the asymptote ±1 (R337). -/
noncomputable def tanhRoute (em1 : ℝ → ℝ) (cut x : ℝ) : ℝ :=
  let u := em1 (2 * |x|)
  signed x (if cut < |x| then 1 else u / (u + 2))

/-- FASINH: by log1p near 0, by log above, and beyond the cutoff the asymptote ln 2|x| (R337). -/
noncomputable def asinhRoute (lg l1p : ℝ → ℝ) (near cut x : ℝ) : ℝ :=
  let a := |x|
  signed x (if cut < a then lg a + lg 2
    else if a ≤ near then l1p (a + a ^ 2 / (1 + Real.sqrt (a ^ 2 + 1)))
    else lg (a + Real.sqrt (a ^ 2 + 1)))

/-- FACOSH: by log1p near 1, by log above, and beyond the cutoff the asymptote ln 2x (R337). -/
noncomputable def acoshRoute (lg l1p : ℝ → ℝ) (near cut x : ℝ) : ℝ :=
  let t := x - 1
  if cut < x then lg x + lg 2
  else if t ≤ near then l1p (t + Real.sqrt (2 * t + t ^ 2))
  else lg (x + Real.sqrt (x ^ 2 - 1))

/-- FATANH: by log1p near 0, by log above, and beyond the cutoff ±∞ (R337). -/
noncomputable def atanhRoute (lg l1p : ℝ → ℝ) (near cut x : ℝ) : EReal :=
  let a := |x|
  if cut < a then (if x < 0 then ⊥ else ⊤)
  else ((signed x (1 / 2 * if a ≤ near then l1p (2 * a / (1 - a)) else lg ((1 + a) / (1 - a))) : ℝ) : EReal)

/-! ### Error functions -/

/-- The backward recurrence of depth n, from level k on, of the continued fraction for √π·e^(z²)·erfc z, z > 0
(R342; log 27). -/
noncomputable def erfcFraction (z : ℝ) : Nat → Nat → ℝ
  | 0, _ => z
  | n + 1, k => z + (k : ℝ) / 2 / erfcFraction z n (k + 1)

/-- The complementary formula for z > 0 (R342). -/
noncomputable def erfcCompl (ex : ℝ → ℝ) (n : Nat) (z : ℝ) : ℝ :=
  ex (-z ^ 2) / (Real.sqrt Real.pi * erfcFraction z n 1)

/-- The same for the continued fraction of (2z/√π)·e^(-z²)/erf z (R342; log 27). -/
noncomputable def erfFraction (z : ℝ) : Nat → Nat → ℝ
  | 0, k => 2 * k + 1
  | n + 1, k => 2 * k + 1 + (if k % 2 = 0 then -1 else 1) * (2 * (k + 1) * z ^ 2) / erfFraction z n (k + 1)

/-- The direct formula (R342). -/
noncomputable def erfDirect (ex : ℝ → ℝ) (n : Nat) (z : ℝ) : ℝ :=
  2 * z * ex (-z ^ 2) / (Real.sqrt Real.pi * erfFraction z n 0)

/-- FERF and FERFC (R342): the direct formula up to the threshold, the complementary one beyond it. -/
noncomputable def erfRoute (direct compl : ℝ → ℝ) (cut x : ℝ) : ℝ :=
  if |x| ≤ cut then direct x else signed x (1 - compl |x|)
noncomputable def erfcRoute (direct compl : ℝ → ℝ) (cut x : ℝ) : ℝ :=
  if |x| ≤ cut then 1 - direct x else if x < 0 then 2 - compl |x| else compl x

/-! ### Gamma -/

/-- The shift-product of n steps of Γ(z) = Γ(z+1)/z (R346, step 1). -/
def shiftProduct {K : Type} [Mul K] [Add K] [One K] (z : K) : Nat → K
  | 0 => 1
  | n + 1 => z * shiftProduct (z + 1) n

/-- How many steps bring z up into [R, R+1) (R346, step 1); none for a z beyond. -/
noncomputable def shiftSteps (R : Nat) (z : ℝ) : Nat := ⌈(R : ℝ) - z⌉.toNat

/-- The Stirling-like form of ln Γ: a Horner series in 1/z² over z, and the term (z-½)·ln z - z (R346, step 2);
the constant ½·ln 2π is the usual one (log 27). -/
noncomputable def stirling (lg : ℝ → ℝ) (cs : List ℝ) (z : ℝ) : ℝ :=
  (z - 1 / 2) * lg z - z + 1 / 2 * lg (2 * Real.pi) + horner (1 / z ^ 2) cs / z

/-- Γ and ln Γ of z > 0 by a series sg for ln Γ: shifted up, and the shift-product divided out (R346, steps 1 to
3). -/
noncomputable def gammaPos (sg ex : ℝ → ℝ) (R : Nat) (z : ℝ) : ℝ :=
  ex (sg (z + shiftSteps R z)) / shiftProduct z (shiftSteps R z)
noncomputable def lgammaPos (sg lg : ℝ → ℝ) (R : Nat) (z : ℝ) : ℝ :=
  sg (z + shiftSteps R z) - lg (shiftProduct z (shiftSteps R z))

/-- The sign of Γ, tracked separately (R346, step 4; R347). -/
noncomputable def gammaSign (z : ℝ) : Bool := decide (z < 0 ∧ ⌊z⌋ % 2 = 1)

/-- |Γ| and ln |Γ|, for a negative argument by the reflection formula (R346, step 4).  The rule names no kernel for
sin(πz): the model takes the exact sine (log 35), and for ln |Γ| the formula's logarithm (log 27). -/
noncomputable def gammaAbs (sg ex : ℝ → ℝ) (R : Nat) (z : ℝ) : ℝ :=
  if z < 0 then Real.pi / (|Real.sin (Real.pi * z)| * gammaPos sg ex R (1 - z)) else gammaPos sg ex R z
noncomputable def lgammaAbs (sg lg : ℝ → ℝ) (R : Nat) (z : ℝ) : ℝ :=
  if z < 0 then lg Real.pi - lg |Real.sin (Real.pi * z)| - lgammaPos sg lg R (1 - z) else lgammaPos sg lg R z

/-- FTGAMMA: the magnitude with the sign (R346). -/
noncomputable def gammaRoute (sg ex : ℝ → ℝ) (R : Nat) (z : ℝ) : ℝ :=
  if gammaSign z then -gammaAbs sg ex R z else gammaAbs sg ex R z

/-! ### Modulo -/

/-- The reciprocal of the divisor's mantissa n to k bits below the point, cut off (R353).  That it is cut off, not
rounded, is the model's choice (log 27). -/
def reciprocal (k n : Nat) : Nat := 2 ^ k / n

/-- One quotient digit of t over n (R353): estimated by multiplying with the reciprocal, subtracted, and put
right where the estimate was one too small (log 27). -/
def modDigit (k n t : Nat) : Nat × Nat :=
  let q := t * reciprocal k n / 2 ^ k
  let r := t - q * n
  if n ≤ r then (q + 1, r - n) else (q, r)

/-- The modulo loop (R353), with at most `fuel` iterations.  d bits are still to be brought down; each iteration
renormalizes the remainder r by as many of them as a digit of w bits takes, and adds a digit to the
quotient q.  `none` where the fuel runs out first. -/
def modLoop (k w n : Nat) : Nat → Nat → Nat × Nat → Option (Nat × Nat)
  | _, 0, qr => some qr
  | 0, _ + 1, _ => none
  | fuel + 1, d + 1, (q, r) =>
    let b := min (d + 1) w
    let g := modDigit k n (r * 2 ^ b)
    modLoop k w n fuel (d + 1 - b) (q * 2 ^ b + g.1, g.2)

/-- The loop's hard cap (R248, R353). -/
def loopCap : Nat := 2 ^ 20

/-- How many quotient bits an operand pair can have: the distance from x's exponent to that of y's lowest bit
(R353). -/
def loopCount (F : Fmt) (x y : Reg) : Nat :=
  match unpack F x, unpack F y with
  | .finite _ ex _, .finite _ ey _ => (ex - (ey - F.p)).toNat
  | _, _ => 0

/-- Quotient and remainder of |x| by |y| for finite nonzero operands (R353): a first digit from the mantissas,
then the loop, under its cap, over the distance of the exponents.  The model's choices (log 27): digits of w + 1
bits, a reciprocal kept to k = p + 2 + w bits, and the first digit taken before the loop, which counts only the
bits after it. -/
def modRun (F : Fmt) (w : Nat) (x y : Reg) : Option (Nat × Rat) :=
  match unpack F x, unpack F y with
  | .finite _ ex mx, .finite _ ey my =>
    if ey ≤ ex then
      let k := F.p + 2 + w
      (modLoop k (w + 1) my loopCap (ex - ey).toNat (modDigit k my mx)).map
        fun qr => (qr.1, (qr.2 : Rat) * pow2 (ey - F.p))
    else some (0, (mx : Rat) * pow2 (ex - F.p))
  | _, _ => none

/-- From the truncated quotient and remainder to those of the nearest quotient, ties to even (R351). -/
def modNearest (Y : Rat) (qr : Nat × Rat) : Nat × Rat :=
  if Y < 2 * qr.2 ∨ (2 * qr.2 = Y ∧ qr.1 % 2 = 1) then (qr.1 + 1, qr.2 - Y) else qr

end Sys2Proof.Kernel
end

