-- ==== Sys2Proof/Machine/Routes.lean ====
section
/-! DEFINITION. The evaluator put together: each command's route (R278 to R280, R307 to R310, R337, R342, R346,
R353) with its series and constants from the coefficient ROM, the digits of the 1/π ROM and its tuning, over
exact numbers, and the one rounding at the end (R245).  Mathematics only: the commands' results come from
`Config.evaluator`, of which nothing but the accuracy rule is known (R242; log 25). -/

namespace Sys2Proof.Kernel

open Sys2Proof

/-- What a route draws on: the ROMs, the tuning, and the format served (R41, R42, R9, R249). -/
structure Unit where
  rom : List CoefTable
  invPi : List Byte
  tune : ElemOp → Tuning
  fmt : Fmt

/-- The hardware's unit for a format (R9). -/
def Unit.hardware (F : Fmt) : Unit :=
  { rom := Config.coefRom, invPi := Config.invPiRom, tune := fun op => Config.tune op F, fmt := F }

/-! ### Series and constants -/

/-- The table of a function in the unit's format; empty where the ROM has none (R41). -/
def Unit.entries (u : Unit) (op : ElemOp) : List CoefEntry :=
  ((u.rom.find? fun t => decide (t.op = op ∧ t.fmt = u.fmt)).map (·.entries)).getD []

/-- A plain entry's value in the function's internal format; a split entry is no coefficient (log 10). -/
def plainVal (P : Nat) : CoefEntry → Option Rat
  | .plain c => some (literalVal P c)
  | .split _ _ => none

/-- A split entry's two parts. -/
def splitVal (P : Nat) : CoefEntry → Option (Rat × Rat)
  | .plain _ => none
  | .split a b => some (literalVal P a, literalVal P b)

/-- The coefficients of a function's polynomial: the plain entries, as many as its degree has (R247). -/
noncomputable def Unit.poly (u : Unit) (op : ElemOp) : List ℝ :=
  let T := u.tune op
  (((u.entries op).filterMap (plainVal T.workBits)).take (T.polynomialDegree + 1)).map (fun c : Rat => (c : ℝ))

/-- The polynomial of a function, by Horner's rule (R247). -/
noncomputable def Unit.series (u : Unit) (op : ElemOp) (v : ℝ) : ℝ := horner v (u.poly op)

/-- The split constant of a function: its table's first split entry (R247). -/
noncomputable def Unit.const (u : Unit) (op : ElemOp) : Split :=
  let c := ((u.entries op).findSome? (splitVal (u.tune op).workBits)).getD (0, 0)
  { upper := c.1, lower := c.2 }

/-! ### The shared routes

Where a command's route is built from another function's (the spec's exp, log, expm1 and log1p inside FPOW, the
hyperbolic, error and gamma functions: R310, R337, R342, R346), that function runs with its own tables and
tuning; and FSIN and FCOS share the series of the sine and of the cosine.  The spec does not say so: it is the
model's choice (log 33).  Square roots, π, and the sine of Γ's reflection formula run no kernel: the model takes
the exact numbers (log 35). -/

noncomputable def Unit.exp (u : Unit) : ℝ → ℝ :=
  expRoute (u.series .exp) (u.tune .exp).squarings.val (u.const .exp)
noncomputable def Unit.expm1 (u : Unit) : ℝ → ℝ :=
  expm1Route (u.series .expm1) (u.tune .expm1).squarings.val (u.const .expm1)
noncomputable def Unit.log (u : Unit) : ℝ → ℝ :=
  logRoute (u.series .log) (u.tune .log).rootReductions (u.const .log)
noncomputable def Unit.log1p (u : Unit) : ℝ → ℝ :=
  log1pRoute (u.series .log1p) (u.tune .log1p).rootReductions (u.const .log1p)

/-- The range reduction of an operand, with the ROM's digits of 1/π and the command's tuning (R42, R246). -/
def Unit.reduce (u : Unit) (op : ElemOp) (a : Reg) : Fin 4 × Rat :=
  payneHanek u.invPi ((u.tune op).tableBlock + 1) (u.tune op).workBits u.fmt a
noncomputable def Unit.reduced (u : Unit) (op : ElemOp) (a : Reg) : Fin 4 × ℝ :=
  ((u.reduce op a).1, ((u.reduce op a).2 : ℝ))

noncomputable def Unit.erfDirect (u : Unit) (op : ElemOp) : ℝ → ℝ :=
  Kernel.erfDirect u.exp (u.tune op).fractionDepth
noncomputable def Unit.erfcCompl (u : Unit) (op : ElemOp) : ℝ → ℝ :=
  Kernel.erfcCompl u.exp (u.tune op).fractionDepth
noncomputable def Unit.stirling (u : Unit) (op : ElemOp) : ℝ → ℝ := Kernel.stirling u.log (u.poly op)

/-! ### The commands -/

/-- A modulo command: the loop's remainder with the sign of x, and 0 where the loop stopped at its cap (never:
`modRun_eq`); near for FREMAINDER and FREMQUO (R350, R351, R353). -/
def Unit.modulo (u : Unit) (near : Bool) (op : ElemOp) (x y : Reg) : Int × Rat :=
  let F := u.fmt
  let qr := (modRun F (u.tune op).workBits x y).getD (0, 0)
  let qr := if near then modNearest |valF F y| qr else qr
  ((if signBit F x ^^ signBit F y then -(qr.1 : Int) else qr.1), if signBit F x then -qr.2 else qr.2)

/-- What the unit computes for the operand patterns a and b in the general case (R250).  Whose tables and tuning
the parts of a composed route use is the model's choice (log 33). -/
noncomputable def Unit.value (u : Unit) (op : ElemOp) (a b : Reg) : EReal :=
  let T := u.tune op
  let x := valF u.fmt a
  let y := valF u.fmt b
  match op with
  | .sin => (sinRoute (u.series .sin) (u.series .cos) (u.reduced .sin a) : ℝ)
  | .cos => (cosRoute (u.series .sin) (u.series .cos) (u.reduced .cos a) : ℝ)
  | .tan => (tanRoute (u.series .tan) T.doubleAngles.val (u.reduced .tan a) : ℝ)
  | .asin => (asinRoute (oddSeries (u.poly .asin)) T.halfAngles.val x : ℝ)
  | .acos => (acosRoute (oddSeries (u.poly .acos)) T.halfAngles.val x : ℝ)
  | .atan => (atanRoute (oddSeries (u.poly .atan)) T.halfAngles.val x : ℝ)
  | .atan2 => (atan2Route (oddSeries (u.poly .atan2)) T.halfAngles.val x y : ℝ)
  | .exp => (u.exp x : ℝ)
  | .expm1 => (u.expm1 x : ℝ)
  | .log => (u.log x : ℝ)
  | .log1p => (u.log1p x : ℝ)
  | .pow => (powRoute u.log u.exp x y : ℝ)
  | .cbrt => (cbrtRoute (u.series .cbrt) T.newtonPasses.val x : ℝ)
  | .sinh => sinhRoute u.expm1 T.magnitudeCutoff x
  | .cosh => coshRoute u.exp T.magnitudeCutoff x
  | .tanh => (tanhRoute u.expm1 T.magnitudeCutoff x : ℝ)
  | .asinh => (asinhRoute u.log u.log1p T.log1pCutoff T.magnitudeCutoff x : ℝ)
  | .acosh => (acoshRoute u.log u.log1p T.log1pCutoff T.magnitudeCutoff x : ℝ)
  | .atanh => atanhRoute u.log u.log1p T.log1pCutoff T.magnitudeCutoff x
  | .erf => (erfRoute (u.erfDirect .erf) (u.erfcCompl .erf) T.erfCutoff x : ℝ)
  | .erfc => (erfcRoute (u.erfDirect .erfc) (u.erfcCompl .erfc) T.erfCutoff x : ℝ)
  | .tgamma => (gammaRoute (u.stirling .tgamma) u.exp T.gammaRegion x : ℝ)
  | .lgamma => (lgammaAbs (u.stirling .lgamma) u.log T.gammaRegion x : ℝ)
  | .fmod => (((u.modulo false .fmod a b).2 : ℝ) : EReal)
  | .remainder => (((u.modulo true .remainder a b).2 : ℝ) : EReal)

/-- The one rounding at the end (R129, R245), with the sign s for a zero (log 27). -/
noncomputable def finish (F : Fmt) (s : Bool) (v : EReal) : Reg :=
  if v = ⊤ then infF F false
  else if v = ⊥ then infF F true
  else if v = 0 then zeroF F s
  else rneSignedR F v.toReal

/-- The unit's result: its value, rounded once, a zero with the sign of the first operand. -/
noncomputable def Unit.run (u : Unit) (op : ElemOp) (a b : Reg) : Reg :=
  finish u.fmt (signBit u.fmt a) (u.value op a b)

end Sys2Proof.Kernel
end

