-- ==== Sys2Proof/Laws/Kernels.lean ====
section
/-! SUPPORT. The evaluator's routes lead to the functions the commands name, where their series and constants are
exact. -/

namespace Sys2Proof.Kernel

open Sys2Proof

/-! ### Coefficients and digits -/

/-- Horner evaluation is the polynomial (R247). -/
theorem horner_eq (x : ℝ) (cs : List ℝ) :
    horner x cs = ((List.range cs.length).map fun k => cs.getD k 0 * x ^ k).sum := by
  induction cs with
  | nil => rfl
  | cons c cs ih =>
    rw [horner, ih, List.length_cons, List.range_succ_eq_map, List.map_cons, List.sum_cons, List.map_map,
      ← List.sum_map_mul_left]
    congr 1
    · simp
    · congr 1; apply List.map_congr_left; intro k _; simp [pow_succ]; ring

/-- The exponent stays in 32 bits, and moves only beyond them (R45). -/
theorem extExponent_spec (e : Int) :
    -2 ^ 31 ≤ extExponent e ∧ extExponent e < 2 ^ 31 ∧ (-2 ^ 31 ≤ e → e < 2 ^ 31 → extExponent e = e) := by
  unfold extExponent; omega

theorem digitsVal_range (bs : List Byte) : 0 ≤ digitsVal bs ∧ digitsVal bs < 1 := by
  induction bs with
  | nil => exact ⟨le_refl _, by norm_num [digitsVal]⟩
  | cons b bs ih =>
    have hb : (b.toNat : ℚ) ≤ 255 := by exact_mod_cast Nat.le_of_lt_succ b.isLt
    have h0 : (0 : ℚ) ≤ b.toNat := Nat.cast_nonneg _
    rw [digitsVal]
    constructor
    · have := ih.1; positivity
    · have := ih.2; rw [div_lt_one (by norm_num)]; linarith

/-! ### Trigonometric -/

theorem romInt_lt (bs : List Byte) : romInt bs < 256 ^ bs.length := by
  induction bs with
  | nil => exact Nat.one_pos
  | cons b bs ih =>
    have hb : b.toNat ≤ 255 := Nat.le_of_lt_succ b.isLt
    rw [romInt, List.length_cons, pow_succ']
    nlinarith [Nat.mul_le_mul_right (256 ^ bs.length) hb]

/-- The two readings of the ROM are one (R42). -/
theorem digitsVal_eq (bs : List Byte) : digitsVal bs = (romInt bs : ℚ) / 256 ^ bs.length := by
  induction bs with
  | nil => simp [digitsVal, romInt]
  | cons b bs ih =>
    rw [digitsVal, romInt, ih, List.length_cons, pow_succ]
    push_cast
    field_simp

/-- The ROM holds the first digits of 1/π. -/
def DigitsOfInvPi (rom : List Byte) : Prop :=
  (digitsVal rom : ℝ) ≤ 1 / Real.pi ∧ 1 / Real.pi < digitsVal rom + 1 / 256 ^ rom.length

/-- What a product with K digits leaves out: it is short of the fraction of a turn by less than m/2^s (R246). -/
theorem turnFraction_spec {rom : List Byte} (h : DigitsOfInvPi rom) {t : Int} {m K : Nat} (hm : 0 < m)
    (hK : digitOffset t + K ≤ 8 * rom.length) :
    ∃ k : ℤ, ∃ δ : ℝ, 0 ≤ δ ∧ δ < m / 2 ^ (turnFraction rom t m K).2 ∧
      (m * (2 : ℝ) ^ t) / (2 * Real.pi) =
        k + (turnFraction rom t m K).1 / 2 ^ (turnFraction rom t m K).2 + δ := by
  simp only [turnFraction, digitWindow]
  set o := digitOffset t with ho
  set s := ((K : Int) + 1 + o - t).toNat with hs
  have hst : (s : Int) = K + 1 + o - t := by simp only [digitOffset] at ho; omega
  set a := 8 * rom.length - (o + K) with ha
  have hlen : 8 * rom.length = a + K + o := by omega
  have hN : romInt rom < 2 ^ (8 * rom.length) := by
    have := romInt_lt rom; rwa [show (256 : ℕ) = 2 ^ 8 by rfl, ← pow_mul] at this
  have hp256 : (256 : ℝ) ^ rom.length = 2 ^ (8 * rom.length) := by
    rw [show (256 : ℝ) = 2 ^ 8 by norm_num, ← pow_mul]
  obtain ⟨h1, h2⟩ := h
  have hdv : ((digitsVal rom : ℚ) : ℝ) = romInt rom / 2 ^ (8 * rom.length) := by
    rw [digitsVal_eq]; push_cast; rw [hp256]
  rw [hdv, hp256] at h2
  rw [hdv] at h1
  set N := romInt rom
  set H := N / 2 ^ a / 2 ^ K with hH
  set D := N / 2 ^ a % 2 ^ K with hD
  have e1 : N = (H * 2 ^ K + D) * 2 ^ a + N % 2 ^ a := by
    rw [hH, hD, Nat.mul_comm (N / 2 ^ a / 2 ^ K), Nat.div_add_mod, Nat.mul_comm, Nat.div_add_mod]
  have hr : N % 2 ^ a < 2 ^ a := Nat.mod_lt _ (by positivity)
  have hp : (0 : ℝ) < 2 ^ (8 * rom.length) := by positivity
  -- the tail of the digits, in units of the last one taken
  obtain ⟨τ, t0, t1, te⟩ : ∃ τ : ℝ, 0 ≤ τ ∧ τ < 1 ∧
      1 / Real.pi * 2 ^ (o + K) = H * 2 ^ K + D + τ := by
    have hpa : (0 : ℝ) < 2 ^ a := by positivity
    have e1r : (N : ℝ) = (H * 2 ^ K + D) * 2 ^ a + (N % 2 ^ a : ℕ) := by exact_mod_cast e1
    have hrr : ((N % 2 ^ a : ℕ) : ℝ) + 1 ≤ 2 ^ a := by exact_mod_cast hr
    have hr0 : (0 : ℝ) ≤ ((N % 2 ^ a : ℕ) : ℝ) := Nat.cast_nonneg _
    have hsplit : (2 : ℝ) ^ (8 * rom.length) = 2 ^ a * 2 ^ (o + K) := by
      rw [← pow_add]; congr 1; omega
    have g1 : (N : ℝ) ≤ 1 / Real.pi * (2 ^ a * 2 ^ (o + K)) := by
      rw [← hsplit]; rwa [div_le_iff₀ hp] at h1
    have g2 : 1 / Real.pi * (2 ^ a * 2 ^ (o + K)) < N + 1 := by
      rw [← hsplit]; rwa [← add_div, lt_div_iff₀ hp] at h2
    refine ⟨1 / Real.pi * 2 ^ (o + K) - (H * 2 ^ K + D), ?_, ?_, by ring⟩
    · have : 0 ≤ 2 ^ a * (1 / Real.pi * 2 ^ (o + K) - (H * 2 ^ K + D)) := by linarith
      exact nonneg_of_mul_nonneg_right this hpa
    · have : 2 ^ a * (1 / Real.pi * 2 ^ (o + K) - (H * 2 ^ K + D)) < 2 ^ a * 1 := by linarith
      exact lt_of_mul_lt_mul_left this hpa.le
  have hps : (0 : ℝ) < 2 ^ s := by positivity
  have hx : (m * (2 : ℝ) ^ t) / (2 * Real.pi) = m * (H * 2 ^ K + D + τ) / 2 ^ s := by
    rw [← te, eq_div_iff hps.ne', ← zpow_natCast (2 : ℝ) s, ← zpow_natCast (2 : ℝ) (o + K), hst,
      show ((o + K : ℕ) : ℤ) = t + (K + 1 + o - t) - 1 by push_cast; ring, zpow_sub_one₀ (by norm_num),
      zpow_add₀ (by norm_num) t]
    field_simp
  -- the whole turns
  have hint : ∃ c : ℕ, m * (H * 2 ^ K) = c * 2 ^ s := by
    by_cases h1t : 1 ≤ t
    · refine ⟨m * H, ?_⟩
      have : s = K := by simp only [digitOffset] at ho; omega
      rw [this, mul_assoc]
    · refine ⟨0, ?_⟩
      have : H = 0 := by
        rw [hH, Nat.div_div_eq_div_mul, ← pow_add]
        apply Nat.div_eq_of_lt
        have : a + K = 8 * rom.length := by simp only [digitOffset] at ho; omega
        rwa [this]
      rw [this]; simp
  obtain ⟨c, hc⟩ := hint
  have e2 := Nat.div_add_mod (m * D) (2 ^ s)
  generalize m * D / 2 ^ s = W at e2
  generalize m * D % 2 ^ s = R at e2 ⊢
  refine ⟨c + W, m * τ / 2 ^ s, by positivity, ?_, ?_⟩
  · rw [div_lt_div_iff_of_pos_right hps]
    have : (0 : ℝ) < m := by exact_mod_cast hm
    nlinarith
  · have e2r : ((2 : ℝ) ^ s * W + R) = m * D := by exact_mod_cast e2
    have e3 : (m : ℝ) * (H * 2 ^ K) = c * 2 ^ s := by exact_mod_cast hc
    rw [hx]
    push_cast
    field_simp
    linear_combination e3 - e2r

/-- Whatever the fraction, what is left is in [-1/4, 1/4] (R246). -/
theorem quadrantOf_range (vs : Nat × Nat) : |(quadrantOf vs).2| ≤ 1 / 4 := by
  have hp : (0 : ℚ) < 2 ^ vs.2 := by positivity
  simp only [quadrantOf]
  set n := (8 * vs.1 + 2 ^ vs.2) / 2 ^ (vs.2 + 1) with hn
  have h1 := Nat.div_add_mod (8 * vs.1 + 2 ^ vs.2) (2 ^ (vs.2 + 1))
  have h2 := Nat.mod_lt (8 * vs.1 + 2 ^ vs.2) (show 0 < 2 ^ (vs.2 + 1) by positivity)
  rw [← hn] at h1
  rw [pow_succ] at h1 h2
  have h3 : (2 ^ vs.2 * 2 * n : ℚ) ≤ 8 * vs.1 + 2 ^ vs.2 := by exact_mod_cast (by omega)
  have h4 : (8 * vs.1 + 2 ^ vs.2 : ℚ) < 2 ^ vs.2 * 2 * n + 2 ^ vs.2 * 2 := by exact_mod_cast (by omega)
  rw [abs_le]
  constructor
  · rw [← sub_nonneg, show 2 * (vs.1 : ℚ) / 2 ^ vs.2 - n / 2 - -(1 / 4) =
      (8 * vs.1 + 2 ^ vs.2 - 2 ^ vs.2 * 2 * n) / (4 * 2 ^ vs.2) by field_simp; ring]
    exact div_nonneg (by linarith) (by positivity)
  · rw [← sub_nonneg, show 1 / 4 - (2 * (vs.1 : ℚ) / 2 ^ vs.2 - n / 2) =
      (2 ^ vs.2 * 2 * n + 2 ^ vs.2 - 8 * vs.1) / (4 * 2 ^ vs.2) by field_simp; ring]
    exact div_nonneg (by linarith) (by positivity)

theorem payneHanek_range (rom : List Byte) (B P : Nat) (F : Fmt) (x : Reg) :
    |(payneHanek rom B P F x).2| ≤ 1 / 4 := by
  unfold payneHanek
  split
  · dsimp only; split
    · rw [abs_neg]; exact quadrantOf_range _
    · exact quadrantOf_range _
  · norm_num

/-- The extension ends with the product of some number of blocks, no more than the ROM has, and either it passes
the check or it has used every digit (R246, R248). -/
theorem extendTable_spec {rom : List Byte} {B p P : Nat} {t : Int} {m : Nat} (fuel j : Nat) :
    ∃ i, i ≤ j + fuel ∧ extendTable rom B p P t m fuel j = turnFraction rom t m (blockDigits rom B t i) ∧
      (separated p P (extendTable rom B p P t m fuel j) = true ∨ i = j + fuel) := by
  induction fuel generalizing j with
  | zero => exact ⟨j, le_refl _, rfl, .inr rfl⟩
  | succ fuel ih =>
    simp only [extendTable]
    split
    · exact ⟨j, by omega, rfl, .inl ‹_›⟩
    · obtain ⟨i, h1, h2, h3⟩ := ih (j + 1)
      exact ⟨i, by omega, h2, by rwa [show j + (fuel + 1) = j + 1 + fuel by omega]⟩

theorem blockDigits_all {rom : List Byte} {B : Nat} (hB : 0 < B) {t : Int} :
    blockDigits rom B t (1 + blocksLeft rom B t) = 8 * rom.length - digitOffset t := by
  rw [blockDigits, blocksLeft]
  apply min_eq_right
  have := Nat.lt_mul_div_succ (8 * rom.length - digitOffset t) (show 0 < 8 * B by omega)
  rw [Nat.add_comm 1]; exact this.le

/-- A fraction that passes the check is far from the boundary next to what it lacks (R246). -/
theorem separated_spec {p P : Nat} {vs : Nat × Nat} (hv : vs.1 < 2 ^ vs.2) (h : separated p P vs = true) :
    (2 : ℚ) ^ (p + 2) * 2 ^ P / 2 ^ vs.2 ≤ |(quadrantOf vs).2| := by
  obtain ⟨v, s⟩ := vs
  simp only [separated, leadingZeros, quadrantOf] at h ⊢
  replace h := of_decide_eq_true h
  have hp : 0 < 2 ^ s := by positivity
  have hg := Nat.mod_lt (4 * v) hp
  have hc := Nat.div_add_mod (4 * v) (2 ^ s)
  set g := 4 * v % 2 ^ s
  set c := 4 * v / 2 ^ s
  have size : ∀ b : ℕ, s - Nat.size b + P + p + 4 ≤ s → b < 2 ^ s → 2 ^ (P + p + 3) ≤ b := by
    intro b h1 h2
    have := Nat.size_le.mpr h2
    exact Nat.lt_size.mp (by omega)
  have h1 := size g (by omega) hg
  have h2 := size (2 ^ s - 1 - g) (by omega) (by omega)
  set n := (8 * v + 2 ^ s) / 2 ^ (s + 1)
  have key : (2 : ℤ) ^ (P + p + 3) ≤ |4 * (v : ℤ) - n * 2 ^ s| := by
    have hcz : (2 : ℤ) ^ s * c + g = 4 * v := by exact_mod_cast hc
    have h1z : (2 : ℤ) ^ (P + p + 3) ≤ g := by exact_mod_cast h1
    have h2z : (2 : ℤ) ^ (P + p + 3) + g ≤ 2 ^ s := by exact_mod_cast (by omega : 2 ^ (P + p + 3) + g ≤ 2 ^ s)
    have hpz : (0 : ℤ) < 2 ^ s := by positivity
    rcases le_or_gt (n : ℤ) c with hn | hn
    · have : (2 : ℤ) ^ s * n ≤ 2 ^ s * c := mul_le_mul_of_nonneg_left hn hpz.le
      exact le_abs.mpr (.inl (by linarith))
    · have : (2 : ℤ) ^ s * (c + 1) ≤ 2 ^ s * n := mul_le_mul_of_nonneg_left hn hpz.le
      exact le_abs.mpr (.inr (by linarith))
  have keyq : (2 : ℚ) ^ (P + p + 3) ≤ |4 * (v : ℚ) - n * 2 ^ s| := by exact_mod_cast key
  have hpq : (0 : ℚ) < 2 ^ s := by positivity
  have e : 2 * (v : ℚ) / 2 ^ s - n / 2 = (4 * v - n * 2 ^ s) / (2 * 2 ^ s) := by field_simp; ring
  rw [e, abs_div, abs_of_pos (by positivity : (0 : ℚ) < 2 * 2 ^ s), div_le_div_iff₀ hpq (by positivity)]
  rw [show (2 : ℚ) ^ (P + p + 3) = 2 * (2 ^ (p + 2) * 2 ^ P) by rw [← pow_add, ← pow_succ']; congr 1; omega] at keyq
  nlinarith

/-- What the reduction gives a positive argument m·2^t: a remainder short of the true one by less than 2m/2^s. -/
theorem quadrantOf_turn {y δ : ℝ} {k : ℤ} {v s m : ℕ} (h0 : 0 ≤ δ) (h1 : δ < (m : ℝ) / 2 ^ s)
    (h : y / (2 * Real.pi) = k + v / 2 ^ s + δ) :
    ∃ r' : ℝ, y = ((quadrantOf (v, s)).1 / 2 + r') * Real.pi + 2 * Real.pi * k ∧
      |r' - (quadrantOf (v, s)).2| ≤ 2 * m / 2 ^ s := by
  have hpi := Real.pi_pos
  refine ⟨((quadrantOf (v, s)).2 : ℝ) + 2 * δ, ?_, ?_⟩
  · rw [div_eq_iff (by positivity)] at h
    rw [h]; simp only [quadrantOf]; push_cast; ring
  · rw [add_sub_cancel_left, abs_of_nonneg (by linarith), mul_div_assoc]; linarith

/-- With the digits of 1/π in the ROM the reduction gives the quadrant code and the remainder r' of x, the latter
but for an error below 2m/2^s, which is at most 2^-P of it unless every digit of the ROM has been used (R246). -/
theorem payneHanek_spec {rom : List Byte} (h : DigitsOfInvPi rom) {B P : Nat} (hB : 0 < B) {F : Fmt} {x : Reg}
    {neg : Bool} {e : Int} {m : Nat} (hx : unpack F x = .finite neg e m)
    (ho : digitOffset (e - F.p) ≤ 8 * rom.length) :
    ∃ K : ℕ, ∃ r' : ℝ,
      (∃ k : ℤ, valR F x = (((payneHanek rom B P F x).1.val : ℝ) / 2 + r') * Real.pi + 2 * Real.pi * k) ∧
      |r' - (payneHanek rom B P F x).2| ≤ 2 * m / 2 ^ (turnFraction rom (e - F.p) m K).2 ∧
      (|r' - (payneHanek rom B P F x).2| ≤ |((payneHanek rom B P F x).2 : ℝ)| / 2 ^ P ∨
        digitOffset (e - F.p) + K = 8 * rom.length) := by
  have ok := finiteOk_of_unpack hx
  have hval : |valR F x| = m * (2 : ℝ) ^ (e - F.p) := by
    have := abs_valF hx
    rw [pow2_eq] at this
    rw [valR, ← Rat.cast_abs, this]; push_cast; rfl
  set t := e - F.p with ht
  obtain ⟨i, hi, hvs, hend⟩ := extendTable_spec (rom := rom) (B := B) (p := F.p) (P := P) (t := t) (m := m)
    (blocksLeft rom B t) 1
  set K := blockDigits rom B t i with hKd
  have hK : digitOffset t + K ≤ 8 * rom.length := by simp only [hKd, blockDigits]; omega
  obtain ⟨k, δ, d0, d1, hy⟩ := turnFraction_spec h ok.pos hK
  have hlt : (turnFraction rom t m K).1 < 2 ^ (turnFraction rom t m K).2 := Nat.mod_lt _ (by positivity)
  rw [hvs] at hend
  have hph : payneHanek rom B P F x =
      (if neg then (Fin.ofNat 4 (3 * (quadrantOf (turnFraction rom t m K)).1), -(quadrantOf (turnFraction rom t m K)).2)
      else (Fin.ofNat 4 (quadrantOf (turnFraction rom t m K)).1, (quadrantOf (turnFraction rom t m K)).2)) := by
    simp only [payneHanek, hx]; rw [← ht, hvs]
  generalize hKs : turnFraction rom t m K = vs at hy d1 hlt hend hph
  obtain ⟨v, s⟩ := vs
  obtain ⟨r', hr, hb⟩ := quadrantOf_turn d0 d1 hy
  have hrel : |r' - (quadrantOf (v, s)).2| ≤ |((quadrantOf (v, s)).2 : ℝ)| / 2 ^ P ∨
      digitOffset t + K = 8 * rom.length := by
    rcases hend with hs | hs
    · left
      have hq := separated_spec hlt hs
      have hqr : (2 : ℝ) ^ (F.p + 2) * 2 ^ P / 2 ^ s ≤ |((quadrantOf (v, s)).2 : ℝ)| := by
        have := (Rat.cast_le (K := ℝ)).mpr hq; push_cast at this; exact this
      have hm : (m : ℝ) ≤ 2 ^ (F.p + 1) := by exact_mod_cast ok.lt.le
      rw [le_div_iff₀ (by positivity)]
      refine le_trans ?_ hqr
      rw [mul_div_right_comm]
      refine mul_le_mul_of_nonneg_right (hb.trans ?_) (by positivity)
      rw [div_le_div_iff_of_pos_right (by positivity), pow_succ _ (F.p + 1)]; linarith
    · right
      rw [hKd, hs, blockDigits_all hB]; omega
  obtain ⟨c, hc⟩ : ∃ c : ℤ, ((quadrantOf (v, s)).1 : ℤ) = ((quadrantOf (v, s)).1 % 4 : ℕ) + 4 * c :=
    ⟨((quadrantOf (v, s)).1 / 4 : ℕ), by omega⟩
  obtain ⟨c', hc'⟩ : ∃ c' : ℤ, -((quadrantOf (v, s)).1 : ℤ) = (3 * (quadrantOf (v, s)).1 % 4 : ℕ) + 4 * c' :=
    ⟨(3 * (quadrantOf (v, s)).1 / 4 : ℕ) - ((quadrantOf (v, s)).1 : ℤ), by omega⟩
  have hcr : ((quadrantOf (v, s)).1 : ℝ) = ((quadrantOf (v, s)).1 % 4 : ℕ) + 4 * c := by
    have := congrArg (Int.cast : ℤ → ℝ) hc
    simpa only [Int.cast_add, Int.cast_mul, Int.cast_natCast, Int.cast_ofNat] using this
  have hcr' : -((quadrantOf (v, s)).1 : ℝ) = (3 * (quadrantOf (v, s)).1 % 4 : ℕ) + 4 * c' := by
    have := congrArg (Int.cast : ℤ → ℝ) hc'
    simpa only [Int.cast_add, Int.cast_neg, Int.cast_mul, Int.cast_natCast, Int.cast_ofNat] using this
  rw [← hval] at hr
  rw [hph]
  refine ⟨K, if neg then -r' else r', ?_⟩
  rw [hKs]
  cases neg
  · have : 0 < valR F x := by rw [valR]; exact_mod_cast (valF_pos_iff hx).mpr rfl
    rw [abs_of_pos this, hcr] at hr
    simp only [Bool.false_eq_true, if_false, Fin.val_ofNat]
    exact ⟨⟨k + c, by rw [hr]; push_cast; ring⟩, hb, hrel⟩
  · have : valR F x < 0 := by rw [valR]; exact_mod_cast (valF_neg_iff hx).mpr rfl
    rw [abs_of_neg this] at hr
    simp only [if_true, Fin.val_ofNat, Rat.cast_neg, abs_neg, sub_neg_eq_add, neg_add_eq_sub]
    rw [abs_sub_comm] at hb hrel
    refine ⟨⟨-k + c', ?_⟩, hb, hrel⟩
    push_cast
    linear_combination -hr + Real.pi / 2 * hcr'

/-- A double-angle pass doubles the angle (R279). -/
theorem tanDouble_tan (θ : ℝ) : tanDouble (Real.tan θ) = Real.tan (2 * θ) := by
  rw [tanDouble, Real.tan_two_mul]

theorem tanDouble_iterate (k : Nat) (θ : ℝ) : tanDouble^[k] (Real.tan θ) = Real.tan (2 ^ k * θ) := by
  induction k generalizing θ with
  | zero => simp
  | succ k ih => rw [Function.iterate_succ_apply, tanDouble_tan, ih, pow_succ]; congr 1; ring

/-- From any reduction of x and the exact tangent of the reduced angle FTAN's route is the tangent (R279). -/
theorem tanRoute_eq (k : Nat) {x r : ℝ} {q : Fin 4} (h : Reduces x q r) :
    tanRoute (fun r => Real.tan (r * Real.pi)) k (q, r) = Real.tan x := by
  obtain ⟨-, c, hx⟩ := h
  simp only [tanRoute]
  rw [show r / 2 ^ k * Real.pi = r * Real.pi / 2 ^ k by ring, tanDouble_iterate,
    mul_div_cancel₀ _ (by positivity)]
  split
  · obtain ⟨n, hn⟩ : ∃ n : ℕ, q.val = 2 * n := ⟨q.val / 2, by omega⟩
    rw [hx, hn]; push_cast
    rw [show (2 * (n : ℝ) / 2 + r) * Real.pi + 2 * Real.pi * c = r * Real.pi + ((n + 2 * c : ℤ) : ℝ) * Real.pi by
      push_cast; ring, Real.tan_add_int_mul_pi]
  · obtain ⟨n, hn⟩ : ∃ n : ℕ, q.val = 2 * n + 1 := ⟨q.val / 2, by omega⟩
    rw [hx, hn]; push_cast
    rw [show ((2 * (n : ℝ) + 1) / 2 + r) * Real.pi + 2 * Real.pi * c =
        r * Real.pi + Real.pi / 2 + ((n + 2 * c : ℤ) : ℝ) * Real.pi by push_cast; ring,
      Real.tan_add_int_mul_pi, Real.tan_eq_sin_div_cos (r * Real.pi + Real.pi / 2), Real.sin_add_pi_div_two,
      Real.cos_add_pi_div_two, Real.tan_eq_sin_div_cos, neg_div, one_div_div, div_neg]

/-- A half-angle reduction halves the angle (R280). -/
theorem arctan_eq_two_mul_atanHalf (d : ℝ) : Real.arctan d = 2 * Real.arctan (atanHalf d) := by
  have hs : 1 ≤ Real.sqrt (1 + d ^ 2) := by
    rw [Real.one_le_sqrt]; nlinarith [sq_nonneg d]
  have hsq : Real.sqrt (1 + d ^ 2) ^ 2 = 1 + d ^ 2 := Real.sq_sqrt (by positivity)
  have hlt : |atanHalf d| < 1 := by
    rw [atanHalf, abs_div, abs_of_pos (show 0 < Real.sqrt (1 + d ^ 2) + 1 by linarith),
      div_lt_one (by linarith)]
    have : |d| ≤ Real.sqrt (1 + d ^ 2) := Real.abs_le_sqrt (by linarith)
    linarith
  have hm : atanHalf d * atanHalf d < 1 := by
    nlinarith [abs_mul_abs_self (atanHalf d), abs_nonneg (atanHalf d)]
  rw [two_mul, Real.arctan_add hm]
  congr 1
  have h1 : Real.sqrt (1 + d ^ 2) + 1 ≠ 0 := by linarith
  have h2 : 1 - atanHalf d * atanHalf d ≠ 0 := by linarith
  rw [eq_div_iff h2, atanHalf]
  field_simp
  linear_combination d * hsq

/-- Reducing, and doubling afterwards, gives the arctangent back (R280, steps 2 to 4). -/
theorem atanCore_eq (k : Nat) (d : ℝ) : atanCore Real.arctan k d = Real.arctan d := by
  rw [atanCore]
  induction k generalizing d with
  | zero => simp
  | succ k ih => rw [Function.iterate_succ_apply, pow_succ, mul_right_comm, ih, arctan_eq_two_mul_atanHalf d]; ring

/-- The polar coordinates of a point of the first quadrant, by the arctangent. -/
theorem polar_arctan {p q : ℝ} (hq : 0 < q) :
    Real.sqrt (p ^ 2 + q ^ 2) * Real.cos (Real.arctan (p / q)) = q ∧
    Real.sqrt (p ^ 2 + q ^ 2) * Real.sin (Real.arctan (p / q)) = p := by
  have hr : Real.sqrt (p ^ 2 + q ^ 2) = q * Real.sqrt (1 + (p / q) ^ 2) := by
    rw [show p ^ 2 + q ^ 2 = q ^ 2 * (1 + (p / q) ^ 2) by field_simp; ring, Real.sqrt_mul (by positivity),
      Real.sqrt_sq hq.le]
  have hs : Real.sqrt (1 + (p / q) ^ 2) ≠ 0 := (Real.sqrt_pos.mpr (by positivity)).ne'
  rw [hr, Real.cos_arctan, Real.sin_arctan]
  constructor <;> field_simp

/-- With an exact series the route of FATAN2 is the angle of the point (x, y) (R277, R280). -/
theorem atan2Route_eq (k : Nat) {x y : ℝ} (h : x ≠ 0 ∨ y ≠ 0) :
    atan2Route Real.arctan k y x = Complex.arg ⟨x, y⟩ := by
  have hpi := Real.pi_pos
  set r := Real.sqrt (y ^ 2 + x ^ 2) with hr
  have hr0 : 0 < r := Real.sqrt_pos.mpr (by rcases h with h | h <;> positivity)
  -- the angle of (|x|, |y|)
  obtain ⟨t, ht, h0, h1, hc, hs⟩ : ∃ t, (if |y| ≤ |x| then atanCore Real.arctan k (|y| / |x|)
      else Real.pi / 2 - atanCore Real.arctan k (|x| / |y|)) = t ∧ 0 ≤ t ∧ t ≤ Real.pi / 2 ∧
      r * Real.cos t = |x| ∧ r * Real.sin t = |y| := by
    refine ⟨_, rfl, ?_⟩
    split
    · have hx : 0 < |x| := by
        rcases h with h | h
        · exact abs_pos.mpr h
        · exact (abs_pos.mpr h).trans_le ‹_›
      obtain ⟨e1, e2⟩ := polar_arctan (p := |y|) hx
      rw [sq_abs, sq_abs, ← hr] at e1 e2
      rw [atanCore_eq]
      exact ⟨Real.arctan_nonneg.mpr (by positivity), (Real.arctan_lt_pi_div_two _).le, e1, e2⟩
    · have hy : 0 < |y| := (abs_nonneg x).trans_lt (not_le.mp ‹_›)
      obtain ⟨e1, e2⟩ := polar_arctan (p := |x|) hy
      rw [sq_abs, sq_abs, add_comm, ← hr] at e1 e2
      rw [atanCore_eq, Real.cos_pi_div_two_sub, Real.sin_pi_div_two_sub]
      have h1 : 0 ≤ Real.arctan (|x| / |y|) := Real.arctan_nonneg.mpr (by positivity)
      exact ⟨by linarith [Real.arctan_lt_pi_div_two (|x| / |y|)], by linarith, e2, e1⟩
  -- reflected into the half-plane of x
  obtain ⟨t', ht', h0', h1', hc', hs'⟩ : ∃ t', (if x < 0 then Real.pi - t else t) = t' ∧ 0 ≤ t' ∧ t' ≤ Real.pi ∧
      r * Real.cos t' = x ∧ r * Real.sin t' = |y| := by
    refine ⟨_, rfl, ?_⟩
    split
    · rw [Real.cos_pi_sub, Real.sin_pi_sub]
      rw [abs_of_neg ‹_›] at hc
      exact ⟨by linarith, by linarith, by linarith, hs⟩
    · rw [abs_of_nonneg (not_lt.mp ‹_›)] at hc
      exact ⟨h0, by linarith, hc, hs⟩
  have key : ∀ θ, -Real.pi < θ → θ ≤ Real.pi → r * Real.cos θ = x → r * Real.sin θ = y →
      θ = Complex.arg ⟨x, y⟩ := by
    intro θ a b c d
    rw [← Complex.arg_mul_cos_add_sin_mul_I hr0 ⟨a, b⟩]
    congr 1
    apply Complex.ext
    · simp [← c, Complex.cos_ofReal_re]
    · simp [← d, Complex.sin_ofReal_re]
  simp only [atan2Route]
  rw [ht, ht', signed]
  split
  · rename_i hy
    rw [abs_of_neg hy] at hs'
    have : t' ≠ Real.pi := by rintro rfl; rw [Real.sin_pi] at hs'; linarith
    refine key _ (neg_lt_neg (lt_of_le_of_ne h1' this)) (by linarith) ?_ ?_
    · rw [Real.cos_neg, hc']
    · rw [Real.sin_neg]; linarith
  · rw [abs_of_nonneg (not_lt.mp ‹_›)] at hs'
    exact key _ (by linarith) h1' hc' hs'

/-- The identities that route FATAN, FASIN and FACOS through FATAN2 (R280). -/
theorem atanRoute_eq (k : Nat) (x : ℝ) : atanRoute Real.arctan k x = Real.arctan x := by
  rw [atanRoute, atan2Route_eq k (.inl one_ne_zero), Complex.arg, if_pos zero_le_one, Complex.norm_def,
    Complex.normSq_mk, Real.arctan_eq_arcsin]
  congr 2
  ring_nf

theorem norm_unit_point {a b : ℝ} (h : a ^ 2 + b ^ 2 = 1) : ‖(⟨a, b⟩ : ℂ)‖ = 1 := by
  rw [Complex.norm_def, Complex.normSq_mk, ← pow_two, ← pow_two, h, Real.sqrt_one]

theorem sqrt_one_sub_sq {x : ℝ} (h : |x| ≤ 1) : Real.sqrt (1 - x ^ 2) ^ 2 + x ^ 2 = 1 := by
  have := abs_le.mp h
  rw [Real.sq_sqrt (by nlinarith)]; ring

theorem asinRoute_eq (k : Nat) {x : ℝ} (h : |x| ≤ 1) : asinRoute Real.arctan k x = Real.arcsin x := by
  have hs := sqrt_one_sub_sq h
  have hne : Real.sqrt (1 - x ^ 2) ≠ 0 ∨ x ≠ 0 := by
    by_contra hc; push Not at hc; rw [hc.1, hc.2] at hs; norm_num at hs
  rw [asinRoute, atan2Route_eq k hne, Complex.arg, if_pos (Real.sqrt_nonneg _), norm_unit_point hs, div_one]

theorem acosRoute_eq (k : Nat) {x : ℝ} (h : |x| ≤ 1) : acosRoute Real.arctan k x = Real.arccos x := by
  have hs := (add_comm _ _).trans (sqrt_one_sub_sq h)
  have hne : x ≠ 0 ∨ Real.sqrt (1 - x ^ 2) ≠ 0 := by
    by_contra hc; push Not at hc; rw [hc.2, hc.1] at hs; norm_num at hs
  rw [acosRoute, atan2Route_eq k hne,
    Complex.arg_of_im_nonneg_of_ne_zero (Real.sqrt_nonneg _) (by rw [← norm_ne_zero_iff, norm_unit_point hs]; norm_num),
    norm_unit_point hs, div_one]

/-! ### Exponential -/

/-- What FEXP's reduction leaves is at most half of ln 2 (R307). -/
theorem expReduce_range {ln2 : Split} (hl : ln2.sum = Real.log 2) (x : ℝ) :
    |(expReduce ln2 x).2| ≤ Real.log 2 / 2 := by
  have h2 : 0 < Real.log 2 := Real.log_pos (by norm_num)
  have h := abs_sub_round (x / Real.log 2)
  have e : (expReduce ln2 x).2 = (x / Real.log 2 - round (x / Real.log 2)) * Real.log 2 := by
    rw [expReduce, hl, sub_mul, div_mul_cancel₀ _ h2.ne', ← hl, Split.sum]; ring
  rw [e, abs_mul, abs_of_pos h2]
  nlinarith

theorem expReduce_eq {ln2 : Split} (hl : ln2.sum = Real.log 2) (x : ℝ) :
    x = (expReduce ln2 x).2 + (expReduce ln2 x).1 * Real.log 2 := by
  rw [← hl, expReduce, Split.sum]; ring

theorem expDouble_eq (e : ℝ) (k : Nat) : expDouble e k = e ^ 2 ^ k := by
  induction k generalizing e with
  | zero => simp [expDouble]
  | succ k ih => rw [expDouble, ih, ← pow_two, ← pow_mul, pow_succ' 2 k]

theorem expm1Double_eq (r : ℝ) (k : Nat) :
    expm1Double (Real.exp r - 1) k = Real.exp (2 ^ k * r) - 1 := by
  induction k generalizing r with
  | zero => simp [expm1Double]
  | succ k ih =>
    rw [expm1Double, show (Real.exp r - 1) * (Real.exp r - 1 + 2) = Real.exp (2 * r) - 1 by
      rw [two_mul, Real.exp_add]; ring, ih]
    congr 2; rw [pow_succ]; ring

theorem two_zpow_eq_exp (q : ℤ) : (2 : ℝ) ^ q = Real.exp (q * Real.log 2) := by
  rw [mul_comm, Real.exp_mul, Real.exp_log (by norm_num), Real.rpow_intCast]

/-- With an exact series and an exact split of ln 2 the routes of FEXP and FEXPM1 are their functions (R307). -/
theorem expRoute_eq {ln2 : Split} (hl : ln2.sum = Real.log 2) (k : Nat) (x : ℝ) :
    expRoute Real.exp k ln2 x = Real.exp x := by
  simp only [expRoute]
  rw [expDouble_eq, ← Real.exp_nat_mul, two_zpow_eq_exp, ← Real.exp_add]
  congr 1
  conv_rhs => rw [expReduce_eq hl x]
  push_cast
  rw [mul_div_cancel₀ _ (by positivity)]

theorem expm1Route_eq {ln2 : Split} (hl : ln2.sum = Real.log 2) (k : Nat) (x : ℝ) :
    expm1Route (fun r => Real.exp r - 1) k ln2 x = Real.exp x - 1 := by
  have h := expReduce_eq hl x
  simp only [expm1Route]
  rw [expm1Double_eq, mul_div_cancel₀ _ (by positivity)]
  conv_rhs => rw [h, Real.exp_add, ← two_zpow_eq_exp]
  ring

/-! ### Logarithm and power -/

/-- FLOG's mantissa lies in [√2/2, √2) (R308). -/
theorem logSplit_range {x : ℝ} (hx : 0 < x) :
    Real.sqrt 2 / 2 ≤ (logSplit x).2 ∧ (logSplit x).2 < Real.sqrt 2 := by
  have hs : 0 < Real.sqrt 2 := Real.sqrt_pos.mpr (by norm_num)
  have hss : Real.sqrt 2 * Real.sqrt 2 = 2 := Real.mul_self_sqrt (by norm_num)
  have hxs : 0 < x * Real.sqrt 2 := mul_pos hx hs
  have h1 := Int.zpow_log_le_self (b := 2) (by norm_num) hxs
  have h2 := Int.lt_zpow_succ_log_self (b := 2) (by norm_num) (x * Real.sqrt 2)
  simp only [logSplit]
  push_cast at h1 h2
  have hp : (0 : ℝ) < (2 : ℝ) ^ Int.log 2 (x * Real.sqrt 2) := by positivity
  rw [zpow_add_one₀ (by norm_num)] at h2
  constructor
  · rw [le_div_iff₀ hp]; nlinarith
  · rw [div_lt_iff₀ hp]; nlinarith

theorem sqrt_iterate_log {m : ℝ} (hm : 0 < m) (k : Nat) :
    0 < Real.sqrt^[k] m ∧ 2 ^ k * Real.log (Real.sqrt^[k] m) = Real.log m := by
  induction k generalizing m with
  | zero => exact ⟨hm, by simp⟩
  | succ k ih =>
    obtain ⟨h1, h2⟩ := ih (Real.sqrt_pos.mpr hm)
    rw [Real.log_sqrt hm.le] at h2
    rw [Function.iterate_succ_apply, pow_succ]
    exact ⟨h1, by linarith⟩

/-- The series argument gives the mantissa back (R308). -/
theorem logArg_eq {m : ℝ} (hm : 0 < m) : (1 + logArg m) / (1 - logArg m) = m := by
  have h : m + 1 ≠ 0 := by linarith
  have h2 : 1 - logArg m ≠ 0 := by
    rw [logArg, one_sub_div h]; exact div_ne_zero (by ring_nf; norm_num) h
  rw [div_eq_iff h2, logArg]; field_simp; ring

/-- With an exact series and an exact split of ln 2 the routes of FLOG and FLOG1P are their functions (R308). -/
theorem logRoute_eq {ln2 : Split} (hl : ln2.sum = Real.log 2) (k : Nat) {x : ℝ} (hx : 0 < x) :
    logRoute (fun v => Real.log ((1 + v) / (1 - v))) k ln2 x = Real.log x := by
  have hp : (0 : ℝ) < (2 : ℝ) ^ (logSplit x).1 := by positivity
  have hm : 0 < (logSplit x).2 := div_pos hx hp
  obtain ⟨h1, h2⟩ := sqrt_iterate_log hm k
  have hx2 : x = (2 : ℝ) ^ (logSplit x).1 * (logSplit x).2 := by
    simp only [logSplit]; field_simp
  simp only [logRoute]
  rw [logArg_eq h1, h2]
  conv_rhs => rw [hx2, Real.log_mul hp.ne' hm.ne', Real.log_zpow, ← hl, Split.sum]
  ring

theorem log1pRoute_eq {ln2 : Split} (hl : ln2.sum = Real.log 2) (k : Nat) {x : ℝ} (hx : -1 < x) :
    log1pRoute (fun v => Real.log ((1 + v) / (1 - v))) k ln2 x = Real.log (1 + x) :=
  logRoute_eq hl k (by linarith)

/-- FPOW's route is its general case (R305, R310). -/
theorem powRoute_eq {x : ℚ} (hx : x ≠ 0) (y : ℚ) : powRoute Real.log Real.exp x y = powR x y := by
  have : (0 : ℝ) < |(x : ℝ)| := abs_pos.mpr (by exact_mod_cast hx)
  rw [powRoute, powR, Real.rpow_def_of_pos this, mul_comm (y : ℝ)]

/-! ### Cube root -/

theorem cbrtSplit_spec (e : Int) :
    e = 3 * (cbrtSplit e).1 + (cbrtSplit e).2 ∧ 0 ≤ (cbrtSplit e).2 ∧ (cbrtSplit e).2 < 3 := by
  unfold cbrtSplit; omega

theorem cbrtR_of_pos {x : ℝ} (h : 0 < x) : cbrtR x = x ^ (1 / 3 : ℝ) := by
  rw [cbrtR, sign_pos h, abs_of_pos h, SignType.coe_one, one_mul]

theorem cbrtR_cube {x : ℝ} (h : 0 < x) : cbrtR x ^ 3 = x := by
  rw [cbrtR_of_pos h, ← Real.rpow_natCast, ← Real.rpow_mul h.le]; norm_num

/-- The correction constants are the cube roots of 1, 2 and 4 (R309). -/
theorem cbrtConst_cube (j : Int) : cbrtConst j ^ 3 = (2 : ℝ) ^ j := cbrtR_cube (by positivity)

/-- The cube root is where the passes rest (R309). -/
theorem cbrtPass_fixed {m x : ℝ} (hm : m ≠ 0) (h : x ^ 3 = m) (k : Nat) :
    (fun c => cbrtPass (1 / m * c) c)^[k] x = x := by
  apply Function.iterate_fixed
  simp only [cbrtPass]
  rw [h]; field_simp; ring

/-- The correction step keeps it (R309). -/
theorem cbrtCorrect_eq {m x : ℝ} (h : x ^ 3 = m) : cbrtCorrect m x = x := by
  rw [cbrtCorrect, h]; simp

/-- From an exact series the route of FCBRT is the cube root (R309). -/
theorem cbrtRoute_eq (k : Nat) {x : ℝ} (hx : x ≠ 0) :
    cbrtRoute cbrtR k x ^ 3 = x := by
  have ha : 0 < |x| := abs_pos.mpr hx
  simp only [cbrtRoute]
  set e := Int.log 2 |x|
  have hp : (0 : ℝ) < (2 : ℝ) ^ e := by positivity
  have hm : 0 < |x| / (2 : ℝ) ^ e := div_pos ha hp
  have hc := cbrtR_cube hm
  rw [cbrtPass_fixed hm.ne' hc, cbrtCorrect_eq hc]
  have hv : (cbrtConst (cbrtSplit e).2 * cbrtR (|x| / (2 : ℝ) ^ e) * (2 : ℝ) ^ (cbrtSplit e).1) ^ 3 = |x| := by
    rw [mul_pow, mul_pow, cbrtConst_cube, hc, ← zpow_natCast ((2 : ℝ) ^ _) 3, ← zpow_mul,
      mul_right_comm, ← zpow_add₀ (by norm_num),
      show (cbrtSplit e).2 + (cbrtSplit e).1 * ((3 : ℕ) : ℤ) = e by have := (cbrtSplit_spec e).1; push_cast; omega,
      mul_div_cancel₀ _ hp.ne']
  rw [signed]
  split
  · rw [Odd.neg_pow (by decide), hv, abs_of_neg ‹_›, neg_neg]
  · rw [hv, abs_of_nonneg (not_lt.mp ‹_›)]

/-! ### Hyperbolic -/

theorem signed_abs (x : ℝ) : signed x |x| = x := by
  rw [signed]; split
  · rw [abs_of_neg ‹_›, neg_neg]
  · exact abs_of_nonneg (not_lt.mp ‹_›)

/-- An odd function from its values for |x|. -/
theorem signed_odd {f : ℝ → ℝ} (hf : ∀ x, f (-x) = -f x) (x : ℝ) : signed x (f |x|) = f x := by
  rw [signed]; split
  · rw [abs_of_neg ‹_›, hf, neg_neg]
  · rw [abs_of_nonneg (not_lt.mp ‹_›)]

theorem sinhRoute_eq {cut x : ℝ} (h : |x| ≤ cut) :
    sinhRoute (fun t => Real.exp t - 1) cut x = ((Real.sinh x : ℝ) : EReal) := by
  simp only [sinhRoute]
  rw [if_neg (not_lt.mpr h), ← signed_odd Real.sinh_neg x]
  congr 2
  have := Real.exp_pos |x|
  rw [Real.sinh_eq, Real.exp_neg]
  simp only [sub_add_cancel]
  field_simp
  ring

theorem coshRoute_eq {cut x : ℝ} (h : |x| ≤ cut) : coshRoute Real.exp cut x = ((Real.cosh x : ℝ) : EReal) := by
  simp only [coshRoute]
  rw [if_neg (not_lt.mpr h), ← Real.cosh_abs x, Real.cosh_eq, Real.exp_neg, one_div]

theorem tanhRoute_eq {cut x : ℝ} (h : |x| ≤ cut) :
    tanhRoute (fun t => Real.exp t - 1) cut x = Real.tanh x := by
  simp only [tanhRoute]
  rw [if_neg (not_lt.mpr h), ← signed_odd Real.tanh_neg x]
  congr 1
  set a := |x|
  have h := Real.exp_pos a
  have h2 : Real.exp a * Real.exp a - 1 + 2 ≠ 0 := by nlinarith
  have h3 : Real.exp a + (Real.exp a)⁻¹ ≠ 0 := by positivity
  rw [Real.tanh_eq_sinh_div_cosh, Real.sinh_eq, Real.cosh_eq, Real.exp_neg, two_mul, Real.exp_add]
  rw [div_div_div_cancel_right₀ (by norm_num), div_eq_div_iff h2 h3]
  field_simp
  ring

/-- Below the cutoff both formulas of FASINH are the function (R337). -/
theorem asinhRoute_eq {near cut x : ℝ} (h : |x| ≤ cut) :
    asinhRoute Real.log (fun t => Real.log (1 + t)) near cut x = Real.arsinh x := by
  simp only [asinhRoute]
  rw [if_neg (not_lt.mpr h), ← signed_odd Real.arsinh_neg x]
  congr 1
  set a := |x|
  have hs : 0 ≤ Real.sqrt (a ^ 2 + 1) := Real.sqrt_nonneg _
  have hsq : Real.sqrt (a ^ 2 + 1) ^ 2 = a ^ 2 + 1 := Real.sq_sqrt (by positivity)
  have h1 : 1 + Real.sqrt (a ^ 2 + 1) ≠ 0 := by linarith
  rw [Real.arsinh, show 1 + a ^ 2 = a ^ 2 + 1 by ring, ite_eq_right_iff.mpr]
  intro _
  congr 1
  field_simp
  nlinarith

/-- Below the cutoff both formulas of FACOSH are the function (R335, R337). -/
theorem acoshRoute_eq {near cut x : ℝ} (h : x ≤ cut) :
    acoshRoute Real.log (fun t => Real.log (1 + t)) near cut x = Real.log (x + Real.sqrt (x ^ 2 - 1)) := by
  simp only [acoshRoute]
  rw [if_neg (not_lt.mpr h), ite_eq_right_iff.mpr]
  intro _
  rw [show 2 * (x - 1) + (x - 1) ^ 2 = x ^ 2 - 1 by ring, show 1 + (x - 1 + Real.sqrt (x ^ 2 - 1))
    = x + Real.sqrt (x ^ 2 - 1) by ring]

/-- Below the cutoff both formulas of FATANH are the function (R336, R337). -/
theorem atanhRoute_eq {near cut x : ℝ} (hx : |x| < 1) (h : |x| ≤ cut) :
    atanhRoute Real.log (fun t => Real.log (1 + t)) near cut x
      = ((1 / 2 * Real.log ((1 + x) / (1 - x)) : ℝ) : EReal) := by
  simp only [atanhRoute]
  rw [if_neg (not_lt.mpr h)]
  congr 1
  have h1 : 1 - |x| ≠ 0 := by linarith
  rw [show 1 + 2 * |x| / (1 - |x|) = (1 + |x|) / (1 - |x|) by field_simp; ring, ite_self]
  refine signed_odd (f := fun t => 1 / 2 * Real.log ((1 + t) / (1 - t))) (fun t => ?_) x
  rw [← mul_neg, ← Real.log_inv, inv_div, sub_neg_eq_add, ← sub_eq_add_neg]

/-! ### Error functions -/

theorem erfR_neg (x : ℝ) : erfR (-x) = -erfR x := by
  have h := intervalIntegral.integral_comp_neg (a := 0) (b := x) fun t : ℝ => Real.exp (-t ^ 2)
  simp only [even_two, Even.neg_pow, neg_zero] at h
  rw [erfR, erfR, h, intervalIntegral.integral_symm]
  ring

/-- Where both formulas are exact, either choice of the threshold gives the functions (R342). -/
theorem erfRoute_eq (cut x : ℝ) : erfRoute erfR (fun z => 1 - erfR z) cut x = erfR x := by
  rw [erfRoute]; split
  · rfl
  · rw [sub_sub_cancel]; exact signed_odd erfR_neg x

theorem erfcRoute_eq (cut x : ℝ) : erfcRoute erfR (fun z => 1 - erfR z) cut x = 1 - erfR x := by
  rw [erfcRoute]; split
  · rfl
  · split
    · rw [abs_of_neg ‹_›, erfR_neg]; ring
    · rfl

/-! ### Gamma -/

theorem shiftProduct_pos {z : ℝ} (hz : 0 < z) (n : Nat) : 0 < shiftProduct z n := by
  induction n generalizing z with
  | zero => exact one_pos
  | succ n ih => exact mul_pos hz (ih (by linarith))

/-- Shifting up and dividing the product out gives Γ back (R346, steps 1 and 3). -/
theorem Gamma_eq_shifted {z : ℝ} (hz : 0 < z) (n : Nat) :
    Real.Gamma z = Real.Gamma (z + n) / shiftProduct z n := by
  induction n generalizing z with
  | zero => simp [shiftProduct]
  | succ n ih =>
    have e := Real.Gamma_add_one hz.ne'
    rw [ih (by linarith : 0 < z + 1)] at e
    have e2 : Real.Gamma z = Real.Gamma (z + 1 + n) / shiftProduct (z + 1) n / z := by
      rw [e, mul_div_cancel_left₀ _ hz.ne']
    rw [e2, shiftProduct, div_div, mul_comm z]
    congr 2
    push_cast; ring

/-- The steps bring an argument below R+1 into [R, R+1) (R346, step 1). -/
theorem shiftSteps_range {R : Nat} {z : ℝ} (h : z < R + 1) :
    R ≤ z + shiftSteps R z ∧ z + shiftSteps R z < R + 1 := by
  have h0 : 0 ≤ ⌈(R : ℝ) - z⌉ := by
    have : (-1 : ℤ) < ⌈(R : ℝ) - z⌉ := Int.lt_ceil.mpr (by push_cast; linarith)
    omega
  have hc : ((shiftSteps R z : ℕ) : ℝ) = (⌈(R : ℝ) - z⌉ : ℤ) := by
    rw [shiftSteps, ← Int.cast_natCast, Int.toNat_of_nonneg h0]
  rw [hc]
  have h1 := Int.le_ceil ((R : ℝ) - z)
  have h2 := Int.ceil_lt_add_one ((R : ℝ) - z)
  constructor <;> linarith

theorem gammaPos_eq (R : Nat) {z : ℝ} (hz : 0 < z) :
    gammaPos (fun t => Real.log (Real.Gamma t)) Real.exp R z = Real.Gamma z := by
  rw [gammaPos, Real.exp_log (Real.Gamma_pos_of_pos (by positivity)), ← Gamma_eq_shifted hz]

theorem lgammaPos_eq (R : Nat) {z : ℝ} (hz : 0 < z) :
    lgammaPos (fun t => Real.log (Real.Gamma t)) Real.log R z = Real.log (Real.Gamma z) := by
  have h1 : 0 < Real.Gamma (z + shiftSteps R z) := Real.Gamma_pos_of_pos (by positivity)
  rw [lgammaPos, Gamma_eq_shifted hz (shiftSteps R z), Real.log_div h1.ne' (shiftProduct_pos hz _).ne']

theorem sin_pi_ne_zero {z : ℝ} (h : ∀ k : ℤ, z ≠ k) : Real.sin (Real.pi * z) ≠ 0 := by
  intro e
  obtain ⟨n, hn⟩ := Real.sin_eq_zero_iff.mp e
  have h2 : Real.pi * (z - n) = 0 := by linarith
  rcases mul_eq_zero.mp h2 with h3 | h3
  · exact Real.pi_ne_zero h3
  · exact h n (by linarith)

/-- The reflection formula gives the magnitude of Γ for a negative argument (R346, step 4). -/
theorem gammaAbs_eq (R : Nat) {z : ℝ} (hz : z ≠ 0) (h : ∀ k : ℤ, z ≠ k) :
    gammaAbs (fun t => Real.log (Real.Gamma t)) Real.exp R z = |Real.Gamma z| := by
  rw [gammaAbs]
  split
  · have hp : 0 < Real.Gamma (1 - z) := Real.Gamma_pos_of_pos (by linarith)
    have hs := sin_pi_ne_zero h
    have e := Real.Gamma_mul_Gamma_one_sub z
    rw [gammaPos_eq R (by linarith), eq_div_of_mul_eq hp.ne' e, abs_div, abs_div, abs_of_pos Real.pi_pos,
      abs_of_pos hp, div_div]
  · have : 0 < z := lt_of_le_of_ne (not_lt.mp ‹_›) hz.symm
    rw [gammaPos_eq R this, abs_of_pos (Real.Gamma_pos_of_pos this)]

theorem lgammaAbs_eq (R : Nat) {z : ℝ} (hz : z ≠ 0) (h : ∀ k : ℤ, z ≠ k) :
    lgammaAbs (fun t => Real.log (Real.Gamma t)) Real.log R z = Real.log |Real.Gamma z| := by
  rw [lgammaAbs]
  split
  · have hp : 0 < Real.Gamma (1 - z) := Real.Gamma_pos_of_pos (by linarith)
    have hs := sin_pi_ne_zero h
    have e := Real.Gamma_mul_Gamma_one_sub z
    rw [lgammaPos_eq R (by linarith), eq_div_of_mul_eq hp.ne' e, abs_div, abs_div, abs_of_pos Real.pi_pos,
      abs_of_pos hp, Real.log_div (by positivity) hp.ne', Real.log_div Real.pi_ne_zero (abs_ne_zero.mpr hs)]
  · have : 0 < z := lt_of_le_of_ne (not_lt.mp ‹_›) hz.symm
    rw [lgammaPos_eq R this, abs_of_pos (Real.Gamma_pos_of_pos this)]

/-! ### Modulo -/

/-- A digit is the quotient and the remainder, however the estimate fell (R353). -/
theorem modDigit_eq {k n t : Nat} (hn : 0 < n) (ht : t ≤ 2 ^ k) : modDigit k n t = (t / n, t % n) := by
  have hK : 0 < 2 ^ k := by positivity
  rw [modDigit, reciprocal]
  generalize 2 ^ k = K at *
  have h1 := Nat.div_add_mod K n
  have h2 := Nat.mod_lt K hn
  set c := K / n
  have h3 := Nat.div_add_mod (t * c) K
  have h4 := Nat.mod_lt (t * c) hK
  set q := t * c / K
  have hle : q * n ≤ t := by
    have : K * (q * n) ≤ K * t :=
      calc K * (q * n) = K * q * n := by ring
        _ ≤ t * c * n := Nat.mul_le_mul_right _ (by omega)
        _ = t * (n * c) := by ring
        _ ≤ t * K := Nat.mul_le_mul_left _ (by omega)
        _ = K * t := by ring
    exact Nat.le_of_mul_le_mul_left this hK
  have hlt : t < q * n + 2 * n := by
    have h5 : t * K < t * (n * c) + t * n + 1 := by nlinarith
    have h6 : t * n ≤ K * n := Nat.mul_le_mul_right _ ht
    have h7 : t * c < K * q + K := by omega
    have h8 : n * (t * c) + n ≤ n * (K * q + K) := by nlinarith
    have : K * t < K * (q * n + 2 * n) := by nlinarith
    exact Nat.lt_of_mul_lt_mul_left this
  have uniq : ∀ a b : Nat, t = a * n + b → b < n → (a, b) = (t / n, t % n) := by
    intro a b e hb
    rw [e, Nat.add_comm, Nat.add_mul_div_right _ _ hn, Nat.div_eq_of_lt hb, Nat.add_mul_mod_self_right,
      Nat.mod_eq_of_lt hb, Nat.zero_add]
  split
  · exact uniq _ _ (by rw [Nat.succ_mul]; omega) (by omega)
  · exact uniq _ _ (by omega) (by omega)

/-- With enough fuel the loop divides (R353). -/
theorem modLoop_eq {k w n : Nat} (hn : 0 < n) (hw : 0 < w) (hk : n * 2 ^ w ≤ 2 ^ k) (fuel d q r m : Nat)
    (hd : d ≤ fuel) (hr : r < n) (hm : m = q * n + r) :
    modLoop k w n fuel d (q, r) = some (m * 2 ^ d / n, m * 2 ^ d % n) := by
  induction fuel generalizing d q r m with
  | zero =>
    obtain rfl : d = 0 := by omega
    subst hm
    rw [modLoop, pow_zero, mul_one, Nat.add_comm, Nat.add_mul_div_right _ _ hn, Nat.div_eq_of_lt hr,
      Nat.add_mul_mod_self_right, Nat.mod_eq_of_lt hr, Nat.zero_add]
  | succ fuel ih =>
    cases d with
    | zero =>
      subst hm
      rw [modLoop, pow_zero, mul_one, Nat.add_comm, Nat.add_mul_div_right _ _ hn, Nat.div_eq_of_lt hr,
        Nat.add_mul_mod_self_right, Nat.mod_eq_of_lt hr, Nat.zero_add]
    | succ d =>
      rw [modLoop]
      set b := min (d + 1) w with hb
      have hb1 : 1 ≤ b := by omega
      have ht : r * 2 ^ b ≤ 2 ^ k :=
        (Nat.mul_le_mul hr.le (Nat.pow_le_pow_right (by decide) (by omega))).trans hk
      simp only [modDigit_eq hn ht]
      rw [ih (d + 1 - b) _ _ (m * 2 ^ b) (by omega) (Nat.mod_lt _ hn)]
      · rw [mul_assoc, ← pow_add, show b + (d + 1 - b) = d + 1 by omega]
      · have := Nat.div_add_mod (r * 2 ^ b) n
        subst hm
        linarith [Nat.mul_comm n (r * 2 ^ b / n), Nat.add_mul (q * n) r (2 ^ b),
          Nat.mul_right_comm q n (2 ^ b), Nat.add_mul (q * 2 ^ b) (r * 2 ^ b / n) n]

theorem truncQ_of_nonneg {x : ℚ} (h : 0 ≤ x) : truncQ x = ⌊x⌋ := by
  rw [truncQ, if_neg (not_lt.mpr h)]; rfl

/-- For finite operands the loop ends below its cap, with the truncated quotient and the exact remainder of R350
(R353): no command returns a capped partial result. -/
theorem modRun_eq {F : Fmt} {x y : Reg} {sx sy : Bool} {ex ey : Int} {mx my : Nat} (w : Nat)
    (hx : unpack F x = .finite sx ex mx) (hy : unpack F y = .finite sy ey my) :
    ∃ q : ℕ, modRun F w x y = some (q, fmodQ |valF F x| |valF F y|) ∧
      ⌊|valF F x| / |valF F y|⌋ = (q : ℤ) := by
  have okx := finiteOk_of_unpack hx
  have oky := finiteOk_of_unpack hy
  have hm : 0 < my := oky.pos
  have hp := pow2_pos (ey - F.p)
  have hmq : (my : ℚ) ≠ 0 := by exact_mod_cast hm.ne'
  simp only [modRun, hx, hy]
  split
  · rename_i h
    have hd : ((ex - ey).toNat : Int) = ex - ey := by omega
    have hcap : (ex - ey).toNat ≤ loopCap := by
      have h1 := okx.le_emax
      have h2 := oky.emin_le
      rw [F.emin_eq] at h2
      rw [F.emax_eq] at h1
      have h3 : F.bias < 2 ^ 19 := by cases F <;> decide
      rw [loopCap]; omega
    have hk : my * 2 ^ (w + 1) ≤ 2 ^ (F.p + 2 + w) := by
      rw [show F.p + 2 + w = (F.p + 1) + (w + 1) by omega, pow_add 2 (F.p + 1)]
      exact Nat.mul_le_mul_right _ oky.lt.le
    have hmx : mx ≤ 2 ^ (F.p + 2 + w) := okx.lt.le.trans (Nat.pow_le_pow_right (by decide) (by omega))
    rw [modDigit_eq hm hmx, modLoop_eq hm (Nat.succ_pos w) hk _ _ _ _ mx hcap (Nat.mod_lt _ hm)
      (by rw [Nat.mul_comm]; exact (Nat.div_add_mod mx my).symm)]
    set d := (ex - ey).toNat with hdd
    have hX : |valF F x| = ((mx * 2 ^ d : ℕ) : ℚ) * pow2 (ey - F.p) := by
      rw [abs_valF hx, pow2_eq, pow2_eq, show ex - F.p = (d : Int) + (ey - F.p) by omega,
        zpow_add₀ (by norm_num), zpow_natCast]
      push_cast; ring
    have hq : |valF F x| / |valF F y| = ((mx * 2 ^ d : ℕ) : ℚ) / my := by
      rw [hX, abs_valF hy, mul_div_mul_right _ _ hp.ne']
    have hf : ⌊|valF F x| / |valF F y|⌋ = ((mx * 2 ^ d / my : ℕ) : Int) := by
      rw [hq]; exact Rat.floor_natCast_div_natCast (mx * 2 ^ d) my
    refine ⟨mx * 2 ^ d / my, ?_, hf⟩
    rw [fmodQ, truncQ_of_nonneg (by positivity), hf, hX, abs_valF hy, Option.map_some]
    congr 2
    have e : ((my * (mx * 2 ^ d / my) + mx * 2 ^ d % my : ℕ) : ℚ) = ((mx * 2 ^ d : ℕ) : ℚ) := by
      rw [Nat.div_add_mod]
    generalize mx * 2 ^ d = N at e ⊢
    generalize N / my = Q at e ⊢
    simp only [Nat.cast_add, Nat.cast_mul] at e
    rw [Int.cast_natCast]
    linear_combination pow2 (ey - F.p) * e
  · rename_i h
    have hnorm : 2 ^ F.p ≤ my := by
      by_contra hc
      have := oky.subnormal (not_le.mp hc)
      have := okx.emin_le
      omega
    have hlt : |valF F x| < |valF F y| := by
      rw [abs_valF hx, abs_valF hy, pow2_eq, pow2_eq]
      have h1 : (mx : ℚ) < (2 : ℚ) ^ ((F.p : ℤ) + 1) := by
        rw [← Nat.cast_succ, zpow_natCast]; exact_mod_cast okx.lt
      have h2 : (2 : ℚ) ^ (F.p : ℤ) ≤ my := by rw [zpow_natCast]; exact_mod_cast hnorm
      calc (mx : ℚ) * 2 ^ (ex - F.p) < 2 ^ ((F.p : ℤ) + 1) * 2 ^ (ex - F.p) := by
            apply mul_lt_mul_of_pos_right h1; positivity
        _ = 2 ^ (ex + 1) := by rw [← zpow_add₀ (by norm_num)]; congr 1; ring
        _ ≤ 2 ^ ey := zpow_le_zpow_right₀ (by norm_num) (by omega)
        _ = 2 ^ (F.p : ℤ) * 2 ^ (ey - F.p) := by rw [← zpow_add₀ (by norm_num)]; congr 1; ring
        _ ≤ my * 2 ^ (ey - F.p) := by apply mul_le_mul_of_nonneg_right h2; positivity
    have hf : ⌊|valF F x| / |valF F y|⌋ = 0 := by
      rw [Int.floor_eq_zero_iff]
      exact ⟨by positivity, (div_lt_one (lt_of_le_of_lt (abs_nonneg _) hlt)).mpr hlt⟩
    refine ⟨0, ?_, by rw [hf]; rfl⟩
    rw [fmodQ, truncQ_of_nonneg (by positivity), hf, abs_valF hx]
    simp

/-- From there FREMAINDER's quotient and remainder (R351, R353). -/
theorem modNearest_eq {X Y : ℚ} (hY : 0 < Y) {q : ℕ} (hX : 0 ≤ X) (hq : ⌊X / Y⌋ = (q : ℤ)) :
    ((modNearest Y (q, fmodQ X Y)).1 : ℤ) = remQuotient X Y ∧ (modNearest Y (q, fmodQ X Y)).2 = remQ X Y := by
  have hf : fmodQ X Y = X - q * Y := by
    rw [fmodQ, truncQ_of_nonneg (by positivity), hq, Int.cast_natCast]
  have hfl : (X / Y).floor = (q : ℤ) := hq
  have hr : X / Y - (q : ℚ) = (X - q * Y) / Y := by field_simp
  have h1 : (X - q * Y) / Y > 1 / 2 ↔ Y < 2 * (X - q * Y) := by
    rw [gt_iff_lt, lt_div_iff₀ hY]; constructor <;> intro h <;> linarith
  have h2 : (X - q * Y) / Y = 1 / 2 ↔ 2 * (X - q * Y) = Y := by
    rw [div_eq_iff hY.ne']; constructor <;> intro h <;> linarith
  have h3 : (q : ℤ) % 2 = 1 ↔ q % 2 = 1 := by omega
  have hn : remQuotient X Y = if Y < 2 * fmodQ X Y ∨ (2 * fmodQ X Y = Y ∧ q % 2 = 1) then (q : ℤ) + 1 else q := by
    rw [remQuotient, roundEvenQ]
    simp only [hfl, Int.cast_natCast, hr, h1, h2, h3, hf]
  rw [remQ, hn, modNearest]
  split
  · exact ⟨by push_cast; rfl, by simp only [hf]; push_cast; ring⟩
  · exact ⟨rfl, by simp only [hf]; push_cast; rfl⟩

/-- The bound of R353, and that the cap is never reached (R248). -/
theorem loopCount_lt_cap (F : Fmt) (x y : Reg) :
    (loopCount F x y : Int) ≤ 2 * F.emax + F.p - 1 ∧ loopCount F x y < loopCap := by
  have hb : 0 ≤ 2 * F.emax + F.p - 1 ∧ 2 * F.emax + F.p - 1 < 2 ^ 20 := by cases F <;> decide
  have h : (loopCount F x y : Int) ≤ 2 * F.emax + F.p - 1 := by
    unfold loopCount
    split
    · rename_i hx hy
      have h1 := (finiteOk_of_unpack hx).le_emax
      have h2 := (finiteOk_of_unpack hy).emin_le
      rw [F.emin_eq] at h2
      rw [F.emax_eq] at h1 ⊢
      have := F.bias_pos
      omega
    · exact_mod_cast hb.1
  refine ⟨h, ?_⟩
  rw [loopCap]; omega

end Sys2Proof.Kernel
end

