-- ==== Sys2Proof/Laws/PerInstr.lean ====
section
/-! SUPPORT. One lemma per command: its fields are well formed, they come back from its word, and the word has
the opcode and the shape of its row of the opcode map. -/

namespace Sys2Proof.Laws.Encoding

open Sys2Proof

/-- The row of the opcode map a command belongs to: OP and shape (R97). -/
def row : Instr → BitVec 8 × Shape
  | .fadd _ _ _ _ => (0x01, .binary)
  | .fsub _ _ _ _ => (0x02, .binary)
  | .fmul _ _ _ _ => (0x03, .binary)
  | .fdiv _ _ _ _ => (0x04, .binary)
  | .fma _ _ _ _ _ => (0x05, .ternary)
  | .fsqrt _ _ _ => (0x06, .unary)
  | .fneg _ _ _ => (0x08, .unary)
  | .fabs _ _ _ => (0x09, .unary)
  | .fcopysign _ _ _ _ => (0x0A, .binary)
  | .feq _ _ _ _ => (0x0C, .binary)
  | .flt _ _ _ _ => (0x0D, .binary)
  | .fle _ _ _ _ => (0x0E, .binary)
  | .fne _ _ _ _ => (0x0F, .binary)
  | .ftrunc _ _ _ => (0x10, .unary)
  | .ffloor _ _ _ => (0x11, .unary)
  | .fceil _ _ _ => (0x12, .unary)
  | .fround _ _ _ => (0x13, .unary)
  | .frint _ _ _ => (0x14, .unary)
  | .fisint _ _ _ => (0x15, .unary)
  | .fcvtFF _ _ _ _ => (0x18, .convert)
  | .fcvtIF _ _ _ _ => (0x19, .convert)
  | .fcvtFI _ _ _ _ => (0x1A, .convert)
  | .fsin _ _ _ => (0x20, .unary)
  | .fcos _ _ _ => (0x21, .unary)
  | .ftan _ _ _ => (0x22, .unary)
  | .fasin _ _ _ => (0x23, .unary)
  | .facos _ _ _ => (0x24, .unary)
  | .fatan _ _ _ => (0x25, .unary)
  | .fatan2 _ _ _ _ => (0x26, .binary)
  | .fexp _ _ _ => (0x28, .unary)
  | .fexpm1 _ _ _ => (0x29, .unary)
  | .flog _ _ _ => (0x2A, .unary)
  | .flog1p _ _ _ => (0x2B, .unary)
  | .fpow _ _ _ _ => (0x2C, .binary)
  | .fcbrt _ _ _ => (0x2D, .unary)
  | .fsinh _ _ _ => (0x30, .unary)
  | .fcosh _ _ _ => (0x31, .unary)
  | .ftanh _ _ _ => (0x32, .unary)
  | .fasinh _ _ _ => (0x33, .unary)
  | .facosh _ _ _ => (0x34, .unary)
  | .fatanh _ _ _ => (0x35, .unary)
  | .ferf _ _ _ => (0x38, .unary)
  | .ferfc _ _ _ => (0x39, .unary)
  | .ftgamma _ _ _ => (0x3A, .unary)
  | .flgamma _ _ _ => (0x3B, .unary)
  | .ffmod _ _ _ _ => (0x3C, .binary)
  | .fremainder _ _ _ _ => (0x3D, .binary)
  | .fremquo _ _ _ _ => (0x3E, .binary)

/-- The fields of the command are well formed, the word holds them, and OP and the shape's fixed bits are those
of the command's row (R91, R96, R97). -/
def Statement (i : Instr) : Prop :=
  i.fields.wellFormed = true ∧ fieldsOf (encode i) = i.fields ∧ HasEncoding i (row i).1 (row i).2

/-- What every lemma below rests on. -/
theorem statement_of_fields (i : Instr) (h : i.fields.op = (row i).1)
    (hs : opShape (row i).1 = some (row i).2) (hw : i.fields.wellFormed = true) : Statement i := by
  obtain ⟨m, F, h1, _, _, h4⟩ := build_fields i
  rw [h, hs] at h1
  cases h1
  exact ⟨hw, fieldsOf_word _, by rw [HasEncoding, ← h]; exact h4⟩

theorem fadd (fmt : Fmt) (rd rs1 rs2 : RegIdx) : Statement (.fadd fmt rd rs1 rs2) :=
  statement_of_fields _ rfl rfl (by cases fmt <;> rfl)
theorem fsub (fmt : Fmt) (rd rs1 rs2 : RegIdx) : Statement (.fsub fmt rd rs1 rs2) :=
  statement_of_fields _ rfl rfl (by cases fmt <;> rfl)
theorem fmul (fmt : Fmt) (rd rs1 rs2 : RegIdx) : Statement (.fmul fmt rd rs1 rs2) :=
  statement_of_fields _ rfl rfl (by cases fmt <;> rfl)
theorem fdiv (fmt : Fmt) (rd rs1 rs2 : RegIdx) : Statement (.fdiv fmt rd rs1 rs2) :=
  statement_of_fields _ rfl rfl (by cases fmt <;> rfl)
theorem fma (fmt : Fmt) (rd rs1 rs2 rs3 : RegIdx) : Statement (.fma fmt rd rs1 rs2 rs3) :=
  statement_of_fields _ rfl rfl (by cases fmt <;> rfl)
theorem fsqrt (fmt : Fmt) (rd rs1 : RegIdx) : Statement (.fsqrt fmt rd rs1) :=
  statement_of_fields _ rfl rfl (by cases fmt <;> rfl)
theorem fneg (fmt : Fmt) (rd rs1 : RegIdx) : Statement (.fneg fmt rd rs1) :=
  statement_of_fields _ rfl rfl (by cases fmt <;> rfl)
theorem fabs (fmt : Fmt) (rd rs1 : RegIdx) : Statement (.fabs fmt rd rs1) :=
  statement_of_fields _ rfl rfl (by cases fmt <;> rfl)
theorem fcopysign (fmt : Fmt) (rd rs1 rs2 : RegIdx) : Statement (.fcopysign fmt rd rs1 rs2) :=
  statement_of_fields _ rfl rfl (by cases fmt <;> rfl)
theorem feq (fmt : Fmt) (rd rs1 rs2 : RegIdx) : Statement (.feq fmt rd rs1 rs2) :=
  statement_of_fields _ rfl rfl (by cases fmt <;> rfl)
theorem flt (fmt : Fmt) (rd rs1 rs2 : RegIdx) : Statement (.flt fmt rd rs1 rs2) :=
  statement_of_fields _ rfl rfl (by cases fmt <;> rfl)
theorem fle (fmt : Fmt) (rd rs1 rs2 : RegIdx) : Statement (.fle fmt rd rs1 rs2) :=
  statement_of_fields _ rfl rfl (by cases fmt <;> rfl)
theorem fne (fmt : Fmt) (rd rs1 rs2 : RegIdx) : Statement (.fne fmt rd rs1 rs2) :=
  statement_of_fields _ rfl rfl (by cases fmt <;> rfl)
theorem ftrunc (fmt : Fmt) (rd rs1 : RegIdx) : Statement (.ftrunc fmt rd rs1) :=
  statement_of_fields _ rfl rfl (by cases fmt <;> rfl)
theorem ffloor (fmt : Fmt) (rd rs1 : RegIdx) : Statement (.ffloor fmt rd rs1) :=
  statement_of_fields _ rfl rfl (by cases fmt <;> rfl)
theorem fceil (fmt : Fmt) (rd rs1 : RegIdx) : Statement (.fceil fmt rd rs1) :=
  statement_of_fields _ rfl rfl (by cases fmt <;> rfl)
theorem fround (fmt : Fmt) (rd rs1 : RegIdx) : Statement (.fround fmt rd rs1) :=
  statement_of_fields _ rfl rfl (by cases fmt <;> rfl)
theorem frint (fmt : Fmt) (rd rs1 : RegIdx) : Statement (.frint fmt rd rs1) :=
  statement_of_fields _ rfl rfl (by cases fmt <;> rfl)
theorem fisint (fmt : Fmt) (rd rs1 : RegIdx) : Statement (.fisint fmt rd rs1) :=
  statement_of_fields _ rfl rfl (by cases fmt <;> rfl)
theorem fcvtFF (src dst : Fmt) (rd rs1 : RegIdx) : Statement (.fcvtFF src dst rd rs1) :=
  statement_of_fields _ rfl rfl (by cases src <;> cases dst <;> rfl)
theorem fcvtIF (fmt : Fmt) (ty : IntTy) (rd rs1 : RegIdx) : Statement (.fcvtIF fmt ty rd rs1) :=
  statement_of_fields _ rfl rfl (by cases fmt <;> cases ty <;> rfl)
theorem fcvtFI (fmt : Fmt) (ty : IntTy) (rd rs1 : RegIdx) : Statement (.fcvtFI fmt ty rd rs1) :=
  statement_of_fields _ rfl rfl (by cases fmt <;> cases ty <;> rfl)
theorem fsin (fmt : Fmt) (rd rs1 : RegIdx) : Statement (.fsin fmt rd rs1) :=
  statement_of_fields _ rfl rfl (by cases fmt <;> rfl)
theorem fcos (fmt : Fmt) (rd rs1 : RegIdx) : Statement (.fcos fmt rd rs1) :=
  statement_of_fields _ rfl rfl (by cases fmt <;> rfl)
theorem ftan (fmt : Fmt) (rd rs1 : RegIdx) : Statement (.ftan fmt rd rs1) :=
  statement_of_fields _ rfl rfl (by cases fmt <;> rfl)
theorem fasin (fmt : Fmt) (rd rs1 : RegIdx) : Statement (.fasin fmt rd rs1) :=
  statement_of_fields _ rfl rfl (by cases fmt <;> rfl)
theorem facos (fmt : Fmt) (rd rs1 : RegIdx) : Statement (.facos fmt rd rs1) :=
  statement_of_fields _ rfl rfl (by cases fmt <;> rfl)
theorem fatan (fmt : Fmt) (rd rs1 : RegIdx) : Statement (.fatan fmt rd rs1) :=
  statement_of_fields _ rfl rfl (by cases fmt <;> rfl)
theorem fatan2 (fmt : Fmt) (rd rs1 rs2 : RegIdx) : Statement (.fatan2 fmt rd rs1 rs2) :=
  statement_of_fields _ rfl rfl (by cases fmt <;> rfl)
theorem fexp (fmt : Fmt) (rd rs1 : RegIdx) : Statement (.fexp fmt rd rs1) :=
  statement_of_fields _ rfl rfl (by cases fmt <;> rfl)
theorem fexpm1 (fmt : Fmt) (rd rs1 : RegIdx) : Statement (.fexpm1 fmt rd rs1) :=
  statement_of_fields _ rfl rfl (by cases fmt <;> rfl)
theorem flog (fmt : Fmt) (rd rs1 : RegIdx) : Statement (.flog fmt rd rs1) :=
  statement_of_fields _ rfl rfl (by cases fmt <;> rfl)
theorem flog1p (fmt : Fmt) (rd rs1 : RegIdx) : Statement (.flog1p fmt rd rs1) :=
  statement_of_fields _ rfl rfl (by cases fmt <;> rfl)
theorem fpow (fmt : Fmt) (rd rs1 rs2 : RegIdx) : Statement (.fpow fmt rd rs1 rs2) :=
  statement_of_fields _ rfl rfl (by cases fmt <;> rfl)
theorem fcbrt (fmt : Fmt) (rd rs1 : RegIdx) : Statement (.fcbrt fmt rd rs1) :=
  statement_of_fields _ rfl rfl (by cases fmt <;> rfl)
theorem fsinh (fmt : Fmt) (rd rs1 : RegIdx) : Statement (.fsinh fmt rd rs1) :=
  statement_of_fields _ rfl rfl (by cases fmt <;> rfl)
theorem fcosh (fmt : Fmt) (rd rs1 : RegIdx) : Statement (.fcosh fmt rd rs1) :=
  statement_of_fields _ rfl rfl (by cases fmt <;> rfl)
theorem ftanh (fmt : Fmt) (rd rs1 : RegIdx) : Statement (.ftanh fmt rd rs1) :=
  statement_of_fields _ rfl rfl (by cases fmt <;> rfl)
theorem fasinh (fmt : Fmt) (rd rs1 : RegIdx) : Statement (.fasinh fmt rd rs1) :=
  statement_of_fields _ rfl rfl (by cases fmt <;> rfl)
theorem facosh (fmt : Fmt) (rd rs1 : RegIdx) : Statement (.facosh fmt rd rs1) :=
  statement_of_fields _ rfl rfl (by cases fmt <;> rfl)
theorem fatanh (fmt : Fmt) (rd rs1 : RegIdx) : Statement (.fatanh fmt rd rs1) :=
  statement_of_fields _ rfl rfl (by cases fmt <;> rfl)
theorem ferf (fmt : Fmt) (rd rs1 : RegIdx) : Statement (.ferf fmt rd rs1) :=
  statement_of_fields _ rfl rfl (by cases fmt <;> rfl)
theorem ferfc (fmt : Fmt) (rd rs1 : RegIdx) : Statement (.ferfc fmt rd rs1) :=
  statement_of_fields _ rfl rfl (by cases fmt <;> rfl)
theorem ftgamma (fmt : Fmt) (rd rs1 : RegIdx) : Statement (.ftgamma fmt rd rs1) :=
  statement_of_fields _ rfl rfl (by cases fmt <;> rfl)
theorem flgamma (fmt : Fmt) (rd rs1 : RegIdx) : Statement (.flgamma fmt rd rs1) :=
  statement_of_fields _ rfl rfl (by cases fmt <;> rfl)
theorem ffmod (fmt : Fmt) (rd rs1 rs2 : RegIdx) : Statement (.ffmod fmt rd rs1 rs2) :=
  statement_of_fields _ rfl rfl (by cases fmt <;> rfl)
theorem fremainder (fmt : Fmt) (rd rs1 rs2 : RegIdx) : Statement (.fremainder fmt rd rs1 rs2) :=
  statement_of_fields _ rfl rfl (by cases fmt <;> rfl)
theorem fremquo (fmt : Fmt) (rd rs1 rs2 : RegIdx) : Statement (.fremquo fmt rd rs1 rs2) :=
  statement_of_fields _ rfl rfl (by cases fmt <;> rfl)

end Sys2Proof.Laws.Encoding
end

