-- ==== Sys2Proof/Laws/Round.lean ====
section
/-! SUPPORT. The rounding functions that the meanings run, on exact rationals, are the rounding rule over the
real numbers (R129), and their results fit the format. -/

namespace Sys2Proof

/-! ### The leading bit -/

/-- `floorLog2` brackets a positive rational between powers of two. -/
theorem floorLog2_spec {x : Rat} (hx : 0 < x) :
    (2 : Rat) ^ floorLog2 x ≤ x ∧ x < (2 : Rat) ^ (floorLog2 x + 1) := by
  have hn : 0 < x.num := Rat.num_pos.mpr hx
  have hn0 : x.num.natAbs ≠ 0 := by omega
  have hx' : x * x.den = x.num.natAbs := by
    have h1 : (x.num.natAbs : Rat) = (x.num : Rat) := by
      rw [← Int.cast_natCast, Int.natAbs_of_nonneg hn.le]
    rw [h1, Rat.mul_den_eq_num]
  have hd : (0 : Rat) < x.den := by exact_mod_cast x.den_pos
  have n1 : ((2 : Rat)) ^ Nat.log2 x.num.natAbs ≤ x * x.den := by
    rw [hx']; exact_mod_cast Nat.log2_self_le hn0
  have n2 : x * x.den < (2 : Rat) ^ (Nat.log2 x.num.natAbs + 1) := by
    rw [hx']; exact_mod_cast Nat.lt_log2_self
  have d1 : ((2 : Rat)) ^ Nat.log2 x.den ≤ x.den := by
    exact_mod_cast Nat.log2_self_le x.den_pos.ne'
  have d2 : (x.den : Rat) < (2 : Rat) ^ (Nat.log2 x.den + 1) := by
    exact_mod_cast Nat.lt_log2_self
  have two : (2 : Rat) ≠ 0 := by norm_num
  have hup : x < (2 : Rat) ^ ((Nat.log2 x.num.natAbs : Int) - Nat.log2 x.den + 1) := by
    rw [sub_add_eq_add_sub, zpow_sub₀ two, lt_div_iff₀ (by positivity)]
    calc x * (2 : Rat) ^ (Nat.log2 x.den : Int) ≤ x * x.den := by
          rw [zpow_natCast]; exact mul_le_mul_of_nonneg_left d1 hx.le
      _ < _ := by exact_mod_cast n2
  have hdn : (2 : Rat) ^ ((Nat.log2 x.num.natAbs : Int) - Nat.log2 x.den - 1) < x := by
    rw [sub_sub, zpow_sub₀ two, div_lt_iff₀ (by positivity)]
    calc (2 : Rat) ^ (Nat.log2 x.num.natAbs : Int) ≤ x * x.den := by exact_mod_cast n1
      _ < _ := mul_lt_mul_of_pos_left (by exact_mod_cast d2) hx
  simp only [floorLog2, pow2_eq]
  split
  · exact ⟨by assumption, hup⟩
  · rename_i h
    exact ⟨hdn.le, by rw [sub_add_cancel]; exact not_le.mp h⟩

/-- `floorLog2` is the floor of the logarithm. -/
theorem floorLog2_eq {x : Rat} (hx : 0 < x) : floorLog2 x = Int.log 2 (x : ℝ) := by
  obtain ⟨h1, h2⟩ := floorLog2_spec hx
  have hx' : (0 : ℝ) < x := by exact_mod_cast hx
  have h1' : ((2 : ℕ) : ℝ) ^ floorLog2 x ≤ x := by
    have := (Rat.cast_le (K := ℝ)).mpr h1; push_cast at this ⊢; exact this
  have h2' : (x : ℝ) < ((2 : ℕ) : ℝ) ^ (floorLog2 x + 1) := by
    have := (Rat.cast_lt (K := ℝ)).mpr h2; push_cast at this ⊢; exact this
  have a := (Int.zpow_le_iff_le_log (by decide) hx').mp h1'
  have b := (Int.lt_zpow_iff_log_lt (by decide) hx').mp h2'
  omega

/-! ### Rounding -/

/-- The end of the rounding rule: carry, overflow, underflow, pack (R129). -/
theorem settle_eq (F : Fmt) (s : Bool) (e : Int) (n : Nat) :
    settle F s e n =
      if (if n = 2 ^ (F.p + 1) then e + 1 else e) > F.emax then infF F s
      else if (if n = 2 ^ (F.p + 1) then 2 ^ F.p else n) = 0 then zeroF F s
      else packFinite F s (if n = 2 ^ (F.p + 1) then e + 1 else e)
        (if n = 2 ^ (F.p + 1) then 2 ^ F.p else n) := by
  simp only [settle]
  have : (2 : Nat) ^ F.p ≠ 0 := by positivity
  by_cases h : n = 2 ^ (F.p + 1)
  · simp [h]
  · simp [h]

/-- RNE on an exact rational is RNE on the real number (R129). -/
theorem rne_eq_rneR (F : Fmt) (s : Bool) {x : Rat} (hx : 0 < x) : rne F s x = rneR F s (x : ℝ) := by
  simp only [rne, rneR, settle_eq, floorLog2_eq hx, pow2_eq]
  set e := max (Int.log 2 (x : ℝ)) F.emin
  have hm : (x : ℝ) / (2 : ℝ) ^ (e - F.p) = ((x / (2 : ℚ) ^ (e - F.p) : ℚ) : ℝ) := by push_cast; rfl
  rw [hm]
  set m : ℚ := x / (2 : ℚ) ^ (e - F.p)
  have hf : ⌊(m : ℝ)⌋ = m.floor := by rw [Rat.floor_cast]; rfl
  rw [hf]
  have h1 : (m : ℝ) - (m.floor.toNat : ℕ) > 1 / 2 ↔ m - (m.floor.toNat : ℕ) > 1 / 2 := by
    rw [gt_iff_lt, gt_iff_lt, ← Rat.cast_lt (K := ℝ)]; push_cast; rfl
  have h2 : (m : ℝ) - (m.floor.toNat : ℕ) = 1 / 2 ↔ m - (m.floor.toNat : ℕ) = 1 / 2 := by
    rw [← Rat.cast_inj (α := ℝ)]; push_cast; rfl
  simp only [h1, h2]

/-- RNE of a nonzero sum is RNE of the real sum. -/
theorem rneSigned_eq_rneSignedR (F : Fmt) {S : Rat} (hS : S ≠ 0) :
    rneSigned F S = rneSignedR F (S : ℝ) := by
  rw [rneSigned, rneSignedR, rne_eq_rneR F _ (abs_pos.mpr hS)]
  have : ((S : ℝ) < 0) ↔ S < 0 := by exact_mod_cast Iff.rfl
  simp only [this, Rat.cast_abs]

/-! ### Square roots -/

theorem isqrtFrom_spec (n : Nat) (k : Nat) : ∀ r, r * r ≤ n → n < (r + 2 ^ k) * (r + 2 ^ k) →
    isqrtFrom n k r * isqrtFrom n k r ≤ n ∧ n < (isqrtFrom n k r + 1) * (isqrtFrom n k r + 1) := by
  induction k with
  | zero => intro r h1 h2; exact ⟨h1, h2⟩
  | succ k ih =>
    intro r h1 h2
    have e : r + 2 ^ (k + 1) = r + 2 ^ k + 2 ^ k := by rw [pow_succ]; ring
    rw [e] at h2
    simp only [isqrtFrom]
    split
    · exact ih _ (by assumption) h2
    · exact ih _ h1 (by omega)

/-- `isqrt` is the floor of the square root. -/
theorem isqrt_spec (n : Nat) : isqrt n * isqrt n ≤ n ∧ n < (isqrt n + 1) * (isqrt n + 1) := by
  refine isqrtFrom_spec n _ 0 (by omega) ?_
  rw [Nat.zero_add, ← pow_add]
  exact lt_of_lt_of_le Nat.lt_log2_self (Nat.pow_le_pow_right (by decide) (by omega))

/-- The root of a rational is bracketed by the powers of two that half of its own logarithm gives. -/
theorem log_sqrt {v : Rat} (hv : 0 < v) : Int.log 2 (Real.sqrt v) = floorLog2 v / 2 := by
  obtain ⟨h1, h2⟩ := floorLog2_spec hv
  have hv' : (0 : ℝ) < v := by exact_mod_cast hv
  have hs : 0 < Real.sqrt v := Real.sqrt_pos.mpr hv'
  set L := floorLog2 v
  have sq : ∀ k : Int, ((2 : ℝ) ^ k) ^ 2 = (2 : ℝ) ^ (2 * k) := by
    intro k; rw [← zpow_natCast, ← zpow_mul, mul_comm]; rfl
  have h1' : (2 : ℝ) ^ L ≤ v := by
    have := (Rat.cast_le (K := ℝ)).mpr h1; push_cast at this; exact this
  have h2' : (v : ℝ) < (2 : ℝ) ^ (L + 1) := by
    have := (Rat.cast_lt (K := ℝ)).mpr h2; push_cast at this; exact this
  have a : ((2 : ℕ) : ℝ) ^ (L / 2) ≤ Real.sqrt v := by
    apply Real.le_sqrt_of_sq_le
    push_cast
    rw [sq]
    exact (zpow_le_zpow_right₀ (by norm_num) (by omega)).trans h1'
  have b : Real.sqrt v < ((2 : ℕ) : ℝ) ^ (L / 2 + 1) := by
    rw [Real.sqrt_lt' (by positivity)]
    push_cast
    rw [sq]
    exact h2'.trans_le (zpow_le_zpow_right₀ (by norm_num) (by omega))
  have a' := (Int.zpow_le_iff_le_log (by decide) hs).mp a
  have b' := (Int.lt_zpow_iff_log_lt (by decide) hs).mp b
  omega

/-- The root's rounding runs on exact rationals and is RNE of the real root (R129, R143). -/
theorem rneSqrt_eq (F : Fmt) {v : Rat} (hv : 0 < v) :
    rneSqrt F v = rneR F false (Real.sqrt v) := by
  simp only [rneSqrt, rneR, settle_eq, log_sqrt hv, pow2_eq]
  set e := max (floorLog2 v / 2) F.emin
  set q : ℚ := v / (2 : ℚ) ^ (2 * (e - F.p)) with hq
  have hq0 : 0 < q := by positivity
  have hqR : (0 : ℝ) < q := by exact_mod_cast hq0
  have hm : Real.sqrt v / (2 : ℝ) ^ (e - F.p) = Real.sqrt q := by
    have hk : (0 : ℝ) ≤ (2 : ℝ) ^ (e - F.p) := by positivity
    rw [hq]; push_cast
    rw [Real.sqrt_div' _ (by positivity)]
    congr 1
    rw [mul_comm, zpow_mul, show (2 : ℤ) = ((2 : ℕ) : ℤ) from rfl, zpow_natCast, Real.sqrt_sq hk]
  rw [hm]
  set n := isqrt q.floor.toNat with hn
  obtain ⟨s1, s2⟩ := isqrt_spec q.floor.toNat
  rw [← hn] at s1 s2
  have hfl : (q.floor.toNat : ℤ) = q.floor := Int.toNat_of_nonneg (Int.floor_nonneg.mpr hq0.le)
  have t1 : ((n * n : ℕ) : ℚ) ≤ q := by
    have : ((n * n : ℕ) : ℤ) ≤ q.floor := by rw [← hfl]; exact_mod_cast s1
    exact_mod_cast Int.le_floor.mp this
  have t2 : q < (((n + 1) * (n + 1) : ℕ) : ℚ) := by
    have : q.floor < (((n + 1) * (n + 1) : ℕ) : ℤ) := by rw [← hfl]; exact_mod_cast s2
    exact_mod_cast Int.floor_lt.mp this
  have t1R : (n : ℝ) ^ 2 ≤ q := by rw [sq]; exact_mod_cast (Rat.cast_le (K := ℝ)).mpr t1
  have t2R : (q : ℝ) < ((n : ℝ) + 1) ^ 2 := by rw [sq]; exact_mod_cast (Rat.cast_lt (K := ℝ)).mpr t2
  have hflo : ⌊Real.sqrt q⌋.toNat = n := by
    have : ⌊Real.sqrt q⌋ = (n : ℤ) := by
      rw [Int.floor_eq_iff]
      refine ⟨Real.le_sqrt_of_sq_le (by exact_mod_cast t1R), ?_⟩
      rw [Real.sqrt_lt' (by positivity)]
      exact_mod_cast t2R
    rw [this]; rfl
  rw [hflo]
  have g : ∀ c : ℝ, 0 ≤ c → (c < Real.sqrt q ↔ c * c < q) := fun c hc => by
    rw [Real.lt_sqrt hc, sq]
  have g' : ∀ c : ℝ, 0 ≤ c → (Real.sqrt q = c ↔ (q : ℝ) = c * c) := fun c hc => by
    rw [Real.sqrt_eq_iff_mul_self_eq hqR.le hc]
  have h1 : Real.sqrt q - n > 1 / 2 ↔ q > ((n : ℚ) + 1 / 2) * ((n : ℚ) + 1 / 2) := by
    rw [gt_iff_lt, gt_iff_lt, lt_sub_iff_add_lt, add_comm, g _ (by positivity), ← Rat.cast_lt (K := ℝ)]
    push_cast; rfl
  have h2 : Real.sqrt q - n = 1 / 2 ↔ q = ((n : ℚ) + 1 / 2) * ((n : ℚ) + 1 / 2) := by
    rw [sub_eq_iff_eq_add, add_comm, g' _ (by positivity), ← Rat.cast_inj (α := ℝ)]
    push_cast; rfl
  simp only [h1, h2]

/-! ### What a rounding can give -/

/-- A rounding gives the infinity, the zero or a finite value of its sign (R124, R129). -/
theorem rneR_cases (F : Fmt) (s : Bool) {x : ℝ} (hx : 0 < x) :
    rneR F s x = infF F s ∨ rneR F s x = zeroF F s ∨
      ∃ e m, FiniteOk F e m ∧ rneR F s x = packFinite F s e m := by
  simp only [rneR]
  set e := max (Int.log 2 x) F.emin with he
  set u := (2 : ℝ) ^ (e - F.p) with hu
  have hu0 : 0 < u := by positivity
  have hup : (2 : ℝ) ^ (e + 1) = (2 : ℝ) ^ (F.p + 1) * u := by
    rw [hu, ← zpow_natCast, ← zpow_add₀ (by norm_num)]; congr 1; push_cast; ring
  have hdn : (2 : ℝ) ^ e = (2 : ℝ) ^ F.p * u := by
    rw [hu, ← zpow_natCast, ← zpow_add₀ (by norm_num)]; congr 1; ring
  set n := ⌊x / u⌋.toNat with hn
  have hfl : (0 : ℤ) ≤ ⌊x / u⌋ := Int.floor_nonneg.mpr (by positivity)
  have hnc : (n : ℝ) = (⌊x / u⌋ : ℝ) := by rw [hn, ← Int.cast_natCast, Int.toNat_of_nonneg hfl]
  have h1 : (n : ℝ) * u ≤ x := by rw [hnc]; exact (le_div_iff₀ hu0).mp (Int.floor_le _)
  have h2 : x < ((n : ℝ) + 1) * u := by
    rw [hnc]; exact (div_lt_iff₀ hu0).mp (Int.lt_floor_add_one _)
  have hlt : n < 2 ^ (F.p + 1) := by
    have h : x < (2 : ℝ) ^ (e + 1) :=
      lt_two_zpow_log_succ.trans_le (zpow_le_zpow_right₀ (by norm_num) (by omega))
    have : (n : ℝ) * u < (2 : ℝ) ^ (F.p + 1) * u := by rw [← hup]; linarith
    exact_mod_cast lt_of_mul_lt_mul_right this hu0.le
  have hsub : n < 2 ^ F.p → e = F.emin := by
    intro hs
    by_contra hne
    have hee : e = Int.log 2 x := by omega
    have h : (2 : ℝ) ^ e ≤ x := by rw [hee]; exact two_zpow_log_le hx
    have h' : ((n : ℝ) + 1) * u ≤ (2 : ℝ) ^ F.p * u :=
      mul_le_mul_of_nonneg_right (by exact_mod_cast hs) hu0.le
    rw [hdn] at h
    linarith
  set k := if x / u - n > 1 / 2 ∨ x / u - n = 1 / 2 ∧ n % 2 = 1 then n + 1 else n with hk
  have hk1 : n ≤ k := by rw [hk]; split <;> omega
  have hk2 : k ≤ 2 ^ (F.p + 1) := by rw [hk]; split <;> omega
  have hmin : F.emin ≤ e := le_max_right _ _
  by_cases hc : k = 2 ^ (F.p + 1)
  · simp only [hc, if_true]
    split
    · exact .inl rfl
    · rename_i hle
      have hp : (2 : ℕ) ^ F.p ≠ 0 := by positivity
      simp only [hp, if_false]
      refine .inr (.inr ⟨_, _, ⟨by omega, ?_, by omega, by omega, fun h => absurd h (lt_irrefl _)⟩, rfl⟩)
      rw [pow_succ]; omega
  · simp only [hc, if_false]
    split
    · exact .inl rfl
    · rename_i hle
      split
      · exact .inr (.inl rfl)
      · exact .inr (.inr ⟨_, _, ⟨by omega, by omega, hmin, by omega, fun h => hsub (by omega)⟩, rfl⟩)

/-- A rounded value fits the format's width. -/
theorem rneR_lt (F : Fmt) (s : Bool) {x : ℝ} (hx : 0 < x) : (rneR F s x).toNat < 2 ^ F.width := by
  rcases rneR_cases F s hx with h | h | ⟨e, m, hok, h⟩
  · rw [h]; exact infF_lt F s
  · rw [h]; exact zeroF_lt F s
  · rw [h]; exact packFinite_lt F s hok

theorem rneSignedR_lt (F : Fmt) {S : ℝ} (hS : S ≠ 0) : (rneSignedR F S).toNat < 2 ^ F.width :=
  rneR_lt F _ (abs_pos.mpr hS)

end Sys2Proof
end

