-- ==== Sys2Proof/Laws/Pi.lean ====
section
/-! SUPPORT. The constant `piScaled` is floor(π · 2^400), by Machin's formula, and the constants of R244 are
the correctly rounded ones. -/

namespace Sys2Proof

/-- The first n terms of the arctangent series at x. -/
def atanSum (x : Rat) : Nat → Rat
  | 0 => 0
  | n + 1 => atanSum x n + (if n % 2 = 0 then 1 else -1) * (x ^ (2 * n + 1) / ((2 * n + 1 : Nat) : Rat))

theorem atanSum_cast (x : Rat) (n : Nat) :
    (atanSum x n : ℝ) =
      ∑ i ∈ Finset.range n, (-1 : ℝ) ^ i * ((x : ℝ) ^ (2 * i + 1) / ((2 * i + 1 : Nat) : ℝ)) := by
  induction n with
  | zero => simp [atanSum]
  | succ n ih =>
    rw [atanSum, Finset.sum_range_succ, ← ih]
    push_cast
    congr 2
    rcases Nat.even_or_odd n with h | h
    · simp [h.neg_one_pow, Nat.even_iff.mp h]
    · simp [h.neg_one_pow, Nat.odd_iff.mp h]

/-- For 0 < x < 1 the partial sums bracket the arctangent. -/
theorem atanSum_bounds {x : Rat} (h0 : 0 < x) (h1 : x < 1) (k : Nat) :
    (atanSum x (2 * k) : ℝ) ≤ Real.arctan x ∧ Real.arctan x ≤ atanSum x (2 * k + 1) := by
  have h0' : (0 : ℝ) < x := by exact_mod_cast h0
  have h1' : (x : ℝ) < 1 := by exact_mod_cast h1
  have hn : ‖(x : ℝ)‖ < 1 := by rw [Real.norm_of_nonneg h0'.le]; exact h1'
  have ht := (Real.hasSum_arctan hn).tendsto_sum_nat
  have ht' : Filter.Tendsto (fun n => ∑ i ∈ Finset.range n, (-1 : ℝ) ^ i *
      ((x : ℝ) ^ (2 * i + 1) / ((2 * i + 1 : Nat) : ℝ))) Filter.atTop (nhds (Real.arctan x)) := by
    simpa only [mul_div_assoc] using ht
  have ha : Antitone fun i : Nat => (x : ℝ) ^ (2 * i + 1) / ((2 * i + 1 : Nat) : ℝ) := by
    intro i j hij
    have : (x : ℝ) ^ (2 * j + 1) ≤ (x : ℝ) ^ (2 * i + 1) :=
      pow_le_pow_of_le_one h0'.le h1'.le (by omega)
    have hc : ((2 * i + 1 : Nat) : ℝ) ≤ ((2 * j + 1 : Nat) : ℝ) := by exact_mod_cast (by omega)
    exact div_le_div₀ (by positivity) this (by positivity) hc
  rw [atanSum_cast, atanSum_cast]
  exact ⟨ha.alternating_series_le_tendsto ht' k, ha.tendsto_le_alternating_series ht' k⟩

theorem piScaled_le_machin :
    (piScaled : Rat) / 2 ^ 400 ≤ 4 * (4 * atanSum (1 / 5) (2 * 90) - atanSum (1 / 239) (2 * 30 + 1)) := by
  decide +kernel

theorem machin_lt_piScaled_succ :
    4 * (4 * atanSum (1 / 5) (2 * 90 + 1) - atanSum (1 / 239) (2 * 30)) < ((piScaled : Rat) + 1) / 2 ^ 400 := by
  decide +kernel

/-- `piScaled` is floor(π · 2^400). -/
theorem piScaled_spec :
    (piScaled : ℝ) / 2 ^ 400 ≤ Real.pi ∧ Real.pi < ((piScaled : ℝ) + 1) / 2 ^ 400 := by
  have hpi : Real.pi = 4 * (4 * Real.arctan ((1 / 5 : Rat) : ℝ) - Real.arctan ((1 / 239 : Rat) : ℝ)) := by
    have h := Real.four_mul_arctan_inv_5_sub_arctan_inv_239
    push_cast
    rw [one_div, one_div, h]; ring
  obtain ⟨a1, a2⟩ := atanSum_bounds (x := 1 / 5) (by norm_num) (by norm_num) 90
  obtain ⟨b1, b2⟩ := atanSum_bounds (x := 1 / 239) (by norm_num) (by norm_num) 30
  have l := (Rat.cast_le (K := ℝ)).mpr piScaled_le_machin
  have u := (Rat.cast_lt (K := ℝ)).mpr machin_lt_piScaled_succ
  rw [Rat.cast_mul, Rat.cast_sub, Rat.cast_mul, Rat.cast_div, Rat.cast_pow, Rat.cast_ofNat] at l u
  rw [Rat.cast_add, Rat.cast_one] at u
  rw [Rat.cast_natCast, Rat.cast_ofNat] at l u
  push_cast at a1 a2 b1 b2
  rw [hpi]
  generalize (piScaled : ℝ) / 2 ^ 400 = A at *
  generalize ((piScaled : ℝ) + 1) / 2 ^ 400 = B at *
  push_cast
  constructor
  · linarith
  · linarith

/-! ### Rounding a number that lies inside a half-step -/

/-- A number strictly between N and N+1 half-steps of its binade rounds to the nearer step, (N+1)/2 (R129). -/
theorem rneR_of_half_step (F : Fmt) (s : Bool) {x : ℝ} {e : Int} {N : Nat} (he : F.emin ≤ e)
    (h1 : (2 : ℝ) ^ e ≤ x) (h2 : x < (2 : ℝ) ^ (e + 1))
    (hN : (N : ℝ) * (2 : ℝ) ^ (e - F.p - 1) < x) (hN' : x < ((N : ℝ) + 1) * (2 : ℝ) ^ (e - F.p - 1)) :
    rneR F s x = settle F s e ((N + 1) / 2) := by
  have hx : 0 < x := lt_of_lt_of_le (by positivity) h1
  have hlog : Int.log 2 x = e := by
    have a := (Int.zpow_le_iff_le_log (b := 2) (by decide) hx).mp (by exact_mod_cast h1)
    have b := (Int.lt_zpow_iff_log_lt (b := 2) (by decide) hx).mp (by exact_mod_cast h2)
    omega
  simp only [rneR, settle_eq, hlog, max_eq_left he]
  have hu : (2 : ℝ) ^ (e - F.p) = 2 * (2 : ℝ) ^ (e - F.p - 1) := by
    rw [← zpow_one_add₀ (by norm_num)]; congr 1; ring
  have hv : (0 : ℝ) < (2 : ℝ) ^ (e - F.p - 1) := by positivity
  set v := (2 : ℝ) ^ (e - F.p - 1)
  rw [hu]
  set m := x / (2 * v) with hm
  have hm1 : (N : ℝ) < 2 * m := by
    rw [hm, show 2 * (x / (2 * v)) = x / v by field_simp, lt_div_iff₀ hv]; exact hN
  have hm2 : 2 * m < (N : ℝ) + 1 := by
    rw [hm, show 2 * (x / (2 * v)) = x / v by field_simp, div_lt_iff₀ hv]; exact hN'
  obtain ⟨q, r, hr, rfl⟩ : ∃ q r, r < 2 ∧ N = 2 * q + r :=
    ⟨N / 2, N % 2, Nat.mod_lt _ (by decide), (Nat.div_add_mod N 2).symm⟩
  rw [Nat.cast_add, Nat.cast_mul, Nat.cast_ofNat] at hm1 hm2
  have hfl : ⌊m⌋.toNat = q := by
    have : ⌊m⌋ = (q : ℤ) := by
      rw [Int.floor_eq_iff, Int.cast_natCast]
      interval_cases r <;> norm_num at hm1 hm2 <;> constructor <;> linarith
    rw [this]; rfl
  rw [hfl]
  interval_cases r
  · norm_num at hm1 hm2
    have c1 : ¬ m - q > 1 / 2 := by linarith
    have c2 : ¬ m - q = 1 / 2 := by intro hc; linarith
    simp only [c1, c2, false_or, false_and, if_false, show (2 * q + 0 + 1) / 2 = q by omega]
  · norm_num at hm1 hm2
    have c1 : m - q > 1 / 2 := by linarith
    simp only [c1, true_or, if_true, show (2 * q + 1 + 1) / 2 = q + 1 by omega]

/-- The exponent of k·π/4. -/
def piExp (k : Nat) : Int := if k = 1 then -1 else if k = 2 then 0 else 1

/-- How many low bits of k·`piScaled` lie below half a step of k·π/4 in a format. -/
def piShift (F : Fmt) (k : Nat) : Nat := (401 + piExp k - F.p).toNat

/-- Neither k·`piScaled` nor k·(`piScaled` + 1) is at, or across, a boundary of the half-steps. -/
theorem pi_inside (F : Fmt) {k : Nat} (hk : 1 ≤ k) (hk' : k ≤ 4) :
    ((piShift F k : Int) = 401 + piExp k - F.p ∧
      k * piScaled / 2 ^ piShift F k * 2 ^ piShift F k < k * piScaled ∧
      k * (piScaled + 1) < (k * piScaled / 2 ^ piShift F k + 1) * 2 ^ piShift F k) ∧
    F.emin ≤ piExp k := by
  interval_cases k <;> cases F <;> decide +kernel

theorem pi_binade {k : Nat} (hk : 1 ≤ k) (hk' : k ≤ 4) :
    (2 : Rat) ^ (piExp k + 402) ≤ k * piScaled ∧
      (k : Rat) * (piScaled + 1) ≤ (2 : Rat) ^ (piExp k + 403) := by
  interval_cases k <;> decide +kernel

/-- A number between k·`piScaled` and k·(`piScaled` + 1), scaled, rounds as k·π/4 does. -/
theorem rneR_near_pi (F : Fmt) (s : Bool) {k : Nat} (hk : 1 ≤ k) (hk' : k ≤ 4) {x : ℝ}
    (h1 : (k : ℝ) * piScaled ≤ x * 2 ^ 402) (h2 : x * 2 ^ 402 < (k : ℝ) * (piScaled + 1)) :
    rneR F s x = settle F s (piExp k) ((k * piScaled / 2 ^ piShift F k + 1) / 2) := by
  obtain ⟨⟨hs, a1, a2⟩, he⟩ := pi_inside F hk hk'
  obtain ⟨b1, b2⟩ := pi_binade hk hk'
  have a1' := (Nat.cast_lt (α := ℝ)).mpr a1
  have a2' := (Nat.cast_lt (α := ℝ)).mpr a2
  have b1' := (Rat.cast_le (K := ℝ)).mpr b1
  have b2' := (Rat.cast_le (K := ℝ)).mpr b2
  generalize k * piScaled / 2 ^ piShift F k = N at *
  rw [Nat.cast_mul, Nat.cast_mul, Nat.cast_pow] at a1'
  rw [Nat.cast_mul, Nat.cast_mul, Nat.cast_pow, Nat.cast_add, Nat.cast_add] at a2'
  rw [Rat.cast_zpow, Rat.cast_mul, Rat.cast_natCast, Rat.cast_natCast] at b1'
  rw [Rat.cast_zpow, Rat.cast_mul, Rat.cast_add, Rat.cast_natCast, Rat.cast_natCast] at b2'
  generalize (piScaled : ℝ) = P at *
  have c : (2 : ℝ) ^ (402 : ℕ) = (2 : ℝ) ^ (402 : ℤ) := (zpow_natCast (2 : ℝ) 402).symm
  have t : (0 : ℝ) < (2 : ℝ) ^ (402 : ℤ) := zpow_pos (by norm_num) _
  have two : (2 : ℝ) ≠ 0 := by norm_num
  rw [c] at h1 h2
  have hstep : (2 : ℝ) ^ (piExp k - F.p - 1) * (2 : ℝ) ^ (402 : ℤ) = (2 : ℝ) ^ piShift F k := by
    rw [← zpow_add₀ two, ← zpow_natCast, hs]; congr 1; ring
  simp only [Rat.cast_ofNat, Rat.cast_one, Nat.cast_ofNat, Nat.cast_one] at a1' a2' b1' b2'
  apply rneR_of_half_step F s he
  · refine le_of_mul_le_mul_right ?_ t
    rw [← zpow_add₀ two]; exact b1'.trans h1
  · refine lt_of_mul_lt_mul_right ?_ t.le
    rw [← zpow_add₀ two, show piExp k + 1 + 402 = piExp k + 403 by ring]; exact h2.trans_le b2'
  · refine lt_of_mul_lt_mul_right ?_ t.le
    rw [mul_assoc, hstep]; exact a1'.trans_le h1
  · refine lt_of_mul_lt_mul_right ?_ t.le
    rw [mul_assoc, hstep]; exact h2.trans a2'

/-- The named constants are the correctly rounded k·π/4 (R244). -/
theorem rnePi_eq (F : Fmt) (s : Bool) {k : Nat} (hk : 1 ≤ k) (hk' : k ≤ 4) :
    rnePi F s k = rneR F s (k * (Real.pi / 4)) := by
  obtain ⟨p1, p2⟩ := piScaled_spec
  have hk0 : (0 : ℝ) < k := by exact_mod_cast hk
  have t : (0 : ℝ) < (2 : ℝ) ^ 400 := pow_pos (by norm_num) _
  have t2 : (2 : ℝ) ^ 402 = (2 : ℝ) ^ 400 * 4 := by rw [show 402 = 400 + 2 from rfl, pow_add]; norm_num
  have t3 : (2 : ℝ) ^ 403 = (2 : ℝ) ^ 400 * 8 := by rw [show 403 = 400 + 3 from rfl, pow_add]; norm_num
  rw [div_le_iff₀ t] at p1
  rw [lt_div_iff₀ t] at p2
  have hP : 0 < piScaled := by decide
  have hq : mkRat ((k : Int) * (2 * (piScaled : Int) + 1)) (2 ^ 403) =
      ((k : Rat) * (2 * piScaled + 1)) / 2 ^ 403 := by
    rw [Rat.mkRat_eq_div, Nat.cast_pow, Int.cast_mul, Int.cast_add, Int.cast_mul, Int.cast_natCast,
      Int.cast_natCast]
    simp only [Int.cast_ofNat, Int.cast_one, Nat.cast_ofNat]
  have hq0 : (0 : Rat) < ((k : Rat) * (2 * piScaled + 1)) / 2 ^ 403 :=
    div_pos (mul_pos (by exact_mod_cast hk) (by positivity)) (pow_pos (by norm_num) _)
  rw [rnePi, hq, rne_eq_rneR F s hq0, Rat.cast_div, Rat.cast_mul, Rat.cast_add, Rat.cast_mul, Rat.cast_pow,
    Rat.cast_natCast, Rat.cast_natCast]
  simp only [Rat.cast_ofNat, Rat.cast_one]
  generalize hPr : (piScaled : ℝ) = P at *
  have x1 : k * (2 * P + 1) / (2 : ℝ) ^ 403 * 2 ^ 402 = k * P + k / 2 := by
    rw [t2, t3]; field_simp; ring
  rw [rneR_near_pi F s hk hk' (by rw [x1, hPr]; linarith) (by rw [x1, hPr]; linarith)]
  have x2 : (k : ℝ) * (Real.pi / 4) * 2 ^ 402 = k * (Real.pi * 2 ^ 400) := by rw [t2]; ring
  rw [rneR_near_pi F s hk hk']
  · rw [x2, hPr]; exact mul_le_mul_of_nonneg_left p1 hk0.le
  · rw [x2, hPr]; exact mul_lt_mul_of_pos_left p2 hk0

end Sys2Proof
end

