-- ==== Sys2Proof/Tests/Slice0.lean ====
section
/-! SUPPORT. The model's own tests.  Expected values are the spec's own examples (the rule is named) or words
put together by hand from the encoding tables.  At the end, for each statement with hypotheses, a concrete
state and operands that meet them. -/

namespace Sys2Proof.Tests

set_option Elab.async false

open Sys2Proof Sys2Proof.Machine Sys2Proof.Safety

/-! ### WellFormed: each check refuses an ill-formed term -/

/-- FADD.H f0, f0, f0 as fields: well formed. -/
def plain : Fields := { op := 0x01, fmt := 0, fmt2 := 0, rd := 0, rs1 := 0, rs2 := 0, rs3 := 0 }

theorem test_wellFormed : plain.wellFormed = true := by decide
theorem test_opListed_refuses :
    ({ plain with op := 0x00 }).wellFormed = false ∧ ({ plain with op := 0x3F }).wellFormed = false := by decide
theorem test_fmtLegal_refuses : ({ plain with fmt := 6 }).wellFormed = false := by decide
theorem test_fmt2Legal_refuses :
    ({ plain with op := 0x18, fmt2 := 6 }).wellFormed = false ∧
    ({ plain with op := 0x19, fmt2 := 8 }).wellFormed = false ∧
    ({ plain with op := 0x1A, fmt2 := 8 }).wellFormed = false := by decide
theorem test_unusedZero_refuses :
    ({ plain with rs3 := 1 }).wellFormed = false ∧ ({ plain with fmt2 := 1 }).wellFormed = false ∧
    ({ plain with op := 0x06, rs2 := 1 }).wellFormed = false ∧
    ({ plain with op := 0x18, rs2 := 1 }).wellFormed = false ∧
    ({ plain with op := 0x05, fmt2 := 1 }).wellFormed = false := by decide

/-! ### Decoding: every command, from a word put together from R91's bit positions and R97's opcodes -/

theorem test_decode_arith :
    decode 0x0E130001 = .ok (.fadd .half 3 1 14) ∧
    decode 0x016A0102 = .ok (.fsub .bfloat16 10 6 1) ∧
    decode 0x04B10203 = .ok (.fmul .single 1 11 4) ∧
    decode 0x07080304 = .ok (.fdiv .double 8 0 7) ∧
    decode 0x5A5F0405 = .ok (.fma .quadruple 15 5 10 5) ∧
    decode 0x00A60506 = .ok (.fsqrt .octuple 6 10) := by
  decide

theorem test_decode_sign_and_comparison :
    decode 0x00FD0008 = .ok (.fneg .half 13 15) ∧
    decode 0x00440109 = .ok (.fabs .bfloat16 4 4) ∧
    decode 0x069B020A = .ok (.fcopysign .single 11 9 6) ∧
    decode 0x09E2030C = .ok (.feq .double 2 14 9) ∧
    decode 0x0C39040D = .ok (.flt .quadruple 9 3 12) ∧
    decode 0x0F80050E = .ok (.fle .octuple 0 8 15) ∧
    decode 0x02D7000F = .ok (.fne .half 7 13 2) := by
  decide

theorem test_decode_round_and_convert :
    decode 0x002E0110 = .ok (.ftrunc .bfloat16 14 2) ∧
    decode 0x00750211 = .ok (.ffloor .single 5 7) ∧
    decode 0x00CC0312 = .ok (.fceil .double 12 12) ∧
    decode 0x00130413 = .ok (.fround .quadruple 3 1) ∧
    decode 0x006A0514 = .ok (.frint .octuple 10 6) ∧
    decode 0x00B10015 = .ok (.fisint .half 1 11) ∧
    decode 0x00083118 = .ok (.fcvtFF .bfloat16 .double 8 0) ∧
    decode 0x005F7219 = .ok (.fcvtIF .single .u64 15 5) ∧
    decode 0x00A6231A = .ok (.fcvtFI .double .i16 6 10) := by
  decide

theorem test_decode_trigonometric :
    decode 0x00FD0420 = .ok (.fsin .quadruple 13 15) ∧
    decode 0x00440521 = .ok (.fcos .octuple 4 4) ∧
    decode 0x009B0022 = .ok (.ftan .half 11 9) ∧
    decode 0x00E20123 = .ok (.fasin .bfloat16 2 14) ∧
    decode 0x00390224 = .ok (.facos .single 9 3) ∧
    decode 0x00800325 = .ok (.fatan .double 0 8) ∧
    decode 0x02D70426 = .ok (.fatan2 .quadruple 7 13 2) := by
  decide

theorem test_decode_exponential_and_power :
    decode 0x002E0528 = .ok (.fexp .octuple 14 2) ∧
    decode 0x00750029 = .ok (.fexpm1 .half 5 7) ∧
    decode 0x00CC012A = .ok (.flog .bfloat16 12 12) ∧
    decode 0x0013022B = .ok (.flog1p .single 3 1) ∧
    decode 0x016A032C = .ok (.fpow .double 10 6 1) ∧
    decode 0x00B1042D = .ok (.fcbrt .quadruple 1 11) := by
  decide

theorem test_decode_hyperbolic_special_and_modulo :
    decode 0x00080530 = .ok (.fsinh .octuple 8 0) ∧
    decode 0x005F0031 = .ok (.fcosh .half 15 5) ∧
    decode 0x00A60132 = .ok (.ftanh .bfloat16 6 10) ∧
    decode 0x00FD0233 = .ok (.fasinh .single 13 15) ∧
    decode 0x00440334 = .ok (.facosh .double 4 4) ∧
    decode 0x009B0435 = .ok (.fatanh .quadruple 11 9) ∧
    decode 0x00E20538 = .ok (.ferf .octuple 2 14) ∧
    decode 0x00390039 = .ok (.ferfc .half 9 3) ∧
    decode 0x0080013A = .ok (.ftgamma .bfloat16 0 8) ∧
    decode 0x00D7023B = .ok (.flgamma .single 7 13) ∧
    decode 0x052E033C = .ok (.ffmod .double 14 2 5) ∧
    decode 0x0875043D = .ok (.fremainder .quadruple 5 7 8) ∧
    decode 0x0BCC053E = .ok (.fremquo .octuple 12 12 11) := by
  decide

/-- The words of R105. -/
theorem test_decode_spec_words :
    decode 0x32140305 = .ok (.fma .double 4 1 2 3) ∧ encode (.fma .double 4 1 2 3) = 0x32140305 := by decide

/-- Reserved opcodes (R98) and the priorities of R383. -/
theorem test_decode_causes :
    decode 0x00000000 = .error .badOp ∧ decode 0x00000FFF = .error .badOp ∧
    decode 0x00000F01 = .error .badFmt ∧ decode 0xF0000F01 = .error .badFmt ∧
    decode 0x00006018 = .error .badFmt2 ∧ decode 0x00008019 = .error .badFmt2 ∧
    decode 0x10000001 = .error .badField ∧ decode 0x01000018 = .error .badField := by decide

/-! ### Commands: the spec's examples and vectors (95_test_vectors, and the rule named) -/

/-- A small state: f1, f2 and f3 hold the operands. -/
def start (a b c : Reg) : State := ((State.reset.setReg 1 a).setReg 2 b).setReg 3 c

/-- What a command left in f4. -/
def inF4 (o : Outcome) : Option Reg :=
  match o with
  | .next t => some (t.reg 4)
  | .fault _ => none
  | .refused _ => none

/-- What a command left in AUX. -/
def auxOf (o : Outcome) : Option Word :=
  match o with
  | .next t => some t.aux
  | .fault _ => none
  | .refused _ => none

/-- What f4 holds after a command on the patterns given. -/
def un (c : RegIdx → RegIdx → Instr) (a : Reg) : Option Reg := inF4 (exec (c 4 1) (start a 0 0))
def bin (c : RegIdx → RegIdx → RegIdx → Instr) (a b : Reg) : Option Reg :=
  inF4 (exec (c 4 1 2) (start a b 0))
def ter (c : RegIdx → RegIdx → RegIdx → RegIdx → Instr) (a b d : Reg) : Option Reg :=
  inF4 (exec (c 4 1 2 3) (start a b d))

theorem test_fadd : bin (.fadd .single) 0x3F800001 0x33800000 = some 0x3F800002 := by decide +kernel
theorem test_fadd_overflow : bin (.fadd .half) 0x7BFF 0x4C00 = some 0x7C00 := by decide +kernel
theorem test_fsub : bin (.fsub .double) 0x3FF0000000000000 0x3CA0000000000000 = some 0x3FEFFFFFFFFFFFFF := by
  decide +kernel
/-- A NaN subtrahend's sign is inverted (D50). -/
theorem test_fsub_nan : subF .single 0x3F800000 0x7FC00000 = nanF .single true := by
  rw [subF, addF, show unpack .single 0x3F800000 = .finite false 0 0x800000 by decide +kernel,
    show unpack .single (flipSign .single 0x7FC00000) = .nan true by decide +kernel]
theorem test_fmul_tie : bin (.fmul .single) 0x00000003 0x3F000000 = some 0x00000002 := by decide +kernel
/-- rd = rs1 = rs2 (R416). -/
theorem test_fmul_aliased :
    (match exec (.fmul .double 1 1 1) (start 0x4008000000000000 0 0) with
      | .next t => some (t.reg 1)
      | _ => none) = some 0x4022000000000000 := by decide +kernel
theorem test_fdiv : bin (.fdiv .double) 0x3FF0000000000000 0x4008000000000000 = some 0x3FD5555555555555 := by
  decide +kernel
theorem test_fdiv_by_minus_zero : bin (.fdiv .single) 0x3F800000 0x80000000 = some 0xFF800000 := by
  decide +kernel
theorem test_fma_single_rounding :
    ter (.fma .single) 0x3F800001 0x3F7FFFFE 0xBF800000 = some 0xA8800000 := by decide +kernel
theorem test_fma_octuple :
    ter (.fma .octuple) (0x40000#256 <<< 236) (0x4000080#256 <<< 228) (0x4000100#256 <<< 228)
      = some (0x4000240#256 <<< 228) := by decide +kernel
theorem test_fsqrt : un (.fsqrt .double) 0x4000000000000000 = some 0x3FF6A09E667F3BCD := by decide +kernel
theorem test_fsqrt_subnormal : un (.fsqrt .half) 0x0001 = some 0x0C00 := by decide +kernel
theorem test_fneg_nan : un (.fneg .single) 0x7FC00001 = some 0xFFC00001 := by decide +kernel
theorem test_fabs : un (.fabs .single) 0xFFC00123 = some 0x7FC00123 := by decide +kernel
/-- Bits above W are ignored and become 0 (R32). -/
theorem test_fcopysign_fmv : bin (.fcopysign .single) 0x123456783F800000 0x123456783F800000 = some 0x3F800000 := by
  decide +kernel
theorem test_feq_zeros : bin (.feq .single) 0x00000000 0x80000000 = some 1 := by decide +kernel
theorem test_feq_nan : bin (.feq .single) 0x7FC00000 0x7FC00000 = some 0 := by decide +kernel
theorem test_flt : bin (.flt .single) 0xFF800000 0xFF7FFFFF = some 1 := by decide +kernel
theorem test_fle : bin (.fle .half) 0x4000 0x4000 = some 1 := by decide +kernel
theorem test_fne_nan : bin (.fne .double) 0x7FF8000000000000 0x7FF8000000000000 = some 1 := by decide +kernel
theorem test_ftrunc : un (.ftrunc .single) 0xBF000000 = some 0x80000000 := by decide +kernel
theorem test_ffloor : un (.ffloor .single) 0xBF000000 = some 0xBF800000 := by decide +kernel
theorem test_fceil : un (.fceil .single) 0xC0200000 = some 0xC0000000 := by decide +kernel
theorem test_fround : un (.fround .single) 0xC0200000 = some 0xC0400000 := by decide +kernel
theorem test_frint : un (.frint .single) 0x40600000 = some 0x40800000 := by decide +kernel
theorem test_fisint : un (.fisint .half) 0x6400 = some 1 ∧ un (.fisint .half) 0x3800 = some 0 := by
  decide +kernel
theorem test_fcvtFF : un (.fcvtFF .double .single) 0x3FB999999999999A = some 0x3DCCCCCD := by decide +kernel
theorem test_fcvtFF_overflow : un (.fcvtFF .single .half) 0x477FF000 = some 0x7C00 := by decide +kernel
theorem test_fcvtIF : un (.fcvtIF .double .i32) 0xC00D99999999999A = some 0xFFFFFFFD := by decide +kernel
theorem test_fcvtIF_saturates : un (.fcvtIF .double .i32) 0x41E65A0BC0000000 = some 0x7FFFFFFF := by
  decide +kernel
theorem test_fcvtFI : un (.fcvtFI .double .i64) 0x0020000000000001 = some 0x4340000000000000 := by
  decide +kernel
theorem test_fcvtFI_signed : un (.fcvtFI .single .i32) 0xFFFFFFFF = some 0xBF800000 ∧
    un (.fcvtFI .single .u32) 0xFFFFFFFF = some 0x4F800000 := by decide +kernel
theorem test_fsin_zero : un (.fsin .single) 0x80000000 = some 0x80000000 := by decide +kernel
theorem test_fsin_inf : sinTable .single 0xFF800000 = some (nanF .single false) := by
  rw [sinTable, show unpack .single 0xFF800000 = .inf true by decide +kernel]
theorem test_fcos_zero : un (.fcos .half) 0x8000 = some 0x3C00 := by decide +kernel
theorem test_ftan_zero : un (.ftan .double) 0x8000000000000000 = some 0x8000000000000000 := by decide +kernel
theorem test_fasin_domain : asinTable .single 0x40000000 = some (nanF .single false) := by
  rw [asinTable, show unpack .single 0x40000000 = .finite false 1 0x800000 by decide +kernel]
  exact if_pos (by decide +kernel)
theorem test_facos_one : un (.facos .double) 0x3FF0000000000000 = some 0 := by decide +kernel
theorem test_fatan_inf : un (.fatan .double) 0x7FF0000000000000 = some 0x3FF921FB54442D18 := by decide +kernel
/-- The source's `atan2(+0,-0) == π` (L1.6). -/
theorem test_fatan2 : bin (.fatan2 .double) 0 0x8000000000000000 = some 0x400921FB54442D18 := by
  decide +kernel
theorem test_fatan2_quarter : bin (.fatan2 .single) 0xFF800000 0x7F800000 = some 0xBF490FDB := by decide +kernel
theorem test_fexp : un (.fexp .single) 0xFF800000 = some 0 := by decide +kernel
theorem test_fexpm1 : un (.fexpm1 .single) 0xFF800000 = some 0xBF800000 := by decide +kernel
theorem test_flog_pole : un (.flog .single) 0x80000000 = some 0xFF800000 := by decide +kernel
theorem test_flog1p_pole : un (.flog1p .single) 0xBF800000 = some 0xFF800000 := by decide +kernel
/-- The source's `pow(-1, +Inf) == 1` (L1.5). -/
theorem test_fpow : bin (.fpow .double) 0xBFF0000000000000 0x7FF0000000000000 = some 0x3FF0000000000000 := by
  decide +kernel
/-- Row 2 comes before the NaN rows (R305). -/
theorem test_fpow_one_nan : bin (.fpow .single) 0x3F800000 0x7FC00000 = some 0x3F800000 := by decide +kernel
theorem test_fcbrt : un (.fcbrt .single) 0xFF800000 = some 0xFF800000 := by decide +kernel
theorem test_fsinh : un (.fsinh .half) 0xFC00 = some 0xFC00 := by decide +kernel
theorem test_fcosh : un (.fcosh .double) 0 = some 0x3FF0000000000000 := by decide +kernel
theorem test_ftanh : un (.ftanh .single) 0xFF800000 = some 0xBF800000 := by decide +kernel
theorem test_fasinh : un (.fasinh .bfloat16) 0x8000 = some 0x8000 := by decide +kernel
theorem test_facosh : un (.facosh .single) 0x3F800000 = some 0 := by decide +kernel
theorem test_facosh_zero : acoshTable .single 0x80000000 = some (nanF .single false) := by
  rw [acoshTable, show unpack .single 0x80000000 = .zero true by decide +kernel]
theorem test_fatanh_pole : un (.fatanh .single) 0xBF800000 = some 0xFF800000 := by decide +kernel
theorem test_ferf : un (.ferf .single) 0xFF800000 = some 0xBF800000 := by decide +kernel
theorem test_ferfc : un (.ferfc .single) 0xFF800000 = some 0x40000000 := by decide +kernel
theorem test_ftgamma_pole : un (.ftgamma .single) 0x80000000 = some 0xFF800000 := by decide +kernel
theorem test_flgamma_minus_zero :
    un (.flgamma .single) 0x80000000 = some 0x7F800000 ∧
    auxOf (exec (.flgamma .single 4 1) (start 0x80000000 0 0)) = some 1 := by decide +kernel
/-- R349's example: Γ(-0.5) is negative, whatever the evaluator gives for its logarithm. -/
theorem test_flgamma_sign : auxOf (exec (.flgamma .single 4 1) (start 0xBF000000 0 0)) = some 1 := by
  decide +kernel
theorem test_ffmod_inf : bin (.ffmod .double) 0x4016000000000000 0xFFF0000000000000 = some 0x4016000000000000 := by
  decide +kernel
/-- R350's exact remainders: fmod(5.5, 2) = 1.5, fmod(-7, 2) = -1, fmod(1e300, 7) = 1. -/
theorem test_fmodQ :
    fmodQ (valF .double 0x4016000000000000) 2 = 3 / 2 ∧ fmodQ (-7) 2 = -1 ∧
    fmodQ (valF .double 0x7E37E43C8800759C) 7 = 1 := by decide +kernel
/-- R351's: remainder(5.5, 2) = -0.5, remainder(5, 2) = 1 (a tie), remainder(-7, 2) = 1. -/
theorem test_remQ : remQ (11 / 2) 2 = -1 / 2 ∧ remQ 5 2 = 1 ∧ remQ (-7) 2 = 1 := by decide +kernel
theorem test_fremainder_zero :
    bin (.fremainder .double) 0xC018000000000000 0x4000000000000000 = some 0x8000000000000000 := by
  decide +kernel
theorem test_fremquo_special : auxOf (exec (.fremquo .single 4 1 2) (start 0 0x3F800000 0)) = some 0 := by
  decide +kernel
/-- R352's example: remquo(5.5, 2) has quotient 3, which every admissible REMQUO_QBITS holds. -/
theorem test_fremquo_aux : remquoAux .double 0x4016000000000000 0x4000000000000000 = 3 := by
  have hx : unpack .double 0x4016000000000000 = .finite false 2 0x16000000000000 := by decide +kernel
  have hy : unpack .double 0x4000000000000000 = .finite false 1 0x10000000000000 := by decide +kernel
  have hn : remQuotient (valF .double 0x4016000000000000) (valF .double 0x4000000000000000) = 3 := by
    decide +kernel
  have hq : 3 % 2 ^ Config.remquoQbits = 3 := by
    apply Nat.mod_eq_of_lt
    have : (2 : ℕ) ^ 3 ≤ 2 ^ Config.remquoQbits :=
      Nat.pow_le_pow_right (by decide) (by rw [Config.remquoQbits]; omega)
    omega
  simp only [remquoAux, hx, hy, hn]
  rw [show Int.natAbs 3 = 3 from rfl, hq]
  rfl

/-! ### Formats (R120) and constants (R244) -/

theorem test_format_constants :
    oneF .half false = 0x3C00 ∧ oneF .bfloat16 false = 0x3F80 ∧ oneF .double true = 0xBFF0000000000000 ∧
    packFinite .half false 15 0x7FF = 0x7BFF ∧ valF .half 0x7BFF = 65504 ∧
    packFinite .single false (-126) 0x800000 = 0x00800000 ∧ infF .quadruple false = 0x7FFF#256 <<< 112 ∧
    packFinite .octuple false (-262142) 1 = 1 ∧ packFinite .octuple false (-262142) (2 ^ 236) = 1#256 <<< 236 := by
  decide +kernel
/-- Table L1.2. -/
theorem test_pi_constants :
    rnePi .half false 4 = 0x4248 ∧ rnePi .bfloat16 false 2 = 0x3FC9 ∧
    rnePi .quadruple false 4 = 0x4000921FB54442D18469898CC51701B8 ∧
    rnePi .octuple false 2 = 0x3FFFF921FB54442D18469898CC51701B839A252049C1114CF98E804177D4C762 := by
  decide +kernel

/-! ### Steps -/

/-- The state with one access to serve. -/
def withAccess (off : BitVec 12) (width : Nat) (dir : Dir) : State :=
  { State.reset with pending := [.access { offset := off, width, dir }] }

/-- FADD.S f4, f1, f2 from a state whose next step issues it; the word is recorded (R37). -/
theorem test_step_runs_command :
    (match step ((start 0x3F800000 0x40000000 0).withFetchWord 32 0x02140201) with
      | .next t => some (t.reg 4, t.cmd, t.status)
      | _ => none) = some (0x40400000, 0x02140201, 0) := by decide +kernel
/-- R382: ILL, LAST_ILL and cause 1 for the all-zero word; R38: a legal command clears LAST_ILL only. -/
theorem test_step_illegal :
    (match step (State.reset.withFetchWord 32 0) with
      | .next t => some t.status
      | _ => none) = some 0x13 ∧ statusLegal 0x13 = 0x11 ∧ statusHostWrite 0x13 1 = 0x12 ∧
    statusHostWrite 0x13 2 = 0x13 := by decide +kernel
theorem test_step_bus_errors :
    (match step (withAccess 0x228 8 .read) with
      | .fault f => some f
      | _ => none) = some (.busError 0x228 8) ∧
    (match step (withAccess 0x004 8 .read) with
      | .fault f => some f
      | _ => none) = some (.busError 0x004 8) ∧
    (match step (withAccess 0x220 4 (.write 0)) with
      | .fault f => some f
      | _ => none) = some (.busError 0x220 4) := by decide +kernel
/-- Word 3 of f15 is at 0x1F8 (R61), and only it changes (R62). -/
theorem test_step_register_word :
    (match step (withAccess 0x1F8 8 (.write 0x8000000000000001)) with
      | .next t => some (t.reg 15, t.isWritten 15 3, t.isWritten 15 2)
      | _ => none) = some (0x8000000000000001#256 <<< 192, true, false) := by decide +kernel
/-- ID is the bytes of "TLFC" with T in bits 31:24, then the revision (R35); little-endian (R63). -/
theorem test_window_bytes :
    State.reset.windowByte 0x200 = some 0x43 ∧ State.reset.windowByte 0x203 = some 0x54 ∧
    State.reset.windowByte 0x204 = some 0x07 ∧ State.reset.windowByte 0x208 = some 0x3F ∧
    State.reset.windowByte 0x228 = none := by decide +kernel
theorem test_step_write_to_id_ignored :
    step (withAccess 0x200 8 (.write 5)) = .next { State.reset with reply := .ack } := rfl
/-- R106's WR is four writes, the least significant word first. -/
theorem test_directive_wr :
    directiveWr 1 (5 + (7#256 <<< 192)) =
      [.access { offset := 0x20, width := 8, dir := .write 5 }, .access { offset := 0x28, width := 8, dir := .write 0 },
       .access { offset := 0x30, width := 8, dir := .write 0 }, .access { offset := 0x38, width := 8, dir := .write 7 }] := by
  decide +kernel
/-- R105's spellings. -/
theorem test_assembler_text :
    (Instr.fma .double 4 1 2 3).asm = "FMA.D f4, f1, f2, f3" ∧
    (Instr.fcvtFF .single .double 1 2).asm = "FCVT.D.S f1, f2" ∧
    (Instr.fcvtIF .double .i32 1 2).asm = "FCVT.I32.D f1, f2" ∧
    (Instr.fcvtFI .double .i32 1 2).asm = "FCVT.D.I32 f1, f2" ∧
    disassemble 0x00000FFF = ".word 0x00000FFF" := by decide +kernel

/-! ### Witnesses: for each statement with hypotheses, a state and operands that meet them -/

theorem valR_of {F : Fmt} {b : Reg} {q : ℚ} (h : valF F b = q) : valR F b = (q : ℝ) := by
  rw [valR_eq_cast, h]

/-- Half-precision patterns used below: their exact values. -/
theorem half_one : valR .half 0x3C00 = 1 := by rw [valR_of (q := 1) (by decide +kernel)]; norm_num
theorem half_minus_one : valR .half 0xBC00 = -1 := by rw [valR_of (q := -1) (by decide +kernel)]; norm_num
theorem half_two : valR .half 0x4000 = 2 := by rw [valR_of (q := 2) (by decide +kernel)]; norm_num
theorem half_minus_two : valR .half 0xC000 = -2 := by rw [valR_of (q := -2) (by decide +kernel)]; norm_num
theorem half_three : valR .half 0x4200 = 3 := by rw [valR_of (q := 3) (by decide +kernel)]; norm_num
theorem half_minus_three : valR .half 0xC200 = -3 := by rw [valR_of (q := -3) (by decide +kernel)]; norm_num
theorem half_half : valR .half 0x3800 = 1 / 2 := by rw [valR_of (q := 1 / 2) (by decide +kernel)]; norm_num
theorem half_minus_half : valR .half 0xB800 = -1 / 2 := by
  rw [valR_of (q := -1 / 2) (by decide +kernel)]; norm_num

/-- The classes of the half-precision patterns used below. -/
theorem half_classes :
    cls .half 0x7E00 = .nan ∧ cls .half 0xFE00 = .nan ∧ cls .half 0 = .zero ∧ cls .half 0x8000 = .zero ∧
    cls .half 0x7C00 = .inf ∧ cls .half 0xFC00 = .inf ∧ cls .half 0x3C00 = .finite ∧ cls .half 0xBC00 = .finite ∧
    cls .half 0x4000 = .finite ∧ cls .half 0xC000 = .finite ∧ cls .half 0x4200 = .finite ∧
    cls .half 0xC200 = .finite ∧ cls .half 0x3800 = .finite ∧ cls .half 0xB800 = .finite ∧
    sgn .half 0xFC00 = true ∧ sgn .half 0x7C00 = false ∧ sgn .half 0x8000 = true ∧ sgn .half 0 = false := by
  decide +kernel

/-- Every pattern of the format is an operand of some state with the ROMs' contents: the hypotheses of the
elementary statements are met for every operand, so that a row's or the general case's condition on the
operands alone decides whether it is reached. -/
theorem witness_operands (F : Fmt) (a b : Reg) (ha : a.toNat < 2 ^ F.width) (hb : b.toNat < 2 ^ F.width) :
    RomIntact (start a b 0) ∧ (start a b 0).operand F 1 = a ∧ (start a b 0).operand F 2 = b := by
  refine ⟨⟨rfl, rfl⟩, ?_, ?_⟩
  · exact lowBits_of_lt F.width_le ha
  · exact lowBits_of_lt F.width_le hb

theorem half_lt (n : Nat) (h : n < 65536) : (BitVec.ofNat 256 n).toNat < 2 ^ Fmt.width .half := by
  rw [BitVec.toNat_ofNat]
  exact lt_of_le_of_lt (Nat.mod_le _ _) h

theorem witness_DecodedWordIsItsEncoding : decode 0x32140305 = .ok (.fma .double 4 1 2 3) := by decide
theorem witness_FirstFailedCheckDecides :
    (fieldsOf 0x00000000).opListed = false ∧
    ((fieldsOf 0x00000601).opListed = true ∧ (fieldsOf 0x00000601).fmtLegal = false) ∧
    ((fieldsOf 0x00006018).opListed = true ∧ (fieldsOf 0x00006018).fmtLegal = true ∧
      (fieldsOf 0x00006018).fmt2Legal = false) ∧
    ((fieldsOf 0x10000001).opListed = true ∧ (fieldsOf 0x10000001).fmtLegal = true ∧
      (fieldsOf 0x10000001).fmt2Legal = true ∧ (fieldsOf 0x10000001).unusedZero = false) ∧
    (fieldsOf 0x0000A519).opListed = true ∧ (fieldsOf 0x00000001).wellFormed = true := by decide
theorem witness_StepRunsDecodedCommand :
    (withAccess 0x210 8 (.write 0x32140305)).pending =
      [.access { offset := 0x210, width := 8, dir := .write 0x32140305 }] ∧
    decode ((0x32140305 : Word).setWidth 32) = .ok (.fma .double 4 1 2 3) := by decide
theorem witness_IllegalCommandEffect :
    (withAccess 0x210 8 (.write 0x10000001)).pending =
      [.access { offset := 0x210, width := 8, dir := .write 0x10000001 }] ∧
    decode ((0x10000001 : Word).setWidth 32) = .error .badField := by decide
/-- The first and the last register word and the five registers, each at an offset of its own. -/
theorem witness_HostReadsReturnCurrentValues :
    (withAccess 0x000 8 .read).pending = [.access { offset := 0x000, width := 8, dir := .read }] ∧
    (0x000 : BitVec 12).toNat = 0x20 * (0 : RegIdx).val + 8 * (0 : Fin 4).val ∧
    (0x1F8 : BitVec 12).toNat = 0x20 * (15 : RegIdx).val + 8 * (3 : Fin 4).val ∧
    (0x200 : BitVec 12).toNat = 0x200 ∧ (0x208 : BitVec 12).toNat = 0x208 ∧
    (0x210 : BitVec 12).toNat = 0x210 ∧ (0x218 : BitVec 12).toNat = 0x218 ∧
    (0x220 : BitVec 12).toNat = 0x220 := by decide
theorem witness_HostWritesChangeOneWord :
    (withAccess 0x1F8 8 (.write 7)).pending = [.access { offset := 0x1F8, width := 8, dir := .write 7 }] ∧
    (0x1F8 : BitVec 12).toNat = 0x20 * (15 : RegIdx).val + 8 * (3 : Fin 4).val ∧
    decode ((0x00000001 : Word).setWidth 32) = .ok (.fadd .half 0 0 0) := by decide
/-- Each condition alone, and the last offset that is no bus error. -/
theorem witness_BusErrorConditions :
    (withAccess 0x000 4 .read).pending = [.access { offset := 0x000, width := 4, dir := .read }] ∧
    (0x001 : BitVec 12).toNat % 8 ≠ 0 ∧ 0x228 ≤ (0x228 : BitVec 12).toNat ∧
    (0x220 : BitVec 12).toNat % 8 = 0 ∧ (0x220 : BitVec 12).toNat < 0x228 := by decide
theorem witness_PlatformResetEffect :
    ({ State.reset with pending := [.reset] } : State).pending = [.reset] ∧
    ({ State.reset with pending := [.accessInReset { offset := 0, width := 8, dir := .read }] } : State).pending =
      [.accessInReset { offset := 0, width := 8, dir := .read }] := by decide
/-- A state that meets the invariant, after an illegal command, and its next step. -/
theorem witness_StepKeepsInv : ∃ t, Inv ({ State.reset with
      cmd := 0, status := 0x13, pending := [cmdWrite 0x00000001] } : State) ∧
    step ({ State.reset with cmd := 0, status := 0x13, pending := [cmdWrite 0x00000001] } : State) = .next t := by
  refine ⟨_, ⟨by decide, by decide, by decide, fun _ => ⟨.badOp, by decide, by decide⟩, by decide, ⟨rfl, rfl⟩⟩, rfl⟩
theorem witness_RomsAreReadOnly : ∃ t, step (State.reset.withFetchWord 32 0x00000001) = .next t := ⟨_, rfl⟩
/-- Two states that differ in f0, which nothing has written, and a step that does not read it. -/
theorem witness_UnwrittenWordsCannotBeLearnt :
    AgreeOnWritten (State.reset.withFetchWord 32 0) ({ State.reset.withFetchWord 32 0 with
      regs := State.reset.regs.set 0 1 }) ∧
    (State.reset.withFetchWord 32 0).regs ≠ State.reset.regs.set 0 1 ∧
    unwrittenRead (State.reset.withFetchWord 32 0) = none := by
  refine ⟨⟨rfl, ?_, rfl, rfl, rfl, rfl, rfl, rfl, rfl, rfl⟩, by decide +kernel, by decide +kernel⟩
  intro i j h
  have : (State.reset.withFetchWord 32 0).isWritten i j = false := by
    simp [State.isWritten, State.withFetchWord, State.reset, noneWritten]
  rw [this] at h; cases h
/-- A byte of f5, of CMD and (for a command that is not FLGAMMA or FREMQUO) of AUX. -/
theorem witness_CommandWindowFrame : ∃ t, exec (.fadd .half 4 1 2) (start 1 2 3) = .next t ∧
    ¬(0x20 * (regOf (Instr.fadd .half 4 1 2).fields.rd).val ≤ (0x0A0 : BitVec 12).toNat ∧
      (0x0A0 : BitVec 12).toNat < 0x20 * (regOf (Instr.fadd .half 4 1 2).fields.rd).val + 0x20) ∧
    (0x0A0 : BitVec 12).toNat ≠ 0x218 ∧ (0x220 : BitVec 12).toNat ≠ 0x218 ∧
    (Instr.fadd .half 4 1 2).fields.op ≠ 0x3B ∧ (Instr.flgamma .half 4 1).fields.op = 0x3B ∧
    ¬(0x220 ≤ (0x228 : BitVec 12).toNat ∧ (0x228 : BitVec 12).toNat < 0x228) :=
  ⟨_, rfl, by decide, by decide, by decide, by decide, by decide, by decide⟩
theorem witness_ResultsAreZeroExtended : ∃ t, exec (.fadd .half 4 1 2) (start 1 2 3) = .next t := ⟨_, rfl⟩
/-- Different states that have the same half-precision operand: one holds bits above it in the same word. -/
theorem witness_ResultDependsOnOperandsOnly :
    SameOperands (.fsqrt .half 4 1) (start 0x3C00 0 0) (start (0x3C00 + (1#256 <<< 20)) 5 6) ∧
    (start 0x3C00 0 0).coefRom = (start (0x3C00 + (1#256 <<< 20)) 5 6).coefRom ∧
    (start 0x3C00 0 0).invPiRom = (start (0x3C00 + (1#256 <<< 20)) 5 6).invPiRom :=
  ⟨by unfold SameOperands; decide +kernel, rfl, rfl⟩
/-- The integer cast reads the low 8 bits of an I8 operand. -/
theorem witness_ResultDependsOnOperandsOnly_cast :
    SameOperands (.fcvtFI .half .i8 4 1) (start 0x7F 0 0) (start 0xFF7F 0 0) := by
  unfold SameOperands; decide +kernel

/-! The conclusions of the arithmetic statements are conditional only inside the rules; the comparisons, FISINT
and the integer cast have a hypothesis on the operands. -/

theorem half_eq_self : Ordered .half 0x3C00 0x3C00 ∧ valE .half 0x3C00 = valE .half 0x3C00 :=
  ⟨by unfold Ordered; decide +kernel, rfl⟩
theorem half_lt_pair : Ordered .half 0x3C00 0x4000 ∧ valE .half 0x3C00 < valE .half 0x4000 := by
  refine ⟨by unfold Ordered; decide +kernel, ?_⟩
  have h1 : cls .half 0x3C00 ≠ .inf := by decide +kernel
  have h2 : cls .half 0x4000 ≠ .inf := by decide +kernel
  rw [valE, valE, if_neg h1, if_neg h2, half_one, half_two]
  exact_mod_cast (by norm_num : (1 : ℝ) < 2)
theorem half_unordered : ¬ Ordered .half 0x3C00 0x7E00 := by unfold Ordered; decide +kernel
theorem witness_ComparisonResults :
    (Ordered .half 0x3C00 0x3C00 ∧ valE .half 0x3C00 = valE .half 0x3C00) ∧
    (Ordered .half 0x3C00 0x4000 ∧ valE .half 0x3C00 < valE .half 0x4000) ∧
    ¬ Ordered .half 0x3C00 0x7E00 := ⟨half_eq_self, half_lt_pair, half_unordered⟩
theorem half_integer : IsInteger .half 0x3C00 := ⟨by decide +kernel, 1, by rw [half_one]; norm_num⟩
theorem half_not_integer : ¬ IsInteger .half 0x3800 := by
  rintro ⟨-, n, h⟩
  rw [half_half] at h
  have h2 : ((2 * n : ℤ) : ℝ) = (1 : ℤ) := by push_cast; linarith
  have := Int.cast_inj.mp h2
  omega
theorem witness_FisintResult :
    cls .half 0x8000 = .zero ∧ IsInteger .half 0x3C00 ∧ ¬(cls .half 0x3800 = .zero ∨ IsInteger .half 0x3800) :=
  ⟨by decide +kernel, half_integer, by
    rintro (h | h)
    · revert h; decide +kernel
    · exact half_not_integer h⟩
theorem witness_FloatToIntResult : cls .half 0x7E00 = .nan ∧ cls .half 0x7C00 ≠ .nan := by decide +kernel
/-- ∞ - ∞, the generated NaN. -/
theorem witness_NanResultsAreQuiet : ∃ t, exec (.fadd .half 4 1 2) (start 0x7C00 0xFC00 0) = .next t ∧
    (Instr.fadd .half 4 1 2).fields.op ∈ ([0x01, 0x02, 0x03, 0x04, 0x05, 0x06, 0x10, 0x11, 0x12, 0x13, 0x14, 0x18, 0x1A] :
      List (BitVec 8)) ∧
    (Instr.fadd .half 4 1 2).result = .float .half ∧
    cls .half (t.reg (regOf (Instr.fadd .half 4 1 2).fields.rd)) = .nan := by
  refine ⟨_, rfl, by decide, rfl, ?_⟩
  have h : ((start 0x7C00 0xFC00 0).retire 4 (lowBits 16 (nanF .half false))).reg 4 = nanF .half false := by
    rw [State.reg_retire_self]; exact lowBits_of_lt (by decide) (nanF_lt .half false)
  show cls .half (((start 0x7C00 0xFC00 0).retire 4 (lowBits 16 (nanF .half false))).reg 4) = .nan
  rw [h, cls, unpack_nanF]
theorem witness_RoundingIsIdempotent :
    ∀ c ∈ [Instr.ftrunc, Instr.ffloor, Instr.fceil, Instr.fround, Instr.frint],
      ∃ t, exec (c .half 4 1) (start 0x3800 0 0) = .next t := by
  intro c hc
  simp only [List.mem_cons, List.not_mem_nil, or_false] at hc
  rcases hc with rfl | rfl | rfl | rfl | rfl <;> exact ⟨_, rfl⟩
theorem witness_WideningCastRoundTrip :
    Fmt.single ∈ containedIn .half ∧ Fmt.half ∈ containedIn .half ∧ Fmt.octuple ∈ containedIn .bfloat16 ∧
    cls .half ((start 0x0001 0 0).operand .half 1) = .finite ∧
    cls .half ((start 0x7E00 0 0).operand .half 1) = .nan ∧
    cls .half ((start 0x8000 0 0).operand .half 1) ≠ .nan := by decide +kernel
/-- Subnormal and largest finite; equal values have equal patterns. -/
theorem witness_ExactResultsStayExact :
    (0x0001 : Reg).toNat < 2 ^ Fmt.width .half ∧ (0x7BFF : Reg).toNat < 2 ^ Fmt.width .half ∧
    cls .half 0x0001 = .finite ∧ cls .half 0x7BFF = .finite ∧ valF .half 0x0001 = valF .half 0x0001 := by
  decide +kernel

/-- NaN, zeros, infinities and a finite operand in range; whether a finite operand lies out of range depends on
the free PH_RANGE (R9, R246). -/
theorem witness_FsinFcosFtanResults :
    cls .half 0x7E00 = .nan ∧ cls .half 0x8000 = .zero ∧ cls .half 0xFC00 = .inf ∧ cls .half 0x3C00 = .finite ∧
    |valR .half 0x3C00| < 2 ^ Config.phRange .half := by
  refine ⟨by decide +kernel, by decide +kernel, by decide +kernel, by decide +kernel, ?_⟩
  rw [half_one, abs_one]
  exact one_lt_pow₀ (by norm_num) (by rw [Config.phRange]; omega)
/-- Outside [-1, 1] by an infinity and by a finite value; 1 itself; the general case at -1 (and, for FACOS, at
0). -/
theorem witness_FasinFacosFatanResults :
    cls .half 0x7C00 = .inf ∧ (cls .half 0x4000 = .finite ∧ 1 < |valR .half 0x4000|) ∧
    (cls .half 0x3C00 = .finite ∧ valR .half 0x3C00 = 1) ∧
    (cls .half 0xBC00 = .finite ∧ valR .half 0xBC00 ≠ 1 ∧ ¬ 1 < |valR .half 0xBC00|) ∧
    cls .half 0 = .zero := by
  refine ⟨by decide +kernel, ⟨by decide +kernel, ?_⟩, ⟨by decide +kernel, half_one⟩, ⟨by decide +kernel, ?_, ?_⟩,
    by decide +kernel⟩
  · rw [half_two]; norm_num
  · rw [half_minus_one]; norm_num
  · rw [half_minus_one]; norm_num
/-- One pair for each row, in the order of the table, and a pair of finite values for the general case. -/
theorem witness_Fatan2Result :
    cls .half 0x7E00 = .nan ∧ (cls .half 0 = .zero ∧ cls .half 0x8000 = .zero ∧ sgn .half 0x8000 = true) ∧
    sgn .half 0 = false ∧ (sgn .half 0xBC00 = true ∧ sgn .half 0xFC00 = true) ∧
    (sgn .half 0x3C00 = false ∧ sgn .half 0x7C00 = false) ∧
    (cls .half 0xBC00 = .finite ∧ valR .half 0xBC00 < 0) ∧ (cls .half 0x3C00 = .finite ∧ 0 < valR .half 0x3C00) ∧
    cls .half 0xFC00 = .inf ∧ cls .half 0x7C00 = .inf := by
  refine ⟨by decide +kernel, by decide +kernel, by decide +kernel, by decide +kernel, by decide +kernel,
    ⟨by decide +kernel, ?_⟩, ⟨by decide +kernel, ?_⟩, by decide +kernel, by decide +kernel⟩
  · rw [half_minus_one]; norm_num
  · rw [half_one]; norm_num
theorem witness_FexpFexpm1Results :
    cls .half 0x7E00 = .nan ∧ cls .half 0 = .zero ∧ (cls .half 0xFC00 = .inf ∧ sgn .half 0xFC00 = true) ∧
    (cls .half 0x7C00 = .inf ∧ sgn .half 0x7C00 = false) ∧ cls .half 0x3C00 = .finite := by decide +kernel
/-- For FLOG: 1, a negative value, and 2 for the general case; for FLOG1P: -1, -2, and 1. -/
theorem witness_FlogFlog1pResults :
    (cls .half 0x3C00 = .finite ∧ valR .half 0x3C00 = 1) ∧ (cls .half 0xC000 = .finite ∧ valR .half 0xC000 < -1) ∧
    (cls .half 0xBC00 = .finite ∧ valR .half 0xBC00 = -1) ∧
    (cls .half 0x4000 = .finite ∧ valR .half 0x4000 ≠ 1 ∧ ¬ valR .half 0x4000 < 0) := by
  refine ⟨⟨by decide +kernel, half_one⟩, ⟨by decide +kernel, ?_⟩, ⟨by decide +kernel, half_minus_one⟩,
    ⟨by decide +kernel, ?_, ?_⟩⟩
  · rw [half_minus_two]; norm_num
  · rw [half_two]; norm_num
  · rw [half_two]; norm_num
theorem half_odd : IsOddInteger .half 0x4200 :=
  ⟨by decide +kernel, 3, by decide, by rw [half_three]; norm_num⟩
theorem half_not_odd : ¬ IsOddInteger .half 0x4000 := by
  rintro ⟨-, n, ho, h⟩
  rw [half_two] at h
  have h2 : (n : ℝ) = ((2 : ℤ) : ℝ) := by rw [← h]; norm_num
  rw [Int.cast_inj.mp h2] at ho
  exact absurd ho (by decide)
/-- Bases: ±1, below and above 1 in magnitude, the zeros and infinities, a negative value; exponents: the zeros
and infinities, odd and even integers of either sign, a value that is no integer, a NaN. -/
theorem witness_FpowResult :
    (cls .half 0x3800 = .finite ∧ |valR .half 0x3800| < 1) ∧ (cls .half 0x4000 = .finite ∧ 1 < |valR .half 0x4000|) ∧
    (cls .half 0xBC00 = .finite ∧ valR .half 0xBC00 = -1) ∧
    (IsOddInteger .half 0x4200 ∧ 0 < valR .half 0x4200) ∧ (IsOddInteger .half 0xC200 ∧ valR .half 0xC200 < 0) ∧
    (¬ IsOddInteger .half 0x4000 ∧ 0 < valR .half 0x4000) ∧ valR .half 0xC000 < 0 ∧
    (cls .half 0x3800 = .finite ∧ ¬ IsInteger .half 0x3800) := by
  refine ⟨⟨by decide +kernel, ?_⟩, ⟨by decide +kernel, ?_⟩, ⟨by decide +kernel, half_minus_one⟩, ⟨half_odd, ?_⟩,
    ⟨⟨by decide +kernel, -3, by decide, by rw [half_minus_three]; norm_num⟩, ?_⟩, ⟨half_not_odd, ?_⟩, ?_,
    ⟨by decide +kernel, half_not_integer⟩⟩
  · rw [half_half]; norm_num [abs_of_pos]
  · rw [half_two]; norm_num
  · rw [half_three]; norm_num
  · rw [half_minus_three]; norm_num
  · rw [half_two]; norm_num
  · rw [half_minus_two]; norm_num
theorem witness_FcbrtResult :
    cls .half 0x7E00 = .nan ∧ cls .half 0x8000 = .zero ∧ cls .half 0xFC00 = .inf ∧ cls .half 0xC000 = .finite := by
  decide +kernel
theorem witness_FsinhFcoshFtanhResults :
    cls .half 0x7E00 = .nan ∧ cls .half 0x8000 = .zero ∧ cls .half 0xFC00 = .inf ∧ cls .half 0xC000 = .finite := by
  decide +kernel
/-- For FACOSH: 1, below 1, and 2 for the general case; for FATANH: ±1, outside, and 1/2. -/
theorem witness_FasinhFacoshFatanhResults :
    (cls .half 0x3C00 = .finite ∧ valR .half 0x3C00 = 1) ∧ (cls .half 0x3800 = .finite ∧ valR .half 0x3800 < 1) ∧
    (cls .half 0xBC00 = .finite ∧ |valR .half 0xBC00| = 1) ∧
    (cls .half 0x4000 = .finite ∧ 1 < |valR .half 0x4000| ∧ ¬ valR .half 0x4000 < 1) ∧
    (|valR .half 0x3800| ≠ 1 ∧ ¬ 1 < |valR .half 0x3800|) := by
  refine ⟨⟨by decide +kernel, half_one⟩, ⟨by decide +kernel, ?_⟩, ⟨by decide +kernel, ?_⟩,
    ⟨by decide +kernel, ?_, ?_⟩, ?_, ?_⟩
  · rw [half_half]; norm_num
  · rw [half_minus_one]; norm_num
  · rw [half_two]; norm_num
  · rw [half_two]; norm_num
  · rw [half_half]; norm_num [abs_of_pos]
  · rw [half_half]; norm_num [abs_of_pos]
theorem witness_FerfFerfcResults :
    cls .half 0x7E00 = .nan ∧ cls .half 0x8000 = .zero ∧ (cls .half 0xFC00 = .inf ∧ sgn .half 0xFC00 = true) ∧
    (cls .half 0x7C00 = .inf ∧ sgn .half 0x7C00 = false) ∧ cls .half 0x3C00 = .finite := by decide +kernel
theorem half_negative_integer : IsInteger .half 0xBC00 ∧ valR .half 0xBC00 < 0 :=
  ⟨⟨by decide +kernel, -1, by rw [half_minus_one]; norm_num⟩, by rw [half_minus_one]; norm_num⟩
theorem half_negative_fraction : ¬ IsInteger .half 0xB800 ∧ valR .half 0xB800 < 0 := by
  refine ⟨?_, by rw [half_minus_half]; norm_num⟩
  rintro ⟨-, n, h⟩
  rw [half_minus_half] at h
  have h2 : ((2 * n : ℤ) : ℝ) = ((-1 : ℤ) : ℝ) := by push_cast; linarith
  have := Int.cast_inj.mp h2
  omega
/-- A negative integer, and a positive and a negative value for the general case. -/
theorem witness_FtgammaResult :
    cls .half 0x8000 = .zero ∧ (IsInteger .half 0xBC00 ∧ valR .half 0xBC00 < 0) ∧
    (cls .half 0xFC00 = .inf ∧ sgn .half 0xFC00 = true) ∧ cls .half 0x7C00 = .inf ∧
    (cls .half 0x3C00 = .finite ∧ 0 < valR .half 0x3C00) ∧
    (¬ IsInteger .half 0xB800 ∧ valR .half 0xB800 < 0) :=
  ⟨by decide +kernel, half_negative_integer, by decide +kernel, by decide +kernel,
    ⟨by decide +kernel, by rw [half_one]; norm_num⟩, half_negative_fraction⟩
/-- 1 and 2; the zeros; a negative integer; and, for the general case, 3 (Γ > 0) and -1/2 (Γ < 0). -/
theorem witness_FlgammaResult :
    (cls .half 0x3C00 = .finite ∧ valR .half 0x3C00 = 1) ∧ (cls .half 0x4000 = .finite ∧ valR .half 0x4000 = 2) ∧
    (cls .half 0 = .zero ∧ sgn .half 0 = false) ∧ (cls .half 0x8000 = .zero ∧ sgn .half 0x8000 = true) ∧
    (IsInteger .half 0xBC00 ∧ valR .half 0xBC00 < 0) ∧ ¬ Real.Gamma (valR .half 0x4200) < 0 ∧
    Real.Gamma (valR .half 0xB800) < 0 := by
  refine ⟨⟨by decide +kernel, half_one⟩, ⟨by decide +kernel, half_two⟩, by decide +kernel, by decide +kernel,
    half_negative_integer, ?_, ?_⟩
  · rw [half_three]; exact not_lt.mpr (Real.Gamma_pos_of_pos (by norm_num)).le
  · rw [half_minus_half]
    have h := Real.Gamma_add_one (s := -1 / 2) (by norm_num)
    have h2 : 0 < Real.Gamma (-1 / 2 + 1) := Real.Gamma_pos_of_pos (by norm_num)
    rw [h] at h2
    nlinarith
/-- Each row, in order; then t = 0 (2 mod 1) and t ≠ 0 (1 mod 2).  FMOD_EXACT is a free parameter. -/
theorem witness_FfmodFremainderResults :
    cls .half 0x7E00 = .nan ∧ cls .half 0x7C00 = .inf ∧ cls .half 0x8000 = .zero ∧
    (valR .half 0x4000 - truncR (valR .half 0x4000 / valR .half 0x3C00) * valR .half 0x3C00 = 0) ∧
    (valR .half 0x3C00 - truncR (valR .half 0x3C00 / valR .half 0x4000) * valR .half 0x4000 ≠ 0) := by
  refine ⟨by decide +kernel, by decide +kernel, by decide +kernel, ?_, ?_⟩
  · rw [half_one, half_two, truncR]; norm_num
  · rw [half_one, half_two, truncR]; norm_num
theorem witness_FremquoResult :
    ¬(cls .half 0x8000 = .finite ∧ cls .half 0x3C00 = .finite) ∧ cls .half 0x4200 = .finite ∧
    cls .half 0x4000 = .finite := by decide +kernel
theorem witness_BoundedResults :
    RomIntact (start 0x3C00 0 0) ∧ cls .half ((start 0x3C00 0 0).operand .half 1) = .finite ∧
    |valR .half 0x3C00| < 2 ^ Config.phRange .half ∧
    cls .half 0x3C00 ≠ .nan ∧ 1 ≤ valE .half 0x3C00 :=
  ⟨⟨rfl, rfl⟩, by decide +kernel, witness_FsinFcosFtanResults.2.2.2.2, by decide +kernel, by
    rw [valE, if_neg (by decide +kernel), half_one]; exact_mod_cast le_refl (1 : ℝ)⟩
theorem witness_RoundedResultIsAdmissible : (1 : ℝ) ≠ 0 := one_ne_zero
theorem witness_PseudoInstructions :
    (Ordered .half 0x4000 0x3C00 ∧ valE .half 0x3C00 < valE .half 0x4000) ∧ ¬ Ordered .half 0x3C00 0x7E00 ∧
    (start 0x3C00 0 0).operand .half 1 = oneF .half false ∧ (4 : RegIdx) ≠ 2 ∧ (4 : RegIdx) ≠ 3 :=
  ⟨⟨by unfold Ordered; decide +kernel, half_lt_pair.2⟩, half_unordered, by decide +kernel, by decide, by decide⟩
theorem witness_QuadrantRules : Reduces (Real.pi / 2) 1 0 := ⟨by norm_num, 0, by norm_num; ring⟩
/-- An exact value, and a value between M·2^q and (M+1)·2^q whose M holds the guard bit. -/
theorem witness_GuardStickyRounding :
    0 < 3 ∧ 2 ^ (Fmt.p .half + 1) ≤ 2048 ∧ ((2048 : ℕ) : ℝ) * (2 : ℝ) ^ (0 : ℤ) < 2048.5 ∧
    (2048.5 : ℝ) < (((2048 : ℕ) : ℝ) + 1) * (2 : ℝ) ^ (0 : ℤ) := by
  refine ⟨by decide, by decide, by norm_num, by norm_num⟩
theorem witness_datapaths :
    unpack .half 0x3C00 = .finite false 0 1024 ∧ unpack .half 0x0001 = .finite false (-14) 1 ∧
    unpack .half 0xC000 = .finite true 1 1024 := by decide +kernel
theorem half_two_and_a_half : valR .half 0x4100 = 5 / 2 := by
  rw [valR_of (q := 5 / 2) (by decide +kernel)]; norm_num
theorem witness_RoundingFamilyDatapath : NearestEven (valR .half 0x4100) 2 := by
  rw [half_two_and_a_half]
  refine ⟨by norm_num [abs_of_pos], fun _ => by decide⟩

end Sys2Proof.Tests
end

section
/-! SUPPORT. What the statements about the state rest on: STATUS by its fields, what each kind of host event
does, which register words an operand lies in, and what two states that agree on a command's operands have
in common after it.  The statements themselves are settled at the end. -/

namespace Sys2Proof.Machine

open Sys2Proof Sys2Proof.Safety

/-! ### STATUS by its fields (R38) -/

@[simp] theorem ill_statusWord (a b : Bool) (c : BitVec 4) : ill (statusWord a b c) = a := by
  revert a b c; decide
@[simp] theorem lastIll_statusWord (a b : Bool) (c : BitVec 4) : lastIll (statusWord a b c) = b := by
  revert a b c; decide
@[simp] theorem causeField_statusWord (a b : Bool) (c : BitVec 4) : causeField (statusWord a b c) = c := by
  revert a b c; decide

/-- A legal command clears LAST_ILL (R38). -/
theorem statusLegal_statusWord (a b : Bool) (c : BitVec 4) :
    statusLegal (statusWord a b c) = statusWord a false c := by
  revert a b c; decide

/-- An illegal command sets ILL and LAST_ILL and replaces CAUSE (R382). -/
theorem statusIllegal_statusWord (a b : Bool) (c : BitVec 4) (e : Cause) :
    statusIllegal (statusWord a b c) e = statusWord true true e.code := by
  revert a b c; cases e <;> decide

/-- A host write of STATUS clears ILL if bit 0 of the data is 1 (R67). -/
theorem statusHostWrite_statusWord (a b : Bool) (c : BitVec 4) (v : Word) :
    statusHostWrite (statusWord a b c) v = statusWord (a && !v.getLsbD 0) b c := by
  have hclear : ∀ a b c, statusWord a b c &&& ~~~(1 : Word) = statusWord false b c := by decide
  rw [statusHostWrite, hclear]
  cases v.getLsbD 0 <;> simp

/-- A legal command leaves every bit of STATUS but bit 1, which becomes 0 (R38). -/
theorem getLsbD_statusLegal (st : Word) (n : Nat) :
    (statusLegal st).getLsbD n = (st.getLsbD n && !decide (n = 1)) := by
  rcases Nat.lt_or_ge n 64 with hn | hn
  · have hmask : ∀ n < 64, (~~~(2 : Word)).getLsbD n = !decide (n = 1) := by decide
    rw [statusLegal, BitVec.getLsbD_and, hmask n hn]
  · rw [BitVec.getLsbD_of_ge _ _ hn, BitVec.getLsbD_of_ge _ _ hn, Bool.false_and]

/-! ### Marks and words after a write -/

theorem State.isWritten_retireAux (s : State) (rd k : RegIdx) (v : Reg) (a : Word) (j : Fin 4) :
    (s.retireAux rd v a).isWritten k j = if k = rd then true else s.isWritten k j := by
  split
  case isTrue h => subst h; exact s.isWritten_setReg_self k v j
  case isFalse h => exact s.isWritten_setReg_ne v h j

theorem State.isWritten_setRegWord (s : State) (i k : RegIdx) (j l : Fin 4) (v : Word) :
    (s.setRegWord i j v).isWritten k l = if k = i ∧ l = j then true else s.isWritten k l := by
  by_cases hk : k = i
  · subst hk
    simp [State.isWritten, Vector.getElem_set, Fin.ext_iff, eq_comm]
  · have hne : i.val ≠ k.val := fun e => hk (Fin.ext e.symm)
    simp [State.isWritten, hk, hne]

/-! ### The window's map (R61) -/

/-- The target at an offset stands at that offset. -/
theorem offset_of_targetAt {off : BitVec 12} {g : Target} (h : targetAt off = some g) : off = g.offset := by
  unfold targetAt at h
  split at h
  · cases h
  · split at h
    · cases h
      apply BitVec.eq_of_toNat_eq
      simp only [Target.offset, BitVec.toNat_ofNat]
      omega
    · repeat' split at h
      all_goals cases h
      all_goals assumption

/-- The word that holds a byte starts at the byte's offset less its place in the word (R63). -/
theorem toNat_wordOffset (off : BitVec 12) : (off &&& ~~~7).toNat = off.toNat - off.toNat % 8 := by
  have hshift : off &&& ~~~(7 : BitVec 12) = (off >>> 3) <<< 3 := by
    apply BitVec.eq_of_getLsbD_eq
    intro k hk
    interval_cases k <;> simp
  rw [hshift, BitVec.toNat_shiftLeft, BitVec.toNat_ushiftRight, Nat.shiftLeft_eq, Nat.shiftRight_eq_div_pow]
  omega

/-! ### What an access does, by its kind (R64 to R67, R384) -/

section Access
variable {run : Instr → State → Outcome} {a : Access} {s : State} {g : Target} {v : Word}

theorem serveAccess_badWidth (hw : a.width ≠ 8) :
    serveAccess run a s = .fault (.busError a.offset a.width) := by
  rw [serveAccess, if_pos hw]

theorem serveAccess_noTarget (hg : targetAt a.offset = none) :
    serveAccess run a s = .fault (.busError a.offset a.width) := by
  simp only [serveAccess, hg, ite_self]

theorem serveAccess_read (hw : a.width = 8) (hg : targetAt a.offset = some g) (hd : a.dir = .read) :
    serveAccess run a s = .next { s with reply := .data (s.windowWord g) } := by
  simp only [serveAccess, hw, hg, hd, ne_eq, not_true_eq_false, if_false]

theorem serveAccess_writeCmd (hw : a.width = 8) (hg : targetAt a.offset = some .cmd) (hd : a.dir = .write v) :
    serveAccess run a s = issue run v { s with reply := .ack } := by
  simp only [serveAccess, hw, hg, hd, ne_eq, not_true_eq_false, if_false]

theorem serveAccess_write (hw : a.width = 8) (hg : targetAt a.offset = some g) (hne : g ≠ .cmd)
    (hd : a.dir = .write v) : serveAccess run a s = .next { s.writeWord g v with reply := .ack } := by
  simp only [serveAccess, hw, hg, hd, ne_eq, not_true_eq_false, if_false]

end Access

/-! ### The words an operand lies in (R413) -/

/-- The low bits of a register are fixed by the words they lie in (R62). -/
theorem setWidth_eq_of_words {x y : Reg} {w : Nat} (hw : w ≤ 256)
    (h : ∀ j : Fin 4, 64 * j.val < w → x.extractLsb' (64 * j.val) 64 = y.extractLsb' (64 * j.val) 64) :
    x.setWidth w = y.setWidth w := by
  apply BitVec.eq_of_getLsbD_eq
  intro k hk
  have hword := h ⟨k / 64, by omega⟩ (show 64 * (k / 64) < w by omega)
  have hbit := congrArg (·.getLsbD (k % 64)) hword
  have hlt : k % 64 < 64 := Nat.mod_lt _ (by decide)
  simpa only [BitVec.getLsbD_extractLsb', BitVec.getLsbD_setWidth, hk, hlt, Nat.div_add_mod, decide_true,
    Bool.true_and] using hbit

theorem mem_floatWords {F : Fmt} {i : RegIdx} {j : Fin 4} (h : 64 * j.val < F.width) :
    (i, j) ∈ floatWords F i := by
  have : j.val < F.words := by unfold Fmt.words; omega
  simp [floatWords, this]

theorem intTy_bits_le (T : IntTy) : T.bits ≤ 64 := by cases T <;> decide

/-- An operand's value is fixed by the words it lies in. -/
theorem operand_value_eq_of_words {s t : State} {o : Operand}
    (h : ∀ w ∈ o.words, s.regWord w.1 w.2 = t.regWord w.1 w.2) : o.value s = o.value t := by
  cases o with
  | float F i =>
    have hbits : (s.reg i).setWidth F.width = (t.reg i).setWidth F.width :=
      setWidth_eq_of_words F.width_le fun j hj => h (i, j) (mem_floatWords hj)
    simp only [Operand.value, State.operand, lowBits, hbits]
  | int T i =>
    have hbits : (s.reg i).setWidth T.bits = (t.reg i).setWidth T.bits := by
      refine setWidth_eq_of_words ((intTy_bits_le T).trans (by decide)) fun j hj => h (i, j) ?_
      have : j = 0 := by have := (intTy_bits_le T); omega
      simp [Operand.words, this]
    simp only [Operand.value, State.intOperand, hbits]

/-! ### States that agree on a command's operands -/

/-- What two runs of one command, from s and from t, have in common: both leave the same v, of n bits, in rd,
and, if the command writes AUX, the same a in AUX, which is otherwise as before. -/
def RetireAlike (rd : RegIdx) (n : Nat) (aux : Bool) (s t : State) (o o' : Outcome) : Prop :=
  ∃ v a, v.toNat < 2 ^ n ∧ o = .next (s.retireAux rd v (if aux then a else s.aux)) ∧
    o' = .next (t.retireAux rd v (if aux then a else t.aux))

section Alike
variable {s t : State} {os : List Operand}

/-- Float operands, one of a list of operands that are the same in s and in t, are the same bits. -/
theorem operand_eq (h : ∀ o ∈ os, o.value s = o.value t) {F : Fmt} {r : RegIdx} (hm : .float F r ∈ os) :
    s.operand F r = t.operand F r := Sum.inl.inj (h _ hm)

theorem intOperand_eq (h : ∀ o ∈ os, o.value s = o.value t) {T : IntTy} {r : RegIdx} (hm : .int T r ∈ os) :
    s.intOperand T r = t.intOperand T r := Sum.inr.inj (h _ hm)

theorem intBits_lt {N : Nat} (hN : N ≤ 256) (n : Int) : (intBits n N).toNat < 2 ^ N := by
  rw [intBits, BitVec.toNat_setWidth_of_le hN]
  exact BitVec.isLt _

/-- The cast to an integer type fits the type (R212). -/
theorem toIntF_lt (F : Fmt) (T : IntTy) (a : Reg) : (toIntF F T a).toNat < 2 ^ T.bits := by
  have hT : T.bits ≤ 256 := (intTy_bits_le T).trans (by decide)
  unfold toIntF
  split
  · rw [Config.nanToInt, BitVec.toNat_setWidth_of_le hT]
    exact BitVec.isLt _
  all_goals exact intBits_lt hT _

theorem retire_alike (rd : RegIdx) {n : Nat} {v w : Reg} (hv : v.toNat < 2 ^ n) (h : v = w) :
    RetireAlike rd n false s t (.next (s.retire rd v)) (.next (t.retire rd w)) :=
  ⟨v, 0, hv, rfl, h ▸ rfl⟩

theorem wrF_alike (F : Fmt) (rd : RegIdx) {v w : Reg} (h : v = w) :
    RetireAlike rd F.width false s t (wrF F rd v s) (wrF F rd w t) :=
  retire_alike rd (lowBits_lt F.width_le v) (h ▸ rfl)

theorem wrBool_alike (rd : RegIdx) {b c : Bool} (h : b = c) :
    RetireAlike rd 1 false s t (wrBool rd b s) (wrBool rd c t) :=
  retire_alike rd (intBits_lt (by decide) _) (h ▸ rfl)

theorem retireAux_alike (F : Fmt) (rd : RegIdx) {v w : Reg} {a b : Word} (h : v = w) (ha : a = b) :
    RetireAlike rd F.width true s t (.next (s.retireAux rd (lowBits F.width v) a))
      (.next (t.retireAux rd (lowBits F.width w) b)) :=
  ⟨lowBits F.width v, a, lowBits_lt F.width_le v, rfl, h ▸ ha ▸ rfl⟩

theorem unaryF_alike (f : Fmt → Reg → Reg) {F : Fmt} (rd : RegIdx) {rs1 : RegIdx}
    (h : ∀ o ∈ [Operand.float F rs1], o.value s = o.value t) :
    RetireAlike rd F.width false s t (unaryF f F rd rs1 s) (unaryF f F rd rs1 t) :=
  wrF_alike F rd (by rw [operand_eq h (by simp)])

theorem binaryF_alike (f : Fmt → Reg → Reg → Reg) {F : Fmt} (rd : RegIdx) {rs1 rs2 : RegIdx}
    (h : ∀ o ∈ [Operand.float F rs1, .float F rs2], o.value s = o.value t) :
    RetireAlike rd F.width false s t (binaryF f F rd rs1 rs2 s) (binaryF f F rd rs1 rs2 t) :=
  wrF_alike F rd (by rw [operand_eq h (r := rs1) (by simp), operand_eq h (r := rs2) (by simp)])

theorem ternaryF_alike (f : Fmt → Reg → Reg → Reg → Reg) {F : Fmt} (rd : RegIdx) {rs1 rs2 rs3 : RegIdx}
    (h : ∀ o ∈ [Operand.float F rs1, .float F rs2, .float F rs3], o.value s = o.value t) :
    RetireAlike rd F.width false s t (ternaryF f F rd rs1 rs2 rs3 s) (ternaryF f F rd rs1 rs2 rs3 t) :=
  wrF_alike F rd (by
    rw [operand_eq h (r := rs1) (by simp), operand_eq h (r := rs2) (by simp),
      operand_eq h (r := rs3) (by simp)])

theorem compareF_alike (f : Fmt → Reg → Reg → Bool) {F : Fmt} (rd : RegIdx) {rs1 rs2 : RegIdx}
    (h : ∀ o ∈ [Operand.float F rs1, .float F rs2], o.value s = o.value t) :
    RetireAlike rd 1 false s t (compareF f F rd rs1 rs2 s) (compareF f F rd rs1 rs2 t) :=
  wrBool_alike rd (by rw [operand_eq h (r := rs1) (by simp), operand_eq h (r := rs2) (by simp)])

section Elementary
variable (hc : s.coefRom = t.coefRom) (hi : s.invPiRom = t.invPiRom)
include hc hi

/-- With the same ROMs the evaluator's results are the same for the same operands (R242). -/
theorem elem_eq_of_roms : s.elem = t.elem := by
  unfold State.elem
  rw [hc, hi]

theorem elemResult_eq_of_roms : s.elemResult = t.elemResult := by
  unfold State.elemResult
  rw [elem_eq_of_roms hc hi]

theorem moduloResult_eq_of_roms : s.moduloResult = t.moduloResult := by
  unfold State.moduloResult
  rw [elem_eq_of_roms hc hi]

theorem elemUnary_alike (op : ElemOp) {F : Fmt} (rd : RegIdx) {rs1 : RegIdx}
    (h : ∀ o ∈ [Operand.float F rs1], o.value s = o.value t) :
    RetireAlike rd F.width false s t (elemUnary op F rd rs1 s) (elemUnary op F rd rs1 t) :=
  wrF_alike F rd (by rw [elemResult_eq_of_roms hc hi, operand_eq h (by simp)])

theorem elemBinary_alike (op : ElemOp) {F : Fmt} (rd : RegIdx) {rs1 rs2 : RegIdx}
    (h : ∀ o ∈ [Operand.float F rs1, .float F rs2], o.value s = o.value t) :
    RetireAlike rd F.width false s t (elemBinary op F rd rs1 rs2 s) (elemBinary op F rd rs1 rs2 t) :=
  wrF_alike F rd (by
    rw [elemResult_eq_of_roms hc hi, operand_eq h (r := rs1) (by simp), operand_eq h (r := rs2) (by simp)])

/-- A command does alike in two states with the same ROMs in which it has the same operands. -/
theorem exec_alike {i : Instr} (h : SameOperands i s t) :
    RetireAlike (regOf i.fields.rd) i.result.width (writesAux i) s t (exec i s) (exec i t) := by
  unfold SameOperands at h
  cases i with
  | fsqrt F rd rs1 | fneg F rd rs1 | fabs F rd rs1 | ftrunc F rd rs1 | ffloor F rd rs1 | fceil F rd rs1
  | fround F rd rs1 | frint F rd rs1 =>
    exact (regOf_regCode rd).symm ▸ unaryF_alike _ rd h
  | fadd F rd rs1 rs2 | fsub F rd rs1 rs2 | fmul F rd rs1 rs2 | fdiv F rd rs1 rs2
  | fcopysign F rd rs1 rs2 =>
    exact (regOf_regCode rd).symm ▸ binaryF_alike _ rd h
  | fma F rd rs1 rs2 rs3 => exact (regOf_regCode rd).symm ▸ ternaryF_alike _ rd h
  | feq F rd rs1 rs2 | flt F rd rs1 rs2 | fle F rd rs1 rs2 | fne F rd rs1 rs2 =>
    exact (regOf_regCode rd).symm ▸ compareF_alike _ rd h
  | fisint F rd rs1 =>
    exact (regOf_regCode rd).symm ▸ wrBool_alike rd (by rw [operand_eq h (.head _)])
  | fcvtFF S D rd rs1 =>
    exact (regOf_regCode rd).symm ▸ wrF_alike D rd (by rw [operand_eq h (.head _)])
  | fcvtIF F T rd rs1 =>
    exact (regOf_regCode rd).symm ▸ retire_alike rd (toIntF_lt F T _) (by rw [operand_eq h (.head _)])
  | fcvtFI F T rd rs1 =>
    exact (regOf_regCode rd).symm ▸ wrF_alike F rd (by rw [intOperand_eq h (.head _)])
  | fsin F rd rs1 | fcos F rd rs1 | ftan F rd rs1 | fasin F rd rs1 | facos F rd rs1 | fatan F rd rs1
  | fexp F rd rs1 | fexpm1 F rd rs1 | flog F rd rs1 | flog1p F rd rs1 | fcbrt F rd rs1 | fsinh F rd rs1
  | fcosh F rd rs1 | ftanh F rd rs1 | fasinh F rd rs1 | facosh F rd rs1 | fatanh F rd rs1
  | ferf F rd rs1 | ferfc F rd rs1 | ftgamma F rd rs1 =>
    exact (regOf_regCode rd).symm ▸ elemUnary_alike hc hi _ rd h
  | fatan2 F rd rs1 rs2 | fpow F rd rs1 rs2 =>
    exact (regOf_regCode rd).symm ▸ elemBinary_alike hc hi _ rd h
  | flgamma F rd rs1 =>
    have h1 := operand_eq h (.head _)
    exact (regOf_regCode rd).symm ▸
      retireAux_alike F rd (by rw [elemResult_eq_of_roms hc hi, h1]) (by rw [h1])
  | ffmod F rd rs1 rs2 | fremainder F rd rs1 rs2 =>
    have h1 := operand_eq h (.head _)
    have h2 := operand_eq h (.tail _ (.head _))
    exact (regOf_regCode rd).symm ▸ wrF_alike F rd (by rw [moduloResult_eq_of_roms hc hi, h1, h2])
  | fremquo F rd rs1 rs2 =>
    have h1 := operand_eq h (.head _)
    have h2 := operand_eq h (.tail _ (.head _))
    exact (regOf_regCode rd).symm ▸
      retireAux_alike F rd (by rw [moduloResult_eq_of_roms hc hi, h1, h2]) (by rw [h1, h2])

end Elementary
end Alike

/-! ### The invariant of STATUS, CMD and the ROMs -/

/-- The invariant, from STATUS by its fields. -/
theorem inv_of_statusWord {s : State} {a b : Bool} {c : BitVec 4} (hst : s.status = statusWord a b c)
    (hcause : c.toNat ≤ 4) (hill : a = true → c ≠ 0)
    (hlast : b = true → ∃ e, decode (cmdWord s.cmd) = .error e ∧ c = e.code)
    (hcmd : s.cmd = (cmdWord s.cmd).setWidth 64) (hrom : RomIntact s) : Inv s where
  reserved := by simp [hst]
  cause := by simpa [hst] using hcause
  illCause := by simpa [hst] using hill
  lastCause := by simpa [hst] using hlast
  cmd := hcmd
  rom := hrom

/-- The causes have the codes 1 to 4 (R381). -/
theorem cause_code_ne_zero (e : Cause) : e.code ≠ 0 := by cases e <;> decide
theorem cause_code_le (e : Cause) : e.code.toNat ≤ 4 := by cases e <;> decide

theorem cmdWord_setWidth (w : CmdWord) : cmdWord (w.setWidth 64) = w := by
  apply BitVec.eq_of_toNat_eq
  simp only [cmdWord, BitVec.toNat_setWidth]
  omega

/-- The invariant speaks of STATUS, CMD and the ROMs only. -/
theorem inv_congr {s t : State} (h : Inv s) (hst : t.status = s.status) (hcmd : t.cmd = s.cmd)
    (hc : t.coefRom = s.coefRom) (hi : t.invPiRom = s.invPiRom) : Inv t := by
  obtain ⟨hres, hcause, hill, hlast, hzext, hcoef, hinv⟩ := h
  exact ⟨hst ▸ hres, hst ▸ hcause, hst ▸ hill, hst ▸ hcmd ▸ hlast, hcmd ▸ hzext, hc ▸ hcoef, hi ▸ hinv⟩

theorem inv_reset : Inv State.reset :=
  inv_of_statusWord (a := false) (b := false) (c := 0) rfl (by decide) nofun nofun rfl ⟨rfl, rfl⟩

/-- Recording a word and completing its command keeps the invariant: LAST_ILL is 0 afterwards. -/
theorem inv_legal {s t : State} {v : Word} (h : Inv s) (hst : t.status = statusLegal s.status)
    (hcmd : t.cmd = (cmdWord v).setWidth 64) (hc : t.coefRom = s.coefRom) (hi : t.invPiRom = s.invPiRom) :
    Inv t := by
  rw [h.reserved, statusLegal_statusWord] at hst
  exact inv_of_statusWord hst h.cause h.illCause (by simp) (by rw [hcmd, cmdWord_setWidth])
    ⟨hc.trans h.rom.coef, hi.trans h.rom.invPi⟩

/-- Recording an illegal word and raising IllegalCommand keeps the invariant: CAUSE is the word's cause. -/
theorem inv_illegal {s : State} {v : Word} {c : Cause} (h : Inv s) (hdec : decode (cmdWord v) = .error c) :
    Inv ((s.recordCmd v).raiseIllegal c) := by
  have hst : ((s.recordCmd v).raiseIllegal c).status = statusWord true true c.code := by
    rw [State.status_raiseIllegal, State.status_recordCmd, h.reserved, statusIllegal_statusWord]
  refine inv_of_statusWord hst (cause_code_le c) (fun _ => cause_code_ne_zero c) (fun _ => ⟨c, ?_, rfl⟩) ?_
    ⟨h.rom.coef, h.rom.invPi⟩
  · rw [State.cmd_raiseIllegal, State.cmd_recordCmd, cmdWord_setWidth, hdec]
  · rw [State.cmd_raiseIllegal, State.cmd_recordCmd, cmdWord_setWidth]

/-- A host write of a word that is not CMD keeps the invariant: it can only clear ILL. -/
theorem inv_writeWord {s : State} (h : Inv s) (g : Target) (v : Word) : Inv (s.writeWord g v) := by
  cases g with
  | regWord i j => exact inv_congr h rfl rfl rfl rfl
  | status =>
    have hst : (s.writeStatus v).status =
        statusWord (ill s.status && !v.getLsbD 0) (lastIll s.status) (causeField s.status) := by
      rw [State.status_writeStatus, ← statusHostWrite_statusWord, ← h.reserved]
    exact inv_of_statusWord hst h.cause (fun ha => h.illCause (Bool.and_elim_left ha)) h.lastCause h.cmd
      ⟨h.rom.coef, h.rom.invPi⟩
  | id | features | cmd | aux => exact h

theorem inv_serveAccess {a : Access} {s t : State} (h : Inv s) (hs : serveAccess exec a s = .next t) :
    Inv t := by
  obtain ⟨-, ⟨g, -, -, rfl⟩ | ⟨g, v, -, -, -, rfl⟩ | ⟨v, i, -, -, -, hx⟩ | ⟨v, c, -, -, hdec, rfl⟩⟩ :=
    serveAccess_cases hs
  · exact inv_congr h rfl rfl rfl rfl
  · exact inv_congr (inv_writeWord h g v) rfl rfl rfl rfl
  · obtain ⟨r, b, he, -⟩ := exec_retires i ({ s with reply := .ack }.recordCmd v)
    cases he.symm.trans hx
    exact inv_legal h rfl rfl rfl rfl
  · exact inv_illegal (inv_congr h rfl rfl rfl rfl) hdec

theorem inv_step {s t : State} (h : Inv s) (hs : step s = .next t) : Inv t := by
  obtain ⟨-, rfl⟩ | ⟨a, rest, -, hacc⟩ | ⟨rest, -, rfl⟩ := step_cases hs
  · exact h
  · exact inv_serveAccess (inv_congr (t := { s with pending := rest }) h rfl rfl rfl rfl) hacc
  · exact inv_congr inv_reset rfl rfl h.rom.coef h.rom.invPi

/-! ### States that agree on the written words (R33) -/

theorem firstUnwritten_eq_none {s : State} {ws : List (RegIdx × Fin 4)} :
    firstUnwritten s ws = none ↔ ∀ w ∈ ws, s.isWritten w.1 w.2 = true := by
  simp [firstUnwritten]

theorem eventReads_read {a : Access} {i : RegIdx} {j : Fin 4} (hw : a.width = 8)
    (hg : targetAt a.offset = some (.regWord i j)) (hd : a.dir = .read) :
    eventReads (.access a) = [(i, j)] := by
  simp only [eventReads, hw, hg, hd, ne_eq, not_true_eq_false, if_false]

theorem eventReads_command {a : Access} {v : Word} {i : Instr} (hw : a.width = 8)
    (hg : targetAt a.offset = some .cmd) (hd : a.dir = .write v) (hdec : decode (cmdWord v) = .ok i) :
    eventReads (.access a) = reads i := by
  simp only [eventReads, hw, hg, hd, hdec, ne_eq, not_true_eq_false, if_false]

theorem State.regWord_retireAux_self (s : State) (rd : RegIdx) (v : Reg) (a : Word) (j : Fin 4) :
    (s.retireAux rd v a).regWord rd j = v.extractLsb' (64 * j.val) 64 := by
  rw [State.regWord, State.reg_retireAux_self]

theorem State.regWord_retireAux_ne (s : State) {rd k : RegIdx} (v : Reg) (a : Word) (h : k ≠ rd) (j : Fin 4) :
    (s.retireAux rd v a).regWord k j = s.regWord k j := by
  rw [State.regWord, State.reg_retireAux_ne s v a h, State.regWord]

/-- How two runs of one event end alike: both go on, to states that agree on the written words, or both
stop for the same reason. -/
def EndAlike (o o' : Outcome) : Prop :=
  (∃ s' t', o = .next s' ∧ o' = .next t' ∧ AgreeOnWritten s' t') ∨
  (∃ f, o = .fault f ∧ o' = .fault f) ∨ (∃ r, o = .refused r ∧ o' = .refused r)

theorem agree_refl (s : State) : AgreeOnWritten s s :=
  ⟨rfl, fun _ _ _ => rfl, rfl, rfl, rfl, rfl, rfl, rfl, rfl, rfl⟩

section Agree
variable {s t : State} (h : AgreeOnWritten s t)
include h

theorem agree_retireAux (rd : RegIdx) (v : Reg) (a : Word) :
    AgreeOnWritten (s.retireAux rd v a) (t.retireAux rd v a) where
  __ := h
  written := by rw [State.written_retireAux, State.written_retireAux, h.written]
  words k j hk := by
    by_cases hrd : k = rd
    · subst hrd
      rw [State.regWord_retireAux_self, State.regWord_retireAux_self]
    · rw [State.isWritten_retireAux, if_neg hrd] at hk
      rw [State.regWord_retireAux_ne s v a hrd, State.regWord_retireAux_ne t v a hrd, h.words k j hk]
  status := congrArg statusLegal h.status
  aux := rfl

theorem agree_setRegWord (i : RegIdx) (j : Fin 4) (v : Word) :
    AgreeOnWritten (s.setRegWord i j v) (t.setRegWord i j v) where
  __ := h
  written := by rw [State.written_setRegWord, State.written_setRegWord, h.written]
  words k l hk := by
    by_cases hkl : k = i ∧ l = j
    · obtain ⟨rfl, rfl⟩ := hkl
      rw [State.regWord_setRegWord_self, State.regWord_setRegWord_self]
    · rw [State.isWritten_setRegWord, if_neg hkl] at hk
      rw [State.regWord_setRegWord_ne s v hkl, State.regWord_setRegWord_ne t v hkl, h.words k l hk]

theorem agree_writeWord (g : Target) (v : Word) : AgreeOnWritten (s.writeWord g v) (t.writeWord g v) := by
  cases g with
  | regWord i j => exact agree_setRegWord h i j v
  | status => exact { h with status := congrArg (statusHostWrite · v) h.status }
  | id | features | cmd | aux => exact h

theorem agree_recordCmd (v : Word) : AgreeOnWritten (s.recordCmd v) (t.recordCmd v) := { h with cmd := rfl }

theorem agree_raiseIllegal (c : Cause) : AgreeOnWritten (s.raiseIllegal c) (t.raiseIllegal c) :=
  { h with status := congrArg (statusIllegal · c) h.status }

theorem agree_reply (r : Reply) : AgreeOnWritten { s with reply := r } { t with reply := r } :=
  { h with reply := rfl }

theorem agree_pending (es : List HostEvent) :
    AgreeOnWritten { s with pending := es } { t with pending := es } := { h with pending := rfl }

/-- A reset takes both to the same state: the free register contents are drawn by the number of resets. -/
theorem platformReset_eq_of_agree : s.platformReset = t.platformReset := by
  simp only [State.platformReset, h.coefRom, h.invPiRom, h.pending, h.reply, h.resets]

/-- A command whose words are all written has the same operands in both. -/
theorem sameOperands_of_agree {i : Instr} (hr : ∀ w ∈ reads i, s.isWritten w.1 w.2 = true) :
    SameOperands i s t := fun o ho =>
  operand_value_eq_of_words fun w hw => h.words _ _ (hr w (List.mem_flatMap.mpr ⟨o, ho, hw⟩))

theorem exec_endAlike {i : Instr} (hr : ∀ w ∈ reads i, s.isWritten w.1 w.2 = true) :
    EndAlike (exec i s) (exec i t) := by
  obtain ⟨v, a, -, hs, ht⟩ := exec_alike h.coefRom h.invPiRom (sameOperands_of_agree h hr)
  rw [← h.aux] at ht
  exact .inl ⟨_, _, hs, ht, agree_retireAux h _ v _⟩

theorem windowWord_eq_of_agree {g : Target} (hr : ∀ i j, g = .regWord i j → s.isWritten i j = true) :
    s.windowWord g = t.windowWord g := by
  cases g with
  | regWord i j => exact h.words i j (hr i j rfl)
  | cmd => exact h.cmd
  | status => exact h.status
  | aux => exact h.aux
  | id | features => rfl

theorem serveAccess_endAlike {a : Access} (hr : ∀ w ∈ eventReads (.access a), s.isWritten w.1 w.2 = true) :
    EndAlike (serveAccess exec a s) (serveAccess exec a t) := by
  by_cases hw : a.width = 8
  case neg => exact .inr (.inl ⟨_, serveAccess_badWidth hw, serveAccess_badWidth hw⟩)
  cases hg : targetAt a.offset with
  | none => exact .inr (.inl ⟨_, serveAccess_noTarget hg, serveAccess_noTarget hg⟩)
  | some g =>
    cases hd : a.dir with
    | read =>
      have hword : s.windowWord g = t.windowWord g := windowWord_eq_of_agree h fun i j e =>
        hr (i, j) (by rw [eventReads_read hw (e ▸ hg) hd]; exact .head _)
      exact .inl ⟨_, _, serveAccess_read hw hg hd, serveAccess_read hw hg hd, hword ▸ agree_reply h _⟩
    | write v =>
      by_cases hcmd : g = .cmd
      · subst hcmd
        have hack := agree_recordCmd (agree_reply h .ack) v
        rw [serveAccess_writeCmd hw hg hd, serveAccess_writeCmd hw hg hd]
        cases hdec : decode (cmdWord v) with
        | ok i =>
          rw [issue_ok hdec, issue_ok hdec]
          exact exec_endAlike hack (eventReads_command hw hg hd hdec ▸ hr)
        | error c => exact .inl ⟨_, _, issue_error hdec, issue_error hdec, agree_raiseIllegal hack c⟩
      · exact .inl ⟨_, _, serveAccess_write hw hg hcmd hd, serveAccess_write hw hg hcmd hd,
          agree_reply (agree_writeWord h g v) .ack⟩

theorem serve_endAlike {e : HostEvent} (hr : ∀ w ∈ eventReads e, s.isWritten w.1 w.2 = true) :
    EndAlike (serve exec e s) (serve exec e t) := by
  cases e with
  | access a => exact serveAccess_endAlike h hr
  | reset =>
    have hreset := platformReset_eq_of_agree h
    exact .inl ⟨_, _, rfl, rfl, hreset ▸ agree_refl _⟩
  | accessInReset a => exact .inr (.inr ⟨_, rfl, rfl⟩)

theorem step_endAlike (hr : unwrittenRead s = none) : EndAlike (step s) (step t) := by
  cases hp : s.pending with
  | nil =>
    have hq : t.pending = [] := h.pending ▸ hp
    simp only [step, serveNext, hp, hq]
    exact .inl ⟨s, t, rfl, rfl, h⟩
  | cons e rest =>
    have hq : t.pending = e :: rest := h.pending ▸ hp
    simp only [unwrittenRead, hp, firstUnwritten_eq_none] at hr
    simp only [step, serveNext, hp, hq]
    exact serve_endAlike (agree_pending h rest) hr

end Agree

/-! ### The frame of a command in the host window -/

/-- FLGAMMA and FREMQUO are the commands that write AUX (R39). -/
theorem writesAux_iff_op (i : Instr) : writesAux i = true ↔ i.fields.op = 0x3B ∨ i.fields.op = 0x3E := by
  cases i <;> simp [writesAux, Instr.fields, unaryFields, binaryFields, ternaryFields, convertFields]

/-- A byte of STATUS above its first is the same after a legal command, which only clears bit 1. -/
theorem wordByte_statusLegal (st : Word) {k : Nat} (hk : k ≠ 0) :
    wordByte (statusLegal st) k = wordByte st k := by
  apply BitVec.eq_of_getLsbD_eq
  intro n hn
  have hne : 8 * k + n ≠ 1 := by omega
  simp only [wordByte, BitVec.getLsbD_extractLsb', getLsbD_statusLegal, hne, decide_false, Bool.not_false,
    Bool.and_true]

/-- The bytes of the window after a command: rd's 32 bytes, the first byte of STATUS and AUX aside, they are
as before (R32, R38, R39). -/
theorem windowByte_retireAux {s : State} {rd : RegIdx} {v : Reg} {a : Word} {off : BitVec 12}
    (hrd : ¬(0x20 * rd.val ≤ off.toNat ∧ off.toNat < 0x20 * rd.val + 0x20)) (hst : off.toNat ≠ 0x218)
    (haux : a ≠ s.aux → ¬(0x220 ≤ off.toNat ∧ off.toNat < 0x228)) :
    (s.retireAux rd v a).windowByte off = s.windowByte off := by
  have hbase := toNat_wordOffset off
  unfold State.windowByte
  cases hg : targetAt (off &&& ~~~7) with
  | none => rfl
  | some g =>
    rw [offset_of_targetAt hg] at hbase
    simp only [Option.map_some, Option.some.injEq]
    cases g with
    | regWord i j =>
      have hi : i ≠ rd := by
        rintro rfl
        simp only [Target.offset, BitVec.toNat_ofNat] at hbase
        omega
      simp only [State.windowWord, State.regWord_retireAux_ne s v a hi]
    | status =>
      have hk : off.toNat % 8 ≠ 0 := by
        change 0x218 = off.toNat - off.toNat % 8 at hbase
        omega
      exact wordByte_statusLegal s.status hk
    | aux =>
      have ha : a = s.aux := by
        by_contra hne
        have := haux hne
        change 0x220 = off.toNat - off.toNat % 8 at hbase
        omega
      simp only [State.windowWord, State.aux_retireAux, ha]
    | id | features | cmd => rfl

/-! ### The statements -/

/-- Settles O13: STATUS by its fields is again of that form after each kind of event. -/
theorem stepKeepsInv : Obligations.StepKeepsInv := fun _ _ => inv_step

/-- Settles O15: the words that a step reads are the same in both states, and what it writes is the same. -/
theorem unwrittenWordsCannotBeLearnt : Obligations.UnwrittenWordsCannotBeLearnt :=
  fun _ _ => step_endAlike

/-- Settles O16, from what a command retires. -/
theorem commandFrame : Obligations.CommandFrame := by
  intro i s
  obtain ⟨v, a, he, ha⟩ := exec_retires i s
  refine ⟨_, he, fun k hk => s.reg_retireAux_ne v a hk, fun k => s.isWritten_retireAux _ k v a, ?_, ?_,
    rfl, rfl, rfl, rfl, rfl, rfl⟩
  · exact getLsbD_statusLegal s.status
  · intro h1 h2
    have hop : ¬(i.fields.op = 0x3B ∨ i.fields.op = 0x3E) := not_or.mpr ⟨h1, h2⟩
    exact ha (Bool.eq_false_iff.mpr (mt (writesAux_iff_op i).mp hop))

/-- Settles O17, from what a command retires and where each word of the window stands. -/
theorem commandWindowFrame : Obligations.CommandWindowFrame := by
  intro i s t off hx hrd hst haux
  obtain ⟨v, a, he, ha⟩ := exec_retires i s
  cases he.symm.trans hx
  refine windowByte_retireAux hrd hst fun hne => haux ((writesAux_iff_op i).mp ?_)
  exact Bool.eq_true_of_not_eq_false fun hw => hne (ha hw)

/-- Settles O18: the bound is part of what a command does alike in a state and itself. -/
theorem resultsAreZeroExtended : Obligations.ResultsAreZeroExtended := by
  intro i s t hx
  obtain ⟨v, a, hv, he, -⟩ := exec_alike (s := s) rfl rfl (i := i) fun _ _ => rfl
  cases he.symm.trans hx
  rwa [State.reg_retireAux_self]

/-- Settles O19: what a command does alike in two states, read for the result and AUX. -/
theorem resultDependsOnOperandsOnly : Obligations.ResultDependsOnOperandsOnly := by
  intro i s t h hc hi
  obtain ⟨v, a, -, hs, ht⟩ := exec_alike hc hi h
  exact ⟨v, a, ⟨_, hs, fun hop => if_pos ((writesAux_iff_op i).mpr hop)⟩,
    ⟨_, ht, fun hop => if_pos ((writesAux_iff_op i).mpr hop)⟩⟩

/-- Settles O5: the event is a write of CMD. -/
theorem stepRunsDecodedCommand : Obligations.StepRunsDecodedCommand :=
  fun _ _ _ _ => step_cmdWrite

/-- Settles O11: every piece is a literal of `State.reset`. -/
theorem stateAfterReset : Obligations.StateAfterReset := by
  refine ⟨fun i j => ?_, rfl, rfl, rfl, rfl, rfl, rfl, rfl, rfl, rfl, rfl⟩
  simp [State.isWritten, State.reset, noneWritten]

/-- Settles O12: STATUS is the word of zero fields, and the ROMs are the fixed ones. -/
theorem invHoldsAfterReset : Obligations.InvHoldsAfterReset := inv_reset

end Sys2Proof.Machine
end

section
/-! SUPPORT. The host window read and written word by word (R61 to R67), and the ROMs through a step (R75).
The statements themselves are settled at the end. -/

namespace Sys2Proof.Machine

open Sys2Proof

/-! ### Each word of the window at its offset (R61) -/

theorem toNat_offset_regWord (i : RegIdx) (j : Fin 4) :
    (Target.regWord i j).offset.toNat = 0x20 * i.val + 8 * j.val := by
  rw [Target.offset, BitVec.toNat_ofNat, Nat.mod_eq_of_lt (by omega)]

theorem eq_offset_regWord {off : BitVec 12} {i : RegIdx} {j : Fin 4}
    (h : off.toNat = 0x20 * i.val + 8 * j.val) : off = (Target.regWord i j).offset :=
  BitVec.eq_of_toNat_eq (h.trans (toNat_offset_regWord i j).symm)

/-- The map finds each word at its offset: the converse of `offset_of_targetAt`. -/
theorem targetAt_offset (g : Target) : targetAt g.offset = some g := by
  cases g with
  | regWord i j =>
    have haligned : ¬ (0x20 * i.val + 8 * j.val) % 8 ≠ 0 := by omega
    have hlt : 0x20 * i.val + 8 * j.val < 0x200 := by omega
    simp only [targetAt, toNat_offset_regWord, haligned, hlt, if_false, dif_pos, Option.some.injEq,
      Target.regWord.injEq, Fin.ext_iff]
    omega
  | id | features | cmd | status | aux => rfl

/-! ### A step that serves a host access of one word (R64 to R67) -/

section Word
variable {s : State} {rest : List HostEvent} {g : Target} {v : Word}

theorem step_read (hp : s.pending = .access { offset := g.offset, width := 8, dir := .read } :: rest) :
    step s = .next { s with pending := rest, reply := .data (s.windowWord g) } := by
  simp only [step, serveNext, hp, serve]
  rw [serveAccess_read rfl (targetAt_offset g) rfl]
  cases g <;> rfl

theorem step_write (hp : s.pending = .access { offset := g.offset, width := 8, dir := .write v } :: rest)
    (hg : g ≠ .cmd) :
    step s = .next { ({ s with pending := rest } : State).writeWord g v with reply := .ack } := by
  simp only [step, serveNext, hp, serve]
  exact serveAccess_write rfl (targetAt_offset g) hg rfl

end Word

/-! ### A word and STATUS after a host write -/

theorem State.regWord_setRegWord (s : State) (i k : RegIdx) (j l : Fin 4) (v : Word) :
    (s.setRegWord i j v).regWord k l = if k = i ∧ l = j then v else s.regWord k l := by
  split
  case isTrue h => obtain ⟨rfl, rfl⟩ := h; exact s.regWord_setRegWord_self k l v
  case isFalse h => exact s.regWord_setRegWord_ne v h

/-- A host write of STATUS clears bit 0 where bit 0 of the data is 1, and leaves every other bit (R38, R67). -/
theorem getLsbD_statusHostWrite (st v : Word) (n : Nat) :
    (statusHostWrite st v).getLsbD n = (st.getLsbD n && !(decide (n = 0) && v.getLsbD 0)) := by
  rcases Nat.lt_or_ge n 64 with hn | hn
  · have hmask : ∀ n < 64, (~~~(1 : Word)).getLsbD n = !decide (n = 0) := by decide
    rw [statusHostWrite]
    cases v.getLsbD 0
    · simp
    · rw [if_pos rfl, BitVec.getLsbD_and, hmask n hn, Bool.and_true]
  · rw [BitVec.getLsbD_of_ge _ _ hn, BitVec.getLsbD_of_ge _ _ hn, Bool.false_and]

/-! ### The ROMs (R75) -/

theorem roms_writeWord (s : State) (g : Target) (v : Word) :
    (s.writeWord g v).coefRom = s.coefRom ∧ (s.writeWord g v).invPiRom = s.invPiRom := by
  cases g <;> exact ⟨rfl, rfl⟩

theorem roms_exec {i : Instr} {s t : State} (h : exec i s = .next t) :
    t.coefRom = s.coefRom ∧ t.invPiRom = s.invPiRom := by
  obtain ⟨v, a, he, -⟩ := exec_retires i s
  cases he.symm.trans h
  exact ⟨rfl, rfl⟩

theorem roms_serveAccess {a : Access} {s t : State} (h : serveAccess exec a s = .next t) :
    t.coefRom = s.coefRom ∧ t.invPiRom = s.invPiRom := by
  obtain ⟨-, ⟨g, -, -, rfl⟩ | ⟨g, v, -, -, -, rfl⟩ | ⟨v, i, -, -, -, hx⟩ | ⟨v, c, -, -, -, rfl⟩⟩ :=
    serveAccess_cases h
  · exact ⟨rfl, rfl⟩
  · exact roms_writeWord s g v
  · simpa only [State.coefRom_recordCmd, State.invPiRom_recordCmd] using roms_exec hx
  · exact ⟨rfl, rfl⟩

/-! ### The statements -/

/-- Settles O14: an access, a command and a reset each leave the ROMs. -/
theorem romsAreReadOnly : Obligations.RomsAreReadOnly := by
  intro s t hs
  obtain ⟨-, rfl⟩ | ⟨a, rest, -, hacc⟩ | ⟨rest, -, rfl⟩ := step_cases hs
  · exact ⟨rfl, rfl⟩
  · exact roms_serveAccess (s := { s with pending := rest }) hacc
  · exact ⟨State.coefRom_platformReset _, State.invPiRom_platformReset _⟩

/-- Settles O8: the offset is that of one word of the window, and the write acts on that word. -/
theorem hostWritesChangeOneWord : Obligations.HostWritesChangeOneWord := by
  intro s rest off v hp served
  refine ⟨fun i j hoff => ?_, ?_, ?_, ?_⟩
  · obtain rfl := eq_offset_regWord hoff
    exact ⟨_, step_write hp nofun, fun k l => served.regWord_setRegWord i k j l v,
      fun k l => served.isWritten_setRegWord i k j l v, rfl⟩
  · rintro rfl i hdec
    exact step_cmdWrite hp hdec
  · rintro rfl
    refine ⟨statusHostWrite s.status v, step_write (g := .status) hp nofun, ?_, fun k hk => ?_⟩
    · simp only [getLsbD_statusHostWrite, decide_true, Bool.true_and]
    · simp only [getLsbD_statusHostWrite, hk, decide_false, Bool.false_and, Bool.not_false, Bool.and_true]
  · rintro (rfl | rfl | rfl)
    · exact step_write (g := .id) hp nofun
    · exact step_write (g := .features) hp nofun
    · exact step_write (g := .aux) hp nofun

/-- Settles O7: the offset is that of one word of the window, and the read answers that word. -/
theorem hostReadsReturnCurrentValues : Obligations.HostReadsReturnCurrentValues := by
  intro s rest off hp answers
  refine ⟨fun i j hoff => ?_, ?_, ?_, ?_, ?_, ?_⟩
  · obtain rfl := eq_offset_regWord hoff
    exact step_read hp
  · rintro rfl; exact step_read (g := .id) hp
  · rintro rfl; exact step_read (g := .features) hp
  · rintro rfl; exact step_read (g := .cmd) hp
  · rintro rfl; exact step_read (g := .status) hp
  · rintro rfl; exact step_read (g := .aux) hp

end Sys2Proof.Machine
end

section
/-! SUPPORT. The encoder and the decoder undo each other (R91, R96, R97, R104). -/

namespace Sys2Proof

/-- A command's fields pass every check: the checks look at the opcode, the format and type codes and the fields
the shape leaves at 0, never at a register it uses (R96 to R102). -/
theorem fields_wellFormed (i : Instr) : i.fields.wellFormed = true := by
  cases i with
  | fcvtFF S D => cases S <;> cases D <;> rfl
  | fcvtIF F T | fcvtFI F T => cases F <;> cases T <;> rfl
  | _ F => cases F <;> rfl

/-- A legal word holds the fields of the command it decodes to. -/
theorem fields_of_decode {w : CmdWord} {i : Instr} (h : decode w = .ok i) : i.fields = fieldsOf w := by
  obtain ⟨m, F, hshape, hfmt, hbuild, hmask⟩ := decode_eq_ok.mp h
  exact fields_of_build hshape hfmt hbuild (by rwa [word_fieldsOf])

/-- The word of a command decodes to it. -/
theorem decode_of_encode_eq {w : CmdWord} {i : Instr} (h : encode i = w) : decode w = .ok i := by
  subst h
  rw [decode_eq_ok, encode, fieldsOf_word]
  exact build_fields i

/-- Settles O2: the word of a command holds its fields, and the decoder builds the command from them. -/
theorem decodeOfEncode : Obligations.DecodeOfEncode := fun _ => decode_of_encode_eq rfl

/-- Settles O3: the command's fields are the word's, and a word is put together from its fields. -/
theorem decodedWordIsItsEncoding : Obligations.DecodedWordIsItsEncoding := by
  intro w i h
  have hfields := fields_of_decode h
  exact ⟨by rw [encode, hfields, word_fieldsOf], hfields ▸ fields_wellFormed i⟩

/-- Settles O1: each word is the encoding of its command. -/
theorem writtenWordsDecode : Obligations.WrittenWordsDecode := by
  refine ⟨?_, ?_, ?_, ?_, ?_, ?_, ?_, ?_, ?_, ?_, ?_, ?_⟩ <;> exact decode_of_encode_eq rfl

end Sys2Proof
end

section
/-! SUPPORT. The rational meanings of addition, multiplication, fused multiply-add, sign and comparison commands
are the spec's rules over the real numbers, and what those commands write (R134 to R141, R180 to R187). -/

namespace Sys2Proof

open Sys2Proof.Machine Sys2Proof.Safety

/-! ### Bits of the sign commands -/

theorem getLsbD_lowBits {w : Nat} (hw : w ≤ 256) (x : Reg) (k : Nat) :
    (lowBits w x).getLsbD k = (decide (k < w) && x.getLsbD k) := by
  rw [lowBits, BitVec.getLsbD_setWidth, BitVec.getLsbD_setWidth]
  by_cases hk : k < w
  · simp [hk, hk.trans_le hw]
  · simp [hk]

theorem getLsbD_eq_false_of_lt {w k : Nat} {x : Reg} (h : x.toNat < 2 ^ w) (hk : w ≤ k) :
    x.getLsbD k = false :=
  Nat.testBit_lt_two_pow (h.trans_le (Nat.pow_le_pow_right (by decide) hk))

/-- The mask of a format's sign bit. -/
theorem getLsbD_signMask (F : Fmt) (k : Nat) :
    ((1 : Reg) <<< (F.width - 1)).getLsbD k = decide (k = F.width - 1) := by
  have hw := F.width_le
  have hwidth := F.width_eq
  rw [BitVec.getLsbD_shiftLeft, show (1 : Reg) = 1#256 from rfl, BitVec.getLsbD_one]
  rcases Nat.lt_trichotomy k (F.width - 1) with h | h | h
  · simp [h, h.ne]
  · simp [h]; omega
  · simp [h.ne']; omega

/-- FCOPYSIGN's result: the second operand's sign bit above the first operand's other bits (R182). -/
theorem getLsbD_copysignF (F : Fmt) (a b : Reg) (k : Nat) :
    (copysignF F a b).getLsbD k =
      if k < F.width - 1 then a.getLsbD k else (decide (k = F.width - 1) && b.getLsbD k) := by
  have hw := F.width_le
  rw [copysignF, BitVec.getLsbD_or, getLsbD_lowBits (by omega), apply_ite (BitVec.getLsbD · k), getLsbD_signMask,
    show (0 : Reg).getLsbD k = false from BitVec.getLsbD_zero, signBit]
  by_cases hk : k = F.width - 1
  · subst hk
    simp
  · simp [hk]

/-- An operand with its own sign is itself: FMV copies (R107, R182). -/
theorem copysignF_self {F : Fmt} {x : Reg} (hx : x.toNat < 2 ^ F.width) : copysignF F x x = x := by
  have hwidth := F.width_eq
  apply BitVec.eq_of_getLsbD_eq
  intro k _
  rw [getLsbD_copysignF]
  rcases Nat.lt_trichotomy k (F.width - 1) with h | h | h
  · rw [if_pos h]
  · rw [if_neg h.not_lt, decide_eq_true h, Bool.true_and]
  · rw [if_neg h.not_gt, decide_eq_false h.ne', Bool.false_and, getLsbD_eq_false_of_lt hx (by omega)]

/-- Flipping bit w of a number of w + 1 bits, as arithmetic. -/
theorem xor_two_pow_eq {n w : Nat} (hn : n < 2 ^ (w + 1)) :
    n ^^^ 2 ^ w = 2 ^ w * (!n.testBit w).toNat + n % 2 ^ w := by
  apply Nat.eq_of_testBit_eq
  intro k
  rw [Nat.testBit_xor, Nat.testBit_two_pow, Nat.testBit_two_pow_mul_add _ (Nat.mod_lt _ (by positivity)),
    Nat.testBit_mod_two_pow]
  rcases Nat.lt_trichotomy k w with h | rfl | h
  · simp [h, h.ne']
  · cases n.testBit k <;> simp
  · have hhigh : n.testBit k = false :=
      Nat.testBit_lt_two_pow (hn.trans_le (Nat.pow_le_pow_right (by decide) h))
    have hsmall : (!n.testBit w).toNat < 2 ^ (k - w) :=
      (Bool.toNat_lt _).trans_le (Nat.le_self_pow (by omega) 2)
    rw [hhigh, if_neg h.not_gt, Nat.testBit_lt_two_pow hsmall, decide_eq_false h.ne, Bool.xor_false]

theorem toNat_flipSign (F : Fmt) (b : Reg) : (flipSign F b).toNat = b.toNat ^^^ 2 ^ (F.width - 1) := by
  rw [flipSign, BitVec.toNat_xor]
  cases F <;> rfl

theorem flipSign_lt {F : Fmt} {b : Reg} (hb : b.toNat < 2 ^ F.width) : (flipSign F b).toNat < 2 ^ F.width := by
  have hwidth := F.width_eq
  rw [toNat_flipSign]
  exact Nat.xor_lt_two_pow hb (Nat.pow_lt_pow_right (by decide) (by omega))

/-- Inverting the sign bit of a pattern is the spec's `{~b[W-1], b[W-2:0]}` (R135, R180). -/
theorem flipSign_eq_negated {F : Fmt} {b : Reg} (hb : b.toNat < 2 ^ F.width) : flipSign F b = negated F b := by
  have hwidth := F.width_eq
  have htoNat : (flipSign F b).toNat =
      (if signBit F b then 0 else 2 ^ (F.width - 1)) + b.toNat % 2 ^ (F.width - 1) := by
    rw [toNat_flipSign, xor_two_pow_eq (by rwa [show F.width - 1 + 1 = F.width by omega]),
      show b.toNat.testBit (F.width - 1) = signBit F b from rfl]
    cases signBit F b <;> simp
  apply BitVec.eq_of_toNat_eq
  rw [negated, BitVec.toNat_ofNat, ← htoNat, Nat.mod_eq_of_lt (BitVec.isLt _)]

theorem negated_lt {F : Fmt} {b : Reg} (hb : b.toNat < 2 ^ F.width) : (negated F b).toNat < 2 ^ F.width :=
  flipSign_eq_negated hb ▸ flipSign_lt hb

/-- Inverting the sign of 1.0 gives -1.0. -/
theorem negated_oneF (F : Fmt) : negated F (oneF F false) = oneF F true := by
  cases F <;> decide

/-! ### The rules over the real numbers -/

theorem signBit_of_unpack {F : Fmt} {b : Reg} {u : Unpacked} (h : unpack F b = u) : signBit F b = u.sign := by
  rw [← unpack_sign, h]

theorem valR_of_unpack_zero {F : Fmt} {b : Reg} {s : Bool} (h : unpack F b = .zero s) : valR F b = 0 := by
  rw [valR, valF, h, Unpacked.val, Rat.cast_zero]

/-- A sum that is rounded once: the same of the exact rational and of the real number (R134, R141). -/
theorem roundSum_eq (F : Fmt) {S : ℚ} {x : ℝ} (h : x = S) :
    (if S = 0 then zeroF F false else rneSigned F S) = if x = 0 then zeroF F false else rneSignedR F x := by
  subst h
  by_cases hS : S = 0
  · simp [hS]
  · rw [if_neg hS, if_neg (Rat.cast_ne_zero.mpr hS), rneSigned_eq_rneSignedR F hS]

theorem roundSum_lt (F : Fmt) (S : ℚ) :
    (if S = 0 then zeroF F false else rneSigned F S).toNat < 2 ^ F.width := by
  split <;> rename_i hS
  · exact zeroF_lt F false
  · rw [rneSigned_eq_rneSignedR F hS]
    exact rneSignedR_lt F (Rat.cast_ne_zero.mpr hS)

section Finite
variable {F : Fmt} {a b : Reg} {s t : Bool} {e f : Int} {m n : Nat}
  (ha : unpack F a = .finite s e m) (hb : unpack F b = .finite t f n)
include ha hb

theorem abs_valF_mul_pos : 0 < |valF F a| * |valF F b| :=
  mul_pos (abs_pos.mpr (valF_ne_zero ha)) (abs_pos.mpr (valF_ne_zero hb))

/-- A product of finite values is rounded once (R137). -/
theorem roundMul_eq (u : Bool) : rne F u (|valF F a| * |valF F b|) = rneR F u (|valR F a| * |valR F b|) := by
  rw [rne_eq_rneR F u (abs_valF_mul_pos ha hb)]
  push_cast
  rfl

end Finite

/-- FADD's meaning is R134: the special rows agree class by class, and the sum is the same number. -/
theorem addF_eq_addRule (F : Fmt) (a b : Reg) : addF F a b = addRule F a b := by
  have hsum := roundSum_eq F (show valR F a + valR F b = (valF F a + valF F b : ℚ) by push_cast; rfl)
  cases ha : unpack F a <;> cases hb : unpack F b
  case finite.finite => simpa [addF, addRule, cls, ha, hb] using hsum
  all_goals simp [addF, addRule, cls, sgn, ha, hb, Unpacked.sign]

/-- FMUL's meaning is R137: the special rows agree class by class, and the product is the same number. -/
theorem mulF_eq_mulRule (F : Fmt) (a b : Reg) : mulF F a b = mulRule F a b := by
  cases ha : unpack F a <;> cases hb : unpack F b
  case finite.finite => simpa [mulF, mulRule, cls, ha, hb] using roundMul_eq ha hb _
  all_goals simp [mulF, mulRule, cls, sgn, ha, hb, signBit_of_unpack ha, signBit_of_unpack hb, Unpacked.sign]

/-- FMA's meaning is R141: the special rows agree class by class, and the sum, to which a zero third operand adds
nothing, is the same number. -/
theorem fmaF_eq_fmaRule (F : Fmt) (a b c : Reg) : fmaF F a b c = fmaRule F a b c := by
  have hsum := roundSum_eq F
    (show valR F a * valR F b + valR F c = (valF F a * valF F b + valF F c : ℚ) by push_cast; rfl)
  cases ha : unpack F a <;> cases hb : unpack F b <;> cases hc : unpack F c
  case finite.finite.finite => simpa [fmaF, fmaRule, cls, ha, hb, hc] using hsum
  case finite.finite.zero => simpa [fmaF, fmaRule, cls, ha, hb, hc, valR_of_unpack_zero hc] using hsum
  all_goals
    simp [fmaF, fmaRule, cls, sgn, ha, hb, hc, signBit_of_unpack ha, signBit_of_unpack hb, Unpacked.sign]

/-! ### The order of two values -/

theorem valE_of_inf {F : Fmt} {b : Reg} {s : Bool} (h : unpack F b = .inf s) :
    valE F b = if s then ⊥ else ⊤ := by
  simp [valE, cls, h, signBit_of_unpack h, Unpacked.sign]

theorem valE_of_not_inf {F : Fmt} {b : Reg} (h : ∀ s, unpack F b = .inf s → False) :
    valE F b = (valR F b : EReal) := by
  unfold valE cls
  cases hu : unpack F b
  case inf s => exact (h s hu).elim
  all_goals rfl

/-- Two numbers are ordered as their exact rationals are. -/
theorem compare_valR (F : Fmt) (a b : Reg) : compare (valR F a : EReal) (valR F b : EReal) =
    if valF F a < valF F b then .lt else if valF F a = valF F b then .eq else .gt := by
  simp only [LinearOrder.compare_eq_compareOfLessAndEq, compareOfLessAndEq, EReal.coe_lt_coe_iff,
    EReal.coe_eq_coe_iff, valR, Rat.cast_lt, Rat.cast_inj]

/-- An ordered pair is compared by its values as extended reals (R183). -/
theorem compareVals_of_ordered {F : Fmt} {a b : Reg} (h : Ordered F a b) :
    compareVals F a b = some (compare (valE F a) (valE F b)) := by
  obtain ⟨hna, hnb⟩ := h
  unfold compareVals
  split
  case h_1 ha => simp [cls, ha] at hna
  case h_2 hb _ => simp [cls, hb] at hnb
  case h_3 s t ha hb =>
    have hlt := compare_lt_iff_lt.mpr (bot_lt_top (α := EReal))
    have hgt := compare_gt_iff_gt.mpr (bot_lt_top (α := EReal))
    rw [valE_of_inf ha, valE_of_inf hb]
    cases s <;> cases t <;> simp [hlt, hgt]
  case h_4 _ s ha _ hb =>
    have hlt := compare_lt_iff_lt.mpr (EReal.bot_lt_coe (valR F b))
    have hgt := compare_gt_iff_gt.mpr (EReal.coe_lt_top (valR F b))
    rw [valE_of_inf ha, valE_of_not_inf hb]
    cases s <;> simp [hlt, hgt]
  case h_5 _ t hb _ ha =>
    have hlt := compare_lt_iff_lt.mpr (EReal.coe_lt_top (valR F a))
    have hgt := compare_gt_iff_gt.mpr (EReal.bot_lt_coe (valR F a))
    rw [valE_of_inf hb, valE_of_not_inf ha]
    cases t <;> simp [hlt, hgt]
  case h_6 _ ha _ hb _ => rw [valE_of_not_inf ha, valE_of_not_inf hb, compare_valR]

theorem unpack_of_cls_nan {F : Fmt} {b : Reg} (h : cls F b = .nan) : ∃ s, unpack F b = .nan s := by
  unfold cls at h
  split at h
  case h_4 s hs => exact ⟨s, hs⟩
  all_goals cases h

/-- A NaN makes the pair unordered (R183). -/
theorem compareVals_of_not_ordered {F : Fmt} {a b : Reg} (h : ¬Ordered F a b) : compareVals F a b = none := by
  by_cases hna : cls F a = .nan
  · obtain ⟨s, ha⟩ := unpack_of_cls_nan hna
    rw [compareVals, ha]
  · obtain ⟨s, hb⟩ := unpack_of_cls_nan (not_not.mp fun hnb => h ⟨hna, hnb⟩)
    rw [compareVals, hb]
    cases unpack F a <;> rfl

theorem ordered_comm {F : Fmt} {a b : Reg} : Ordered F a b ↔ Ordered F b a := and_comm

theorem ltF_iff (F : Fmt) (a b : Reg) : ltF F a b = true ↔ Ordered F a b ∧ valE F a < valE F b := by
  by_cases h : Ordered F a b
  · simp [ltF, compareVals_of_ordered h, h, compare_lt_iff_lt]
  · simp [ltF, compareVals_of_not_ordered h, h]

theorem leF_iff (F : Fmt) (a b : Reg) : leF F a b = true ↔ Ordered F a b ∧ valE F a ≤ valE F b := by
  by_cases h : Ordered F a b
  · simp [leF, compareVals_of_ordered h, h, compare_lt_iff_lt, le_iff_lt_or_eq]
  · simp [leF, compareVals_of_not_ordered h, h]

/-! ### Results fit their format -/

theorem addF_lt {F : Fmt} {a b : Reg} (ha : a.toNat < 2 ^ F.width) (hb : b.toNat < 2 ^ F.width) :
    (addF F a b).toNat < 2 ^ F.width := by
  unfold addF
  split
  case h_1 | h_2 => exact nanF_lt F _
  case h_3 => split; exacts [infF_lt F _, nanF_lt F _]
  case h_4 | h_5 => exact infF_lt F _
  case h_6 => exact zeroF_lt F _
  case h_7 => exact hb
  case h_8 => exact ha
  case h_9 => exact roundSum_lt F _

theorem mulF_lt (F : Fmt) (a b : Reg) : (mulF F a b).toNat < 2 ^ F.width := by
  unfold mulF
  extract_lets s
  split
  case h_1 | h_2 | h_3 | h_4 => exact nanF_lt F _
  case h_5 | h_6 => exact infF_lt F _
  case h_7 | h_8 => exact zeroF_lt F _
  case h_9 ha hb =>
    rw [roundMul_eq ha hb]
    exact rneR_lt F s (by rw [valR, valR]; exact_mod_cast abs_valF_mul_pos ha hb)

theorem fmaF_lt {F : Fmt} {a b c : Reg} (hc : c.toNat < 2 ^ F.width) :
    (fmaF F a b c).toNat < 2 ^ F.width := by
  unfold fmaF
  extract_lets s
  split
  case h_1 | h_2 | h_3 | h_4 | h_5 => exact nanF_lt F _
  case h_6 | h_7 => split; exacts [nanF_lt F _, infF_lt F _]
  case h_8 | h_9 | h_10 => exact infF_lt F _
  case h_11 | h_12 => exact zeroF_lt F _
  case h_13 | h_14 => exact hc
  case h_15 => exact roundSum_lt F _

/-! ### What the commands write -/

section Writes
variable {F : Fmt} {rd a b c : RegIdx} {s : State}

theorem wrF_of_lt {r : Reg} (h : r.toNat < 2 ^ F.width) : wrF F rd r s = .next (s.retire rd r) := by
  rw [wrF, lowBits_of_lt F.width_le h]

theorem writes_fadd : Writes (.fadd F rd a b) rd s (addRule F (s.operand F a) (s.operand F b)) := by
  rw [← addF_eq_addRule]
  exact wrF_of_lt (addF_lt (operand_lt s F a) (operand_lt s F b))

theorem writes_fsub : Writes (.fsub F rd a b) rd s (addRule F (s.operand F a) (negated F (s.operand F b))) := by
  have hb := operand_lt s F b
  rw [← addF_eq_addRule, ← flipSign_eq_negated hb]
  exact wrF_of_lt (addF_lt (operand_lt s F a) (flipSign_lt hb))

theorem writes_fmul : Writes (.fmul F rd a b) rd s (mulRule F (s.operand F a) (s.operand F b)) := by
  rw [← mulF_eq_mulRule]
  exact wrF_of_lt (mulF_lt F _ _)

theorem writes_fma :
    Writes (.fma F rd a b c) rd s (fmaRule F (s.operand F a) (s.operand F b) (s.operand F c)) := by
  rw [← fmaF_eq_fmaRule]
  exact wrF_of_lt (fmaF_lt (operand_lt s F c))

theorem writes_fneg : Writes (.fneg F rd a) rd s (negated F (s.operand F a)) := by
  have ha := operand_lt s F a
  rw [← flipSign_eq_negated ha]
  exact wrF_of_lt (flipSign_lt ha)

theorem writes_fcopysign_self : Writes (.fcopysign F rd a a) rd s (s.operand F a) := by
  have ha := operand_lt s F a
  change wrF F rd (copysignF F (s.operand F a) (s.operand F a)) s = _
  rw [copysignF_self ha, wrF_of_lt ha]

/-- A comparison writes 1 where its condition holds, and 0 where it does not (R183). -/
theorem compareF_of_iff {f : Fmt → Reg → Reg → Bool} {P : Prop}
    (h : f F (s.operand F a) (s.operand F b) = true ↔ P) :
    (P → compareF f F rd a b s = .next (s.retire rd 1)) ∧
    (¬P → compareF f F rd a b s = .next (s.retire rd 0)) := by
  refine ⟨fun hP => ?_, fun hP => ?_⟩
  · rw [compareF, h.mpr hP]; rfl
  · rw [compareF, Bool.eq_false_iff.mpr (mt h.mp hP)]; rfl

theorem operand_retire_ne {v : Reg} (h : a ≠ rd) : (s.retire rd v).operand F a = s.operand F a := by
  rw [State.operand, State.reg_retire_ne s v h, State.operand]

theorem operand_retire_self {v : Reg} (h : v.toNat < 2 ^ F.width) : (s.retire rd v).operand F rd = v := by
  rw [State.operand, State.reg_retire_self, lowBits_of_lt F.width_le h]

end Writes

/-- Settles O53: each expansion's command writes what its rule says, and FNEG leaves FMA's other operands. -/
theorem pseudoInstructionsMeanWhatTheySay : Obligations.PseudoInstructionsMeanWhatTheySay := by
  intro F rd a b c k s x y gt ge
  refine ⟨⟨_, rfl, ?_⟩, ⟨_, rfl, ?_⟩, ⟨_, rfl, writes_fcopysign_self⟩, ⟨_, rfl, writes_fmul⟩, fun hk => ⟨?_, ?_⟩,
    fun hb hc => ?_⟩
  · exact compareF_of_iff ((ltF_iff F y x).trans (and_congr_left' ordered_comm))
  · exact compareF_of_iff ((leF_iff F y x).trans (and_congr_left' ordered_comm))
  · exact ⟨_, rfl, hk ▸ writes_fadd⟩
  · refine ⟨_, rfl, ?_⟩
    rw [← negated_oneF, ← hk]
    exact writes_fsub
  · have hx := negated_lt (operand_lt s F a)
    refine ⟨_, _, rfl, writes_fneg, writes_fma, ?_⟩
    rw [State.reg_retire_self, operand_retire_self hx, operand_retire_ne hb.symm, operand_retire_ne hc.symm]

end Sys2Proof
end

section
/-! SUPPORT. What FADD, FSUB, FMUL, FDIV, FMA and FSQRT write (R134 to R143), and that a NaN they or a rounding
or casting command writes is the quiet one (R126). -/

namespace Sys2Proof

open Sys2Proof.Machine Sys2Proof.Safety

/-- A command's word has the opcode and the shape of its row of the opcode map (R96, R97). -/
theorem hasEncoding_row {i : Instr} (h : Laws.Encoding.Statement i) :
    HasEncoding i (Laws.Encoding.row i).1 (Laws.Encoding.row i).2 := by
  obtain ⟨-, -, he⟩ := h
  exact he

/-! ### Division and square root over the real numbers -/

theorem abs_valF_div_pos {F : Fmt} {a b : Reg} {s t : Bool} {e f : Int} {m n : Nat}
    (ha : unpack F a = .finite s e m) (hb : unpack F b = .finite t f n) : 0 < |valF F a| / |valF F b| :=
  div_pos (abs_pos.mpr (valF_ne_zero ha)) (abs_pos.mpr (valF_ne_zero hb))

/-- A quotient of finite values is rounded once (R139). -/
theorem roundDiv_eq {F : Fmt} {a b : Reg} {s t : Bool} {e f : Int} {m n : Nat}
    (ha : unpack F a = .finite s e m) (hb : unpack F b = .finite t f n) (u : Bool) :
    rne F u (|valF F a| / |valF F b|) = rneR F u (|valR F a| / |valR F b|) := by
  rw [rne_eq_rneR F u (abs_valF_div_pos ha hb)]
  push_cast
  rfl

/-- FDIV's meaning is R139: the special rows agree class by class, and the quotient is the same number. -/
theorem divF_eq_divRule (F : Fmt) (a b : Reg) : divF F a b = divRule F a b := by
  cases ha : unpack F a <;> cases hb : unpack F b
  case finite.finite => simpa [divF, divRule, cls, ha, hb] using roundDiv_eq ha hb _
  all_goals simp [divF, divRule, cls, sgn, ha, hb, signBit_of_unpack ha, signBit_of_unpack hb, Unpacked.sign]

/-- FSQRT's meaning is R143: the special rows agree class by class, and the root is the root of the same number. -/
theorem sqrtF_eq_sqrtRule (F : Fmt) (a : Reg) : sqrtF F a = sqrtRule F a := by
  cases ha : unpack F a
  case finite s e m =>
    have hroot (hs : s = false) : rneSqrt F (valF F a) = rneR F false (Real.sqrt (valR F a)) :=
      rneSqrt_eq F ((valF_pos_iff ha).mpr hs)
    cases s <;> simp [sqrtF, sqrtRule, cls, ha, signBit_of_unpack ha, Unpacked.sign, hroot]
  case inf s => cases s <;> simp [sqrtF, sqrtRule, cls, ha, signBit_of_unpack ha, Unpacked.sign]
  all_goals simp [sqrtF, sqrtRule, cls, sgn, ha, Unpacked.sign]

theorem divF_lt (F : Fmt) (a b : Reg) : (divF F a b).toNat < 2 ^ F.width := by
  unfold divF
  extract_lets s
  split
  case h_1 | h_2 | h_3 | h_4 => exact nanF_lt F _
  case h_5 | h_6 => exact infF_lt F _
  case h_7 | h_8 => exact zeroF_lt F _
  case h_9 ha hb =>
    rw [roundDiv_eq ha hb]
    exact rneR_lt F s (by rw [valR, valR]; exact_mod_cast abs_valF_div_pos ha hb)

theorem sqrtF_lt (F : Fmt) (a : Reg) : (sqrtF F a).toNat < 2 ^ F.width := by
  unfold sqrtF
  split
  case h_1 | h_3 | h_4 => exact nanF_lt F _
  case h_2 => exact zeroF_lt F _
  case h_5 => exact infF_lt F _
  case h_6 ha =>
    have hpos := (valF_pos_iff ha).mpr rfl
    rw [rneSqrt_eq F hpos]
    exact rneR_lt F false (Real.sqrt_pos.mpr (Rat.cast_pos.mpr hpos))

/-! ### NaN results (R126) -/

theorem signBit_lowBits (F : Fmt) (b : Reg) : signBit F (lowBits F.width b) = signBit F b := by
  have hwidth := F.width_eq
  rw [signBit, getLsbD_lowBits F.width_le, decide_eq_true (by omega), Bool.true_and, signBit]

theorem fracField_lowBits (F : Fmt) (b : Reg) : fracField F (lowBits F.width b) = fracField F b := by
  have hwidth := F.width_eq
  rw [fracField, toNat_lowBits F.width_le, Nat.mod_mod_of_dvd _ (Nat.pow_dvd_pow 2 (by omega)), fracField]

theorem expField_lowBits (F : Fmt) (b : Reg) : expField F (lowBits F.width b) = expField F b := by
  have hwidth : F.width = F.p + (F.nbexp + 1) := by rw [F.width_eq]; omega
  rw [expField, toNat_lowBits F.width_le, hwidth, pow_add, Nat.mod_mul_right_div_self,
    Nat.mod_mod_of_dvd _ (Nat.pow_dvd_pow 2 (by omega)), expField]

/-- A pattern is read from its W low bits alone (R32, R121). -/
theorem unpack_lowBits (F : Fmt) (b : Reg) : unpack F (lowBits F.width b) = unpack F b := by
  simp only [unpack, signBit_lowBits, expField_lowBits, fracField_lowBits]

/-- If the pattern is a NaN, its fraction is QNAN_FRAC of the format. -/
def NanIsQuiet (F : Fmt) (r : Reg) : Prop := cls F r = .nan → fracField F r = Config.qnanFrac F

theorem nanIsQuiet_lowBits {F : Fmt} {r : Reg} (h : NanIsQuiet F r) : NanIsQuiet F (lowBits F.width r) := by
  unfold NanIsQuiet cls at *
  rwa [unpack_lowBits, fracField_lowBits]

theorem nanIsQuiet_nanF (F : Fmt) (s : Bool) : NanIsQuiet F (nanF F s) := fun _ =>
  fracField_packFields F s F.expOnes_lt (Config.qnanFrac_lt F)

theorem nanIsQuiet_of_unpack {F : Fmt} {r : Reg} (h : ∀ s, unpack F r = .nan s → False) : NanIsQuiet F r := by
  intro hn
  obtain ⟨s, hs⟩ := unpack_of_cls_nan hn
  exact (h s hs).elim

theorem nanIsQuiet_zeroF (F : Fmt) (s : Bool) : NanIsQuiet F (zeroF F s) := nanIsQuiet_of_unpack (by simp)
theorem nanIsQuiet_infF (F : Fmt) (s : Bool) : NanIsQuiet F (infF F s) := nanIsQuiet_of_unpack (by simp)

/-- A rounding never gives a NaN (R129). -/
theorem nanIsQuiet_rneR (F : Fmt) (s : Bool) {x : ℝ} (hx : 0 < x) : NanIsQuiet F (rneR F s x) := by
  rcases rneR_cases F s hx with h | h | ⟨e, m, hok, h⟩
  · exact h ▸ nanIsQuiet_infF F s
  · exact h ▸ nanIsQuiet_zeroF F s
  · exact h ▸ nanIsQuiet_of_unpack (by simp [unpack_packFinite F s hok])

theorem nanIsQuiet_rne (F : Fmt) (s : Bool) {x : ℚ} (hx : 0 < x) : NanIsQuiet F (rne F s x) :=
  rne_eq_rneR F s hx ▸ nanIsQuiet_rneR F s (Rat.cast_pos.mpr hx)

/-- A sum or an integer, rounded, with a zero of its own for 0. -/
theorem nanIsQuiet_roundSum (F : Fmt) (s : Bool) (S : ℚ) :
    NanIsQuiet F (if S = 0 then zeroF F s else rneSigned F S) := by
  split
  case isTrue => exact nanIsQuiet_zeroF F s
  case isFalse hS => exact nanIsQuiet_rne F _ (abs_pos.mpr hS)

theorem nanIsQuiet_addF (F : Fmt) (a b : Reg) : NanIsQuiet F (addF F a b) := by
  unfold addF
  split
  case h_1 | h_2 => exact nanIsQuiet_nanF F _
  case h_3 => split; exacts [nanIsQuiet_infF F _, nanIsQuiet_nanF F _]
  case h_4 | h_5 => exact nanIsQuiet_infF F _
  case h_6 => exact nanIsQuiet_zeroF F _
  case h_7 => exact nanIsQuiet_of_unpack ‹∀ s, unpack F b = .nan s → False›
  case h_8 => exact nanIsQuiet_of_unpack ‹∀ s, unpack F a = .nan s → False›
  case h_9 => exact nanIsQuiet_roundSum F false _

theorem nanIsQuiet_mulF (F : Fmt) (a b : Reg) : NanIsQuiet F (mulF F a b) := by
  unfold mulF
  extract_lets s
  split
  case h_1 | h_2 | h_3 | h_4 => exact nanIsQuiet_nanF F _
  case h_5 | h_6 => exact nanIsQuiet_infF F _
  case h_7 | h_8 => exact nanIsQuiet_zeroF F _
  case h_9 ha hb => exact nanIsQuiet_rne F s (abs_valF_mul_pos ha hb)

theorem nanIsQuiet_divF (F : Fmt) (a b : Reg) : NanIsQuiet F (divF F a b) := by
  unfold divF
  extract_lets s
  split
  case h_1 | h_2 | h_3 | h_4 => exact nanIsQuiet_nanF F _
  case h_5 | h_6 => exact nanIsQuiet_infF F _
  case h_7 | h_8 => exact nanIsQuiet_zeroF F _
  case h_9 ha hb => exact nanIsQuiet_rne F s (abs_valF_div_pos ha hb)

theorem nanIsQuiet_fmaF (F : Fmt) (a b c : Reg) : NanIsQuiet F (fmaF F a b c) := by
  unfold fmaF
  extract_lets s
  split
  case h_1 | h_2 | h_3 | h_4 | h_5 => exact nanIsQuiet_nanF F _
  case h_6 | h_7 => split; exacts [nanIsQuiet_nanF F _, nanIsQuiet_infF F _]
  case h_8 | h_9 | h_10 => exact nanIsQuiet_infF F _
  case h_11 | h_12 => exact nanIsQuiet_zeroF F _
  case h_13 | h_14 => exact nanIsQuiet_of_unpack ‹∀ s, unpack F c = .nan s → False›
  case h_15 => exact nanIsQuiet_roundSum F false _

theorem nanIsQuiet_sqrtF (F : Fmt) (a : Reg) : NanIsQuiet F (sqrtF F a) := by
  unfold sqrtF
  split
  case h_1 | h_3 | h_4 => exact nanIsQuiet_nanF F _
  case h_2 => exact nanIsQuiet_zeroF F _
  case h_5 => exact nanIsQuiet_infF F _
  case h_6 ha =>
    have hpos := (valF_pos_iff ha).mpr rfl
    exact rneSqrt_eq F hpos ▸ nanIsQuiet_rneR F false (Real.sqrt_pos.mpr (Rat.cast_pos.mpr hpos))

theorem nanIsQuiet_roundIntF (ri : ℚ → ℤ) (F : Fmt) (a : Reg) : NanIsQuiet F (roundIntF ri F a) := by
  unfold roundIntF
  split
  case h_1 => exact nanIsQuiet_nanF F _
  case h_2 | h_3 => exact nanIsQuiet_of_unpack (by simp [*])
  case h_4 => simpa only [Int.cast_eq_zero] using nanIsQuiet_roundSum F _ (ri (valF F a))

theorem nanIsQuiet_castF (S D : Fmt) (a : Reg) : NanIsQuiet D (castF S D a) := by
  unfold castF
  split
  case h_1 => exact nanIsQuiet_nanF D _
  case h_2 => exact nanIsQuiet_infF D _
  case h_3 => exact nanIsQuiet_zeroF D _
  case h_4 ha => exact nanIsQuiet_rne D _ (abs_pos.mpr (valF_ne_zero ha))

theorem nanIsQuiet_ofIntF (F : Fmt) (x : ℤ) : NanIsQuiet F (ofIntF F x) := by
  simpa only [ofIntF, Int.cast_eq_zero] using nanIsQuiet_roundSum F false x

/-- A command that writes a quiet NaN or none leaves one in rd. -/
theorem nanIsQuiet_of_wrF {F G : Fmt} {rd : RegIdx} {r : Reg} {s t : State} (hF : Result.float G = .float F)
    (hx : wrF G rd r s = .next t) (hr : NanIsQuiet G r) : NanIsQuiet F (t.reg (regOf (regCode rd))) := by
  cases hF
  cases hx
  rw [regOf_regCode, State.reg_retire_self]
  exact nanIsQuiet_lowBits hr

theorem testBit_qnanFrac (F : Fmt) : (Config.qnanFrac F).testBit (F.p - 1) = true := by
  rw [Config.qnanFrac, Nat.testBit_two_pow_add_eq, Nat.testBit_mod_two_pow]
  simp

/-! ### The statements of the arithmetic commands -/

/-- Settles O20, from what FADD writes. -/
theorem faddResult : Obligations.FaddResult := fun F rd rs1 rs2 _ =>
  ⟨hasEncoding_row (Laws.Encoding.fadd F rd rs1 rs2), writes_fadd⟩

/-- Settles O21, from what FSUB writes. -/
theorem fsubResult : Obligations.FsubResult := fun F rd rs1 rs2 _ =>
  ⟨hasEncoding_row (Laws.Encoding.fsub F rd rs1 rs2), writes_fsub⟩

/-- Settles O22, from what FMUL writes. -/
theorem fmulResult : Obligations.FmulResult := fun F rd rs1 rs2 _ =>
  ⟨hasEncoding_row (Laws.Encoding.fmul F rd rs1 rs2), writes_fmul⟩

/-- Settles O23: the meaning on exact rationals is the rule over the real numbers. -/
theorem fdivResult : Obligations.FdivResult := by
  intro F rd rs1 rs2 s
  refine ⟨hasEncoding_row (Laws.Encoding.fdiv F rd rs1 rs2), ?_⟩
  rw [← divF_eq_divRule]
  exact wrF_of_lt (divF_lt F _ _)

/-- Settles O24, from what FMA writes. -/
theorem fmaResult : Obligations.FmaResult := fun F rd rs1 rs2 rs3 _ =>
  ⟨hasEncoding_row (Laws.Encoding.fma F rd rs1 rs2 rs3), writes_fma⟩

/-- Settles O25: the meaning on the integer root is the rule over the real root. -/
theorem fsqrtResult : Obligations.FsqrtResult := by
  intro F rd rs1 s
  refine ⟨hasEncoding_row (Laws.Encoding.fsqrt F rd rs1), ?_⟩
  rw [← sqrtF_eq_sqrtRule]
  exact wrF_of_lt (sqrtF_lt F _)

/-- Settles O33: each command writes, through `wrF`, a result that is a quiet NaN or none. -/
theorem nanResultsAreQuiet : Obligations.NanResultsAreQuiet := by
  intro i F s t hop hres hx hn
  refine ⟨?_, testBit_qnanFrac F⟩
  revert hn
  change NanIsQuiet F (t.reg (regOf i.fields.rd))
  cases i with
  | fadd | fsub => exact nanIsQuiet_of_wrF hres hx (nanIsQuiet_addF _ _ _)
  | fmul => exact nanIsQuiet_of_wrF hres hx (nanIsQuiet_mulF _ _ _)
  | fdiv => exact nanIsQuiet_of_wrF hres hx (nanIsQuiet_divF _ _ _)
  | fma => exact nanIsQuiet_of_wrF hres hx (nanIsQuiet_fmaF _ _ _ _)
  | fsqrt => exact nanIsQuiet_of_wrF hres hx (nanIsQuiet_sqrtF _ _)
  | ftrunc | ffloor | fceil | fround | frint =>
    exact nanIsQuiet_of_wrF hres hx (nanIsQuiet_roundIntF _ _ _)
  | fcvtFF => exact nanIsQuiet_of_wrF hres hx (nanIsQuiet_castF _ _ _)
  | fcvtFI => exact nanIsQuiet_of_wrF hres hx (nanIsQuiet_ofIntF _ _)
  | _ => simp [Instr.fields, unaryFields, binaryFields, convertFields] at hop

end Sys2Proof
end

section
/-! SUPPORT. Rounding from a bracket of the number by multiples of the last place (R129), so that a representable
value rounds to itself (R130), and the integer datapaths that find such a bracket (R132 to R144). -/

namespace Sys2Proof

/-! ### Rounding a bracketed number -/

/-- The exponent that R129 rounds at. -/
noncomputable def roundExp (F : Fmt) (x : ℝ) : ℤ := max (Int.log 2 x) F.emin

/-- A number between powers of two has the lower one's exponent for its logarithm. -/
theorem log_eq_of_bounds {x : ℝ} {l : ℤ} (h1 : (2 : ℝ) ^ l ≤ x) (h2 : x < (2 : ℝ) ^ (l + 1)) :
    Int.log 2 x = l := by
  have hx : 0 < x := lt_of_lt_of_le (by positivity) h1
  have hle := (Int.zpow_le_iff_le_log (b := 2) (by decide) hx).mp (by exact_mod_cast h1)
  have hlt := (Int.lt_zpow_iff_log_lt (b := 2) (by decide) hx).mp (by exact_mod_cast h2)
  omega

/-- A number between n and n + 1 last places rounds to one of them, the nearer or the even one (R129). -/
theorem rneR_of_bracket (F : Fmt) (s : Bool) {x u : ℝ} {e : ℤ} {n : ℕ} (he : roundExp F x = e)
    (hu : u = (2 : ℝ) ^ (e - F.p)) (h1 : n * u ≤ x) (h2 : x < (n + 1) * u) :
    rneR F s x =
      settle F s e (if (2 * n + 1) * u < 2 * x ∨ (2 * x = (2 * n + 1) * u ∧ n % 2 = 1) then n + 1 else n) := by
  have hu0 : 0 < u := by rw [hu]; positivity
  have hfloor : ⌊x / u⌋.toNat = n := by
    have : ⌊x / u⌋ = (n : ℤ) := by
      rw [Int.floor_eq_iff, le_div_iff₀ hu0, div_lt_iff₀ hu0]
      exact ⟨by exact_mod_cast h1, by exact_mod_cast h2⟩
    rw [this, Int.toNat_natCast]
  have hup : x / u - n > 1 / 2 ↔ (2 * n + 1) * u < 2 * x := by
    rw [gt_iff_lt, lt_sub_iff_add_lt, lt_div_iff₀ hu0]
    constructor <;> intro h <;> linarith
  have htie : x / u - n = 1 / 2 ↔ 2 * x = (2 * n + 1) * u := by
    rw [sub_eq_iff_eq_add, div_eq_iff hu0.ne']
    constructor <;> intro h <;> linarith
  unfold roundExp at he
  simp only [rneR, settle_eq, he, ← hu, hfloor, hup, htie]

/-- A number within half a last place of n last places rounds to n (R129). -/
theorem rneR_of_near (F : Fmt) (s : Bool) {x u : ℝ} {e : ℤ} {n : ℕ} (hx : 0 < x) (he : roundExp F x = e)
    (hu : u = (2 : ℝ) ^ (e - F.p)) (h : |x - n * u| < u / 2) : rneR F s x = settle F s e n := by
  obtain ⟨hlo, hhi⟩ := abs_lt.mp h
  rcases le_or_gt (n * u) x with hle | hlt
  · rw [rneR_of_bracket F s he hu hle (by linarith), if_neg]
    rintro (h | ⟨h, -⟩) <;> linarith
  · obtain ⟨k, rfl⟩ : ∃ k, n = k + 1 := Nat.exists_eq_succ_of_ne_zero (by rintro rfl; simp at hlt; linarith)
    push_cast at *
    rw [rneR_of_bracket F s he hu (n := k) (by linarith) hlt, if_pos (.inl (by linarith))]

theorem settle_of_finiteOk (F : Fmt) (s : Bool) {e : ℤ} {m : ℕ} (h : FiniteOk F e m) :
    settle F s e m = packFinite F s e m := by
  have hpos := h.pos
  rw [settle, if_neg h.lt.ne, if_neg h.le_emax.not_gt, if_neg (by omega)]

/-- A carry out of the mantissa gives the next binade's power of two (R129). -/
theorem settle_carry (F : Fmt) (s : Bool) {e : ℤ} (h : e + 1 ≤ F.emax) :
    settle F s e (2 ^ (F.p + 1)) = packFinite F s (e + 1) (2 ^ F.p) := by
  rw [settle, if_pos rfl, if_neg h.not_gt]

theorem two_pow_mul_zpow (k : ℕ) (q : ℤ) : (2 : ℝ) ^ k * 2 ^ q = 2 ^ (q + k) := by
  rw [← zpow_natCast, ← zpow_add₀ two_ne_zero, add_comm]

/-- Below the format's least binade the exponent stays; from there on it is the logarithm. -/
theorem roundExp_of_bounds {F : Fmt} {x : ℝ} {e : ℤ} (he : F.emin ≤ e) (hx : 0 < x)
    (h1 : F.emin < e → (2 : ℝ) ^ e ≤ x) (h2 : x < (2 : ℝ) ^ (e + 1)) : roundExp F x = e := by
  have hlt := (Int.lt_zpow_iff_log_lt (b := 2) (by decide) hx).mp (by exact_mod_cast h2)
  rcases he.eq_or_lt with rfl | he
  · exact max_eq_right (by omega)
  · rw [roundExp, log_eq_of_bounds (h1 he) h2, max_eq_left he.le]

/-- Just below the power of two 2^e, where the last place is half of what it is above, the mantissa carries and
the power of two itself is the result (R129). -/
theorem rneR_below_two_pow (F : Fmt) (s : Bool) {x u : ℝ} {e : ℤ} (he : F.emin < e) (he' : e ≤ F.emax)
    (hu : u = (2 : ℝ) ^ (e - F.p)) (hlo : (2 ^ F.p - 1 / 4) * u < x) (hhi : x < 2 ^ F.p * u) :
    rneR F s x = packFinite F s e (2 ^ F.p) := by
  have hu0 : 0 < u := by rw [hu]; positivity
  have hp : (1 : ℝ) ≤ 2 ^ F.p := one_le_pow₀ one_le_two
  have hx0 : 0 < x := by nlinarith
  have hbot : (2 : ℝ) ^ e = 2 ^ F.p * u := by rw [hu, two_pow_mul_zpow, sub_add_cancel]
  have hpred : roundExp F x = e - 1 := by
    refine roundExp_of_bounds (by omega) hx0 (fun _ => ?_) (by rwa [sub_add_cancel, hbot])
    rw [zpow_sub_one₀ two_ne_zero, hbot]
    nlinarith
  have hhalf : u / 2 = (2 : ℝ) ^ (e - 1 - F.p) := by
    rw [hu, show e - 1 - F.p = e - F.p - 1 by ring, zpow_sub_one₀ two_ne_zero, div_eq_mul_inv]
  have hnear : |x - (2 ^ (F.p + 1) : ℕ) * (u / 2)| < u / 2 / 2 := by
    rw [abs_lt, Nat.cast_pow, Nat.cast_ofNat, pow_succ]
    constructor <;> linarith
  rw [rneR_of_near F s hx0 hpred hhalf hnear, settle_carry F s (by omega), sub_add_cancel]

/-- A number within a quarter of a last place of a finite value rounds to it: a quarter, since the last place
halves below a power of two (R129, R130, R136). -/
theorem rneR_near_finite (F : Fmt) (s : Bool) {x u : ℝ} {e : ℤ} {m : ℕ} (h : FiniteOk F e m)
    (hu : u = (2 : ℝ) ^ (e - F.p)) (hx : |x - m * u| < u / 4) : rneR F s x = packFinite F s e m := by
  obtain ⟨hlo, hhi⟩ := abs_lt.mp hx
  have hu0 : 0 < u := by rw [hu]; positivity
  have hpos : (1 : ℝ) ≤ m := by exact_mod_cast h.pos
  have hlt : (m : ℝ) + 1 ≤ 2 ^ (F.p + 1) := by exact_mod_cast h.lt
  have hx0 : 0 < x := by nlinarith
  have hbot : (2 : ℝ) ^ e = 2 ^ F.p * u := by rw [hu, two_pow_mul_zpow, sub_add_cancel]
  have htop : (2 : ℝ) ^ (e + 1) = 2 ^ (F.p + 1) * u := by
    rw [hu, two_pow_mul_zpow]; congr 1; push_cast; ring
  by_cases hb : F.emin < e ∧ x < (2 : ℝ) ^ e
  · obtain ⟨he, hxe⟩ := hb
    obtain rfl : m = 2 ^ F.p := by
      have hge : ¬m < 2 ^ F.p := fun hm => he.ne' (h.subnormal hm)
      have hm : (m : ℝ) < 2 ^ F.p + 1 := by nlinarith
      have hle : m < 2 ^ F.p + 1 := by exact_mod_cast hm
      omega
    push_cast at hlo
    exact rneR_below_two_pow F s he h.le_emax hu (by linarith) (hbot ▸ hxe)
  · have he : roundExp F x = e :=
      roundExp_of_bounds h.emin_le hx0 (fun he => not_lt.mp fun hxe => hb ⟨he, hxe⟩) (by rw [htop]; nlinarith)
    have hnear : |x - m * u| < u / 2 := by linarith
    rw [rneR_of_near F s hx0 he hu hnear, settle_of_finiteOk F s h]

/-! ### Values of finite patterns -/

/-- A magnitude with a sign. -/
def signed (s : Bool) (x : ℝ) : ℝ := if s then -x else x

theorem rneSignedR_signed (F : Fmt) (s : Bool) {x : ℝ} (hx : 0 < x) : rneSignedR F (signed s x) = rneR F s x := by
  cases s
  case false => simp [rneSignedR, signed, hx.not_gt, abs_of_pos hx]
  case true => simp [rneSignedR, signed, hx, abs_of_pos hx]

/-- The value of a finite pattern (R123). -/
theorem valR_of_unpack {F : Fmt} {b : Reg} {s : Bool} {e : ℤ} {m : ℕ} (h : unpack F b = .finite s e m) :
    valR F b = signed s (m * (2 : ℝ) ^ (e - F.p)) := by
  rw [valR, valF, h, Unpacked.val, pow2_eq]
  cases s <;> simp [signed]

/-- Rounding the value of a finite pattern gives the pattern (R130). -/
theorem rneSigned_valF {F : Fmt} {b : Reg} (hb : b.toNat < 2 ^ F.width) (hc : cls F b = .finite) :
    rneSigned F (valF F b) = b := by
  obtain ⟨s, e, m, hu⟩ : ∃ s e m, unpack F b = .finite s e m := by
    unfold cls at hc
    split at hc
    case h_2 s e m hu => exact ⟨s, e, m, hu⟩
    all_goals cases hc
  have hok := finiteOk_of_unpack hu
  have hm : (0 : ℝ) < m := by exact_mod_cast hok.pos
  rw [rneSigned_eq_rneSignedR F (valF_ne_zero hu), ← valR_eq_cast, valR_of_unpack hu,
    rneSignedR_signed F s (by positivity), rneR_near_finite F s hok rfl (by rw [sub_self, abs_zero]; positivity),
    ← eq_packFinite_of_unpack hb hu]

/-- Settles O36: two patterns of one value are what that value rounds to. -/
theorem exactResultsStayExact : Obligations.ExactResultsStayExact := by
  intro F b c hb hc hfb hfc
  refine ⟨rneSigned_valF hb hfb, fun hval => ?_⟩
  rw [← rneSigned_valF hc hfc, hval, rneSigned_valF hb hfb]

/-! ### Guard and sticky rounding (R132) -/

section Guard
variable {F : Fmt} {s : Bool} {M : ℕ} {q : ℤ} {sticky : Bool} {x : ℝ}

/-- The exponent comes from the leading bit of M, as nothing carries into it from below bit 0. -/
theorem roundExp_of_mantissa (hM : 0 < M) (h1 : M * (2 : ℝ) ^ q ≤ x) (h2 : x < (M + 1) * (2 : ℝ) ^ q) :
    roundExp F x = max ((Nat.log2 M : ℤ) + q) F.emin := by
  have hq : (0 : ℝ) < 2 ^ q := by positivity
  have hlo : ((2 ^ Nat.log2 M : ℕ) : ℝ) ≤ M := by exact_mod_cast Nat.log2_self_le hM.ne'
  have hhi : (M : ℝ) + 1 ≤ (2 ^ (Nat.log2 M + 1) : ℕ) := by exact_mod_cast Nat.lt_log2_self
  push_cast at hlo hhi
  rw [roundExp, log_eq_of_bounds (l := (Nat.log2 M : ℤ) + q)]
  · rw [add_comm, ← two_pow_mul_zpow]
    exact (mul_le_mul_of_nonneg_right hlo hq.le).trans h1
  · rw [show (Nat.log2 M : ℤ) + q + 1 = q + (Nat.log2 M + 1 : ℕ) by push_cast; ring, ← two_pow_mul_zpow]
    exact h2.trans_le (mul_le_mul_of_nonneg_right hhi hq.le)

/-- A number whose bits are those of M, with more below bit 0 exactly if the sticky bit is set, lies above the
middle of the steps of 2^w by its guard bit and the bits below that. -/
theorem guard_decides {w : ℕ} {y : ℝ} (hw : 0 < w) (h1 : (M : ℝ) ≤ y) (h2 : y < M + 1)
    (hst : sticky = true ↔ M < y) :
    ((M / 2 ^ w : ℕ) : ℝ) * 2 ^ w ≤ y ∧ y < ((M / 2 ^ w : ℕ) + 1) * 2 ^ w ∧
      ((2 * (M / 2 ^ w : ℕ) + 1) * 2 ^ w < 2 * y ∨
          (2 * y = (2 * (M / 2 ^ w : ℕ) + 1) * 2 ^ w ∧ M / 2 ^ w % 2 = 1) ↔
        M / 2 ^ (w - 1) % 2 = 1 ∧ ((sticky || M % 2 ^ (w - 1) != 0) = true ∨ M / 2 ^ w % 2 = 1)) := by
  obtain ⟨k, rfl⟩ : ∃ k, w = k + 1 := Nat.exists_eq_succ_of_ne_zero hw.ne'
  have hh : (0 : ℝ) < 2 ^ k := by positivity
  have hM : (M : ℝ) = 2 ^ k * (M / 2 ^ k : ℕ) + (M % 2 ^ k : ℕ) := by
    exact_mod_cast (Nat.div_add_mod M (2 ^ k)).symm
  have hl : ((M % 2 ^ k : ℕ) : ℝ) + 1 ≤ 2 ^ k := by exact_mod_cast Nat.mod_lt M (by positivity)
  have hn : ((M / 2 ^ k : ℕ) : ℝ) = 2 * (M / 2 ^ k / 2 : ℕ) + (M / 2 ^ k % 2 : ℕ) := by
    exact_mod_cast (Nat.div_add_mod (M / 2 ^ k) 2).symm
  have hg : M / 2 ^ k % 2 = 0 ∨ M / 2 ^ k % 2 = 1 := Nat.mod_two_eq_zero_or_one _
  have hbelow : (sticky || M % 2 ^ k != 0) = true ↔ M < y ∨ 0 < ((M % 2 ^ k : ℕ) : ℝ) := by
    rw [Bool.or_eq_true, hst, bne_iff_ne, Nat.cast_pos, Nat.pos_iff_ne_zero]
  have hdiv : M / 2 ^ (k + 1) = M / 2 ^ k / 2 := by rw [pow_succ, Nat.div_div_eq_div_mul]
  rw [Nat.add_sub_cancel, hdiv, pow_succ, hbelow]
  rw [hn] at hM
  generalize M / 2 ^ k / 2 = n at *
  generalize M / 2 ^ k % 2 = g at *
  have hl0 : (0 : ℝ) ≤ (M % 2 ^ k : ℕ) := Nat.cast_nonneg _
  generalize ((M % 2 ^ k : ℕ) : ℝ) = l at *
  rcases hg with rfl | rfl
  · -- guard bit 0: below the middle
    rw [Nat.cast_zero] at hM
    refine ⟨by linarith, by linarith, iff_of_false ?_ (by simp)⟩
    rintro (h | ⟨h, -⟩) <;> linarith
  · -- guard bit 1: at the middle if nothing lies below it, else above
    rw [Nat.cast_one] at hM
    refine ⟨by linarith, by linarith, ?_⟩
    rw [and_iff_right rfl]
    by_cases hpos : M < y ∨ 0 < l
    · exact iff_of_true (.inl (by rcases hpos with h | h <;> linarith)) (.inl hpos)
    · obtain ⟨hy, hl'⟩ := not_or.mp hpos
      have htie : 2 * y = (2 * n + 1) * (2 ^ k * 2) := by linarith
      simp [htie, hpos]

/-- Guard and sticky rounding is R129's rounding (R132). -/
theorem round_eq_rneR (hM : 0 < M) (h1 : M * (2 : ℝ) ^ q ≤ x) (h2 : x < (M + 1) * (2 : ℝ) ^ q)
    (hst : sticky = true ↔ M * (2 : ℝ) ^ q < x) (hp : sticky = true → 2 ^ (F.p + 1) ≤ M) :
    Datapath.round F s M q sticky = rneR F s x := by
  have hq : (0 : ℝ) < 2 ^ q := by positivity
  have he := roundExp_of_mantissa (F := F) hM h1 h2
  unfold Datapath.round
  extract_lets e k w n g st
  split
  case isTrue hk =>
    -- no bit is dropped, so the sticky bit is clear and the value is exact
    have hclear : ¬sticky = true := by
      intro hs
      have hlog := (Nat.le_log2 hM.ne').mpr (hp hs)
      omega
    have hx : x = M * (2 : ℝ) ^ q := le_antisymm (not_lt.mp (mt hst.mpr hclear)) h1
    have hscale : ((M * 2 ^ (-k).toNat : ℕ) : ℝ) * 2 ^ (e - F.p) = x := by
      rw [hx, Nat.cast_mul, Nat.cast_pow, Nat.cast_ofNat, mul_assoc, two_pow_mul_zpow]
      congr 2
      omega
    rw [rneR_of_near F s _ he rfl (by rw [hscale, sub_self, abs_zero]; positivity)]
    rw [hx]; positivity
  case isFalse hk =>
    have hu : (2 : ℝ) ^ (e - F.p) = 2 ^ w * 2 ^ q := by rw [two_pow_mul_zpow]; congr 1; omega
    obtain ⟨y, rfl⟩ : ∃ y, x = y * 2 ^ q := ⟨x / 2 ^ q, (div_mul_cancel₀ x hq.ne').symm⟩
    rw [mul_lt_mul_iff_left₀ hq] at h2 hst
    obtain ⟨b1, b2, hdir⟩ := guard_decides (w := w) (by omega) (le_of_mul_le_mul_right h1 hq) h2 hst
    rw [rneR_of_bracket F s he rfl (n := n), hu]
    · simp only [← mul_assoc, mul_lt_mul_iff_left₀ hq, mul_left_inj' hq.ne', n, g, st, e, hdir]
    · rw [hu, ← mul_assoc]; exact mul_le_mul_of_nonneg_right b1 hq.le
    · rw [hu, ← mul_assoc]; exact mul_lt_mul_of_pos_right b2 hq

end Guard

/-- With no bit below bit 0 the exact value is rounded. -/
theorem round_exact (F : Fmt) (s : Bool) {M : ℕ} (q : ℤ) (hM : 0 < M) :
    Datapath.round F s M q false = rneR F s (M * (2 : ℝ) ^ q) := by
  have hq : (0 : ℝ) < 2 ^ q := by positivity
  exact round_eq_rneR hM le_rfl (by linarith) (by simp) (by simp)

/-- With the sticky bit set, a number strictly between two neighbouring values of M is rounded. -/
theorem round_sticky (F : Fmt) (s : Bool) {M : ℕ} {q : ℤ} {x : ℝ} (hM : 2 ^ (F.p + 1) ≤ M)
    (h1 : M * (2 : ℝ) ^ q < x) (h2 : x < (M + 1) * (2 : ℝ) ^ q) : Datapath.round F s M q true = rneR F s x := by
  have hpos : 0 < M := lt_of_lt_of_le (by positivity) hM
  exact round_eq_rneR hpos h1.le h2 (by simp [h1]) fun _ => hM

/-- Settles O55, for the sticky bit clear and set. -/
theorem guardStickyRounding : Obligations.GuardStickyRounding := fun F s _ q =>
  ⟨round_exact F s q, fun hM _ => round_sticky F s hM⟩

/-! ### Finite operands of the rules -/

theorem abs_signed (s : Bool) {x : ℝ} (hx : 0 < x) : |signed s x| = x := by
  cases s <;> simp [signed, abs_of_pos hx]

/-- A sum rounded once, +0 if it is 0 (R133, R134, R141). -/
noncomputable def roundSumR (F : Fmt) (S : ℝ) : Reg := if S = 0 then zeroF F false else rneSignedR F S

section Operands
variable {F : Fmt} {a b c : Reg} {s1 s2 s3 : Bool} {e1 e2 e3 : ℤ} {m1 m2 m3 : ℕ}

theorem abs_valR (ha : unpack F a = .finite s1 e1 m1) : |valR F a| = m1 * (2 : ℝ) ^ (e1 - F.p) := by
  have hm : (0 : ℝ) < m1 := by exact_mod_cast (finiteOk_of_unpack ha).pos
  rw [valR_of_unpack ha, abs_signed s1 (by positivity)]

theorem mulRule_finite (ha : unpack F a = .finite s1 e1 m1) (hb : unpack F b = .finite s2 e2 m2) :
    mulRule F a b = rneR F (s1 ^^ s2) (|valR F a| * |valR F b|) := by
  simp [mulRule, cls, sgn, ha, hb, Unpacked.sign]

theorem divRule_finite (ha : unpack F a = .finite s1 e1 m1) (hb : unpack F b = .finite s2 e2 m2) :
    divRule F a b = rneR F (s1 ^^ s2) (|valR F a| / |valR F b|) := by
  simp [divRule, cls, sgn, ha, hb, Unpacked.sign]

theorem addRule_finite (ha : unpack F a = .finite s1 e1 m1) (hb : unpack F b = .finite s2 e2 m2) :
    addRule F a b = roundSumR F (valR F a + valR F b) := by
  simp [addRule, roundSumR, cls, ha, hb]

theorem fmaRule_finite (ha : unpack F a = .finite s1 e1 m1) (hb : unpack F b = .finite s2 e2 m2)
    (hc : unpack F c = .finite s3 e3 m3) : fmaRule F a b c = roundSumR F (valR F a * valR F b + valR F c) := by
  simp [fmaRule, roundSumR, cls, ha, hb, hc]

theorem sqrtRule_finite (ha : unpack F a = .finite false e1 m1) :
    sqrtRule F a = rneR F false (Real.sqrt (valR F a)) := by
  simp [sqrtRule, cls, sgn, ha, Unpacked.sign]

/-! ### Multiplication (R138) -/

theorem mul_eq_mulRule (ha : unpack F a = .finite s1 e1 m1) (hb : unpack F b = .finite s2 e2 m2) :
    Datapath.mul F (s1 ^^ s2) e1 m1 e2 m2 = mulRule F a b := by
  have hM := Nat.mul_pos (finiteOk_of_unpack ha).pos (finiteOk_of_unpack hb).pos
  have hval : ((m1 * m2 : ℕ) : ℝ) * 2 ^ (e1 + e2 - 2 * F.p) = |valR F a| * |valR F b| := by
    rw [abs_valR ha, abs_valR hb, show e1 + e2 - 2 * F.p = (e1 - F.p) + (e2 - F.p) by ring, zpow_add₀ two_ne_zero]
    push_cast
    ring
  rw [Datapath.mul, round_exact F _ _ hM, hval, mulRule_finite ha hb]

/-! ### Addition (R136) and the fused multiply-add (R142) -/

theorem signed_add (s : Bool) (x y : ℝ) : signed s x + signed s y = signed s (x + y) := by
  cases s <;> simp [signed, add_comm]

/-- Opposite signs subtract. -/
theorem signed_add_of_ne {s t : Bool} (h : s ≠ t) (x y : ℝ) : signed s x + signed t y = signed s (x - y) := by
  obtain rfl := Bool.eq_not.mpr h.symm
  cases s <;> simp [signed, sub_eq_add_neg, add_comm]

/-- The first operand's sign taken out of a sum. -/
theorem signed_add_xor (s t : Bool) (x y : ℝ) : signed s x + signed t y = signed s (x + signed (s ^^ t) y) := by
  cases s <;> cases t <;> simp [signed, add_comm]

theorem signed_mul (s t : Bool) (x y : ℝ) : signed s x * signed t y = signed (s ^^ t) (x * y) := by
  cases s <;> cases t <;> simp [signed]

theorem roundSumR_signed (F : Fmt) (s : Bool) {x : ℝ} (hx : 0 < x) : roundSumR F (signed s x) = rneR F s x := by
  have hne : signed s x ≠ 0 := by rw [← abs_pos, abs_signed s hx]; exact hx
  rw [roundSumR, if_neg hne, rneSignedR_signed F s hx]

/-- The sum of two aligned magnitudes is rounded once (R133). -/
theorem addAligned_eq (F : Fmt) (s t : Bool) {A B : ℕ} (hA : 0 < A) (q : ℤ) :
    Datapath.addAligned F s A t B q =
      roundSumR F (signed s (A * (2 : ℝ) ^ q) + signed t (B * (2 : ℝ) ^ q)) := by
  have hq : (0 : ℝ) < 2 ^ q := by positivity
  unfold Datapath.addAligned
  split_ifs with hs hAB hgt
  · subst hs
    have hM : 0 < A + B := by omega
    rw [round_exact F s q hM, signed_add, ← add_mul, ← Nat.cast_add, roundSumR_signed F s (by positivity)]
  · rw [signed_add_of_ne hs, hAB, sub_self, roundSumR, if_pos]
    cases s <;> simp [signed]
  · have hM : 0 < A - B := by omega
    rw [round_exact F s q hM, signed_add_of_ne hs, ← sub_mul, ← Nat.cast_sub hgt.le,
      roundSumR_signed F s (by positivity)]
  · have hM : 0 < B - A := by omega
    rw [round_exact F t q hM, add_comm, signed_add_of_ne (Ne.symm hs), ← sub_mul, ← Nat.cast_sub (by omega),
      roundSumR_signed F t (by positivity)]

/-- A mantissa shifted left stands over the smaller exponent. -/
theorem shifted_mul_zpow (m : ℕ) {q r : ℤ} (h : q ≤ r) :
    ((m * 2 ^ (r - q).toNat : ℕ) : ℝ) * 2 ^ q = m * 2 ^ r := by
  rw [Nat.cast_mul, Nat.cast_pow, Nat.cast_ofNat, mul_assoc, two_pow_mul_zpow]
  congr 2
  omega

theorem fma_eq_fmaRule (ha : unpack F a = .finite s1 e1 m1) (hb : unpack F b = .finite s2 e2 m2)
    (hc : unpack F c = .finite s3 e3 m3) :
    Datapath.fma F (s1 ^^ s2) e1 m1 e2 m2 s3 e3 m3 = fmaRule F a b c := by
  have hM := Nat.mul_pos (finiteOk_of_unpack ha).pos (finiteOk_of_unpack hb).pos
  unfold Datapath.fma
  extract_lets qp qc q
  have hprod : signed (s1 ^^ s2) ((m1 * m2 : ℕ) * 2 ^ qp) = valR F a * valR F b := by
    rw [valR_of_unpack ha, valR_of_unpack hb, signed_mul, show qp = (e1 - F.p) + (e2 - F.p) by omega,
      zpow_add₀ two_ne_zero, Nat.cast_mul, mul_mul_mul_comm]
  rw [addAligned_eq F _ _ (Nat.mul_pos hM (by positivity)), shifted_mul_zpow _ (min_le_left qp qc),
    shifted_mul_zpow _ (min_le_right qp qc), hprod, ← valR_of_unpack hc, fmaRule_finite ha hb hc]

/-- Beyond the shortcut's threshold the smaller operand is less than a quarter of the larger one's last place. -/
theorem small_of_far (hB : FiniteOk F e2 m2) (h : F.p + 3 < e1 - e2) :
    m2 * (2 : ℝ) ^ (e2 - F.p) < 2 ^ (e1 - F.p) / 4 :=
  calc m2 * (2 : ℝ) ^ (e2 - F.p)
      < 2 ^ (F.p + 1) * 2 ^ (e2 - F.p) := mul_lt_mul_of_pos_right (by exact_mod_cast hB.lt) (by positivity)
    _ = 2 ^ (e2 + 1) := by rw [two_pow_mul_zpow]; congr 1; push_cast; ring
    _ ≤ 2 ^ (e1 - F.p - 2) := zpow_le_zpow_right₀ one_le_two (by omega)
    _ = 2 ^ (e1 - F.p) / 4 := by rw [zpow_sub₀ two_ne_zero]; norm_num

/-- The addition datapath with the larger exponent first rounds the sum once: the shortcut's operand is what the
sum rounds to (R136). -/
theorem addOrdered_eq (ha : unpack F a = .finite s1 e1 m1) (hb : unpack F b = .finite s2 e2 m2) (he : e2 ≤ e1) :
    Datapath.addOrdered F s1 e1 m1 s2 e2 m2 = roundSumR F (valR F a + valR F b) := by
  have hA := finiteOk_of_unpack ha
  have hB := finiteOk_of_unpack hb
  unfold Datapath.addOrdered
  extract_lets d
  split
  case isTrue hd =>
    have hsmall := small_of_far hB (show F.p + 3 < e1 - e2 by omega)
    have hm1 : (1 : ℝ) ≤ m1 := by exact_mod_cast hA.pos
    have hm2 : (0 : ℝ) < m2 := by exact_mod_cast hB.pos
    have hu : (0 : ℝ) < 2 ^ (e1 - F.p) := by positivity
    have hnear : |m1 * (2 : ℝ) ^ (e1 - F.p) + signed (s1 ^^ s2) (m2 * 2 ^ (e2 - F.p)) - m1 * 2 ^ (e1 - F.p)|
        < 2 ^ (e1 - F.p) / 4 := by
      rwa [add_sub_cancel_left, abs_signed _ (by positivity)]
    have hpos : 0 < m1 * (2 : ℝ) ^ (e1 - F.p) + signed (s1 ^^ s2) (m2 * 2 ^ (e2 - F.p)) := by
      have := (abs_lt.mp hnear).1
      nlinarith
    rw [valR_of_unpack ha, valR_of_unpack hb, signed_add_xor, roundSumR_signed F s1 hpos,
      rneR_near_finite F s1 hA rfl hnear]
  case isFalse =>
    rw [addAligned_eq F _ _ (Nat.mul_pos hA.pos (by positivity)), valR_of_unpack ha, valR_of_unpack hb,
      ← shifted_mul_zpow m1 (show e2 - F.p ≤ e1 - F.p by omega), show (e1 - F.p - (e2 - F.p)).toNat = d by omega]

/-! ### Division by remainder comparison (R140) -/

theorem log_mul_zpow {x : ℝ} (hx : 0 < x) (q : ℤ) : Int.log 2 (x * (2 : ℝ) ^ q) = Int.log 2 x + q := by
  have hq : (0 : ℝ) < 2 ^ q := by positivity
  apply log_eq_of_bounds
  · rw [zpow_add₀ two_ne_zero]
    exact mul_le_mul_of_nonneg_right (two_zpow_log_le hx) hq.le
  · rw [add_right_comm, zpow_add₀ two_ne_zero]
    exact mul_lt_mul_of_pos_right lt_two_zpow_log_succ hq

/-- The leading bits of two mantissas give their quotient's exponent: it is one less where the first mantissa is
the smaller one with both leading bits aligned (R140). -/
theorem log_div {m n : ℕ} (hm : 0 < m) (hn : 0 < n) : Int.log 2 ((m : ℝ) / n) =
    (Nat.log2 m : ℤ) - Nat.log2 n - (if m * 2 ^ Nat.log2 n < n * 2 ^ Nat.log2 m then 1 else 0) := by
  have hm1 : ((2 ^ Nat.log2 m : ℕ) : ℝ) ≤ m := by exact_mod_cast Nat.log2_self_le hm.ne'
  have hm2 : (m : ℝ) < (2 ^ Nat.log2 m : ℕ) * 2 := by exact_mod_cast Nat.lt_log2_self
  have hn1 : ((2 ^ Nat.log2 n : ℕ) : ℝ) ≤ n := by exact_mod_cast Nat.log2_self_le hn.ne'
  have hn2 : (n : ℝ) < (2 ^ Nat.log2 n : ℕ) * 2 := by exact_mod_cast Nat.lt_log2_self
  have hlead : (2 : ℝ) ^ ((Nat.log2 m : ℤ) - Nat.log2 n) = (2 ^ Nat.log2 m : ℕ) / (2 ^ Nat.log2 n : ℕ) := by
    rw [zpow_sub₀ two_ne_zero, zpow_natCast, zpow_natCast]
    push_cast
    rfl
  have hcmp : m * 2 ^ Nat.log2 n < n * 2 ^ Nat.log2 m ↔
      (m : ℝ) * (2 ^ Nat.log2 n : ℕ) < n * (2 ^ Nat.log2 m : ℕ) := by exact_mod_cast Iff.rfl
  have hm0 : (0 : ℝ) < (2 ^ Nat.log2 m : ℕ) := by positivity
  have hn0 : (0 : ℝ) < (2 ^ Nat.log2 n : ℕ) := by positivity
  simp only [hcmp]
  generalize ((2 ^ Nat.log2 m : ℕ) : ℝ) = P at *
  generalize ((2 ^ Nat.log2 n : ℕ) : ℝ) = Q at *
  have hn' : (0 : ℝ) < n := by exact_mod_cast hn
  split
  case isTrue h =>
    apply log_eq_of_bounds
    · rw [zpow_sub_one₀ two_ne_zero, hlead, ← div_eq_mul_inv, div_div, div_le_div_iff₀ (by positivity) hn']
      nlinarith
    · rw [sub_add_cancel, hlead, div_lt_div_iff₀ hn' hn0]
      linarith
  case isFalse h =>
    rw [not_lt] at h
    rw [sub_zero]
    apply log_eq_of_bounds
    · rw [hlead, div_le_div_iff₀ hn0 hn']
      linarith
    · rw [zpow_add_one₀ two_ne_zero, hlead, div_mul_eq_mul_div, div_lt_div_iff₀ hn' hn0]
      nlinarith

/-- A quotient of integers, in last places, rounds by its remainder against half the divisor. -/
theorem rneR_of_quotient (F : Fmt) (s : Bool) {x u : ℝ} {e : ℤ} {N D : ℕ} (he : roundExp F x = e)
    (hu : u = (2 : ℝ) ^ (e - F.p)) (hD : 0 < D) (hx : x * D = N * u) :
    rneR F s x =
      settle F s e (if 2 * (N % D) > D ∨ (2 * (N % D) = D ∧ N / D % 2 = 1) then N / D + 1 else N / D) := by
  have hu0 : 0 < u := by rw [hu]; positivity
  have hD0 : (0 : ℝ) < D := by exact_mod_cast hD
  have hN : (N : ℝ) = D * (N / D : ℕ) + (N % D : ℕ) := by exact_mod_cast (Nat.div_add_mod N D).symm
  have hrem : ((N % D : ℕ) : ℝ) < D := by exact_mod_cast Nat.mod_lt N hD
  have hrem0 : (0 : ℝ) ≤ (N % D : ℕ) := Nat.cast_nonneg _
  have hxu : x = ((N / D : ℕ) + (N % D : ℕ) / D) * u := by
    rw [eq_div_of_mul_eq hD0.ne' hx, hN]
    field_simp
  have hup : (2 * (N / D : ℕ) + 1) * u < 2 * x ↔ 2 * (N % D) > D := by
    rw [hxu, ← mul_assoc, mul_lt_mul_iff_left₀ hu0, mul_add, add_lt_add_iff_left, ← mul_div_assoc,
      lt_div_iff₀ hD0, one_mul]
    exact_mod_cast Iff.rfl
  have htie : 2 * x = (2 * (N / D : ℕ) + 1) * u ↔ 2 * (N % D) = D := by
    rw [hxu, ← mul_assoc, mul_left_inj' hu0.ne', mul_add, add_right_inj, ← mul_div_assoc,
      div_eq_iff hD0.ne', one_mul]
    exact_mod_cast Iff.rfl
  rw [rneR_of_bracket F s he hu (n := N / D)]
  · simp only [hup, htie]
  · rw [hxu]
    refine mul_le_mul_of_nonneg_right ?_ hu0.le
    linarith [div_nonneg hrem0 hD0.le]
  · rw [hxu]
    refine mul_lt_mul_of_pos_right ?_ hu0
    linarith [(div_lt_one hD0).mpr hrem]

theorem div_eq_divRule (ha : unpack F a = .finite s1 e1 m1) (hb : unpack F b = .finite s2 e2 m2) :
    Datapath.div F (s1 ^^ s2) e1 m1 e2 m2 = divRule F a b := by
  have hm1 := (finiteOk_of_unpack ha).pos
  have hm2 := (finiteOk_of_unpack hb).pos
  have hm2' : (0 : ℝ) < m2 := by exact_mod_cast hm2
  unfold Datapath.div
  extract_lets l1 l2 lead e k N D n rem
  have he : roundExp F (|valR F a| / |valR F b|) = e := by
    have hm1' : (0 : ℝ) < m1 := by exact_mod_cast hm1
    rw [abs_valR ha, abs_valR hb, roundExp, mul_div_mul_comm, ← zpow_sub₀ two_ne_zero,
      log_mul_zpow (by positivity), log_div hm1 hm2]
    simp only [e, lead]
    congr 1
    ring
  have hquot : |valR F a| / |valR F b| * D = N * (2 : ℝ) ^ (e - F.p) := by
    have hexp : (2 : ℝ) ^ (e1 - F.p) * 2 ^ (-k).toNat = 2 ^ k.toNat * 2 ^ (e - F.p) * 2 ^ (e2 - F.p) := by
      rw [mul_comm, two_pow_mul_zpow, two_pow_mul_zpow, ← zpow_add₀ two_ne_zero]
      congr 1
      omega
    rw [abs_valR ha, abs_valR hb, div_mul_eq_mul_div, div_eq_iff (by positivity)]
    simp only [N, D]
    push_cast
    linear_combination (m1 * m2 : ℝ) * hexp
  rw [divRule_finite ha hb, rneR_of_quotient F _ he rfl (Nat.mul_pos hm2 (by positivity)) hquot]

/-! ### Square root from the integer root and its remainder (R144) -/

/-- The integer root is the real root's significand, and its remainder the sticky bit (R144). -/
theorem sqrt_eq_sqrtRule (ha : unpack F a = .finite false e1 m1) :
    Datapath.sqrt F e1 m1 = sqrtRule F a := by
  have hm := (finiteOk_of_unpack ha).pos
  unfold Datapath.sqrt
  extract_lets t j N M
  obtain ⟨hlo, hhi⟩ : M * M ≤ N ∧ N < (M + 1) * (M + 1) := isqrt_spec N
  have hq : (0 : ℝ) < 2 ^ ((t - j) / 2) := by positivity
  have hroot : Real.sqrt (valR F a) = Real.sqrt N * 2 ^ ((t - j) / 2) := by
    have hval : valR F a = N * (2 ^ ((t - j) / 2) * 2 ^ ((t - j) / 2)) := by
      rw [valR_of_unpack ha, signed, if_neg (by decide), ← zpow_add₀ two_ne_zero, Nat.cast_mul, Nat.cast_pow,
        Nat.cast_ofNat, mul_assoc, two_pow_mul_zpow]
      congr 2
      omega
    rw [hval, Real.sqrt_mul (Nat.cast_nonneg N), Real.sqrt_mul_self hq.le]
  have hbig : 2 ^ (F.p + 1) ≤ M := by
    have hN : 2 ^ (F.p + 2) * 2 ^ (F.p + 2) ≤ N := by
      rw [← pow_add]
      exact (Nat.pow_le_pow_right two_pos (by omega)).trans (Nat.le_mul_of_pos_left _ hm)
    have : 2 ^ (F.p + 2) < M + 1 := Nat.mul_self_lt_mul_self_iff.mp (hN.trans_lt hhi)
    rw [pow_succ] at this
    omega
  have hM : (M : ℝ) ≤ Real.sqrt N := Real.le_sqrt_of_sq_le (by rw [sq]; exact_mod_cast hlo)
  have hM' : Real.sqrt N < M + 1 := by
    rw [Real.sqrt_lt' (by positivity), sq]
    exact_mod_cast hhi
  have hst : (M * M != N) = true ↔ (M : ℝ) < Real.sqrt N := by
    rw [bne_iff_ne, Real.lt_sqrt (Nat.cast_nonneg M), sq, ← Nat.cast_mul, Nat.cast_lt]
    exact ⟨fun h => lt_of_le_of_ne hlo h, ne_of_lt⟩
  rw [sqrtRule_finite ha, hroot, round_eq_rneR (lt_of_lt_of_le (by positivity) hbig)
    (mul_le_mul_of_nonneg_right hM hq.le) (mul_lt_mul_of_pos_right hM' hq) (by rw [hst, mul_lt_mul_iff_left₀ hq])
    fun _ => hbig]

end Operands

/-! ### The statements -/

/-- Settles O56: the operand of the larger exponent comes first. -/
theorem additionDatapath : Obligations.AdditionDatapath := by
  intro F a b s1 s2 e1 e2 m1 m2 ha hb
  rw [addRule_finite ha hb, Datapath.add]
  split
  case isTrue he => exact addOrdered_eq ha hb he
  case isFalse he => rw [addOrdered_eq hb ha (by omega), add_comm]

/-- Settles O57, from the three datapaths' own lemmas. -/
theorem productAndQuotientDatapaths : Obligations.ProductAndQuotientDatapaths :=
  fun _ _ _ _ _ _ _ _ _ _ _ _ _ ha hb hc => ⟨mul_eq_mulRule ha hb, div_eq_divRule ha hb, fma_eq_fmaRule ha hb hc⟩

/-- Settles O58: the root's remainder is the sticky bit of a bracket of the real root. -/
theorem squareRootDatapath : Obligations.SquareRootDatapath := fun _ _ _ _ => sqrt_eq_sqrtRule

end Sys2Proof
end

section
/-! SUPPORT. The bits that FNEG, FABS and FCOPYSIGN write (R180 to R182), and the values that FEQ, FLT, FLE and
FNE compare (R183 to R187). -/

namespace Sys2Proof

open Sys2Proof.Machine Sys2Proof.Safety

/-! ### Each bit of a sign command's result -/

theorem getLsbD_operand (s : State) (F : Fmt) (i : RegIdx) (k : Nat) :
    (s.operand F i).getLsbD k = (decide (k < F.width) && (s.reg i).getLsbD k) :=
  getLsbD_lowBits F.width_le _ k

theorem getLsbD_operand_sign (s : State) (F : Fmt) (i : RegIdx) :
    (s.operand F i).getLsbD (F.width - 1) = (s.reg i).getLsbD (F.width - 1) := by
  have hwidth := F.width_eq
  rw [getLsbD_operand, decide_eq_true (by omega), Bool.true_and]

theorem getLsbD_flipSign (F : Fmt) (b : Reg) (k : Nat) :
    (flipSign F b).getLsbD k = (b.getLsbD k ^^ decide (k = F.width - 1)) := by
  rw [flipSign, BitVec.getLsbD_xor, getLsbD_signMask]

theorem getLsbD_absF (F : Fmt) (a : Reg) (k : Nat) :
    (absF F a).getLsbD k = (decide (k < F.width - 1) && a.getLsbD k) :=
  getLsbD_lowBits ((Nat.sub_le _ _).trans F.width_le) a k

/-- What is written when bits W-2..0 of a result are an operand's and bit W-1 is `sign`'s (R14, R180, R182). -/
theorem getLsbD_lowBits_of_fields {F : Fmt} {s : State} {i : RegIdx} {r : Reg} {sign : Nat → Bool}
    (hlow : ∀ k < F.width - 1, r.getLsbD k = (s.operand F i).getLsbD k)
    (hsign : r.getLsbD (F.width - 1) = sign (F.width - 1)) (k : Nat) :
    (lowBits F.width r).getLsbD k =
      if k < F.width - 1 then (s.reg i).getLsbD k else (decide (k = F.width - 1) && sign k) := by
  have hwidth := F.width_eq
  rw [getLsbD_lowBits F.width_le]
  rcases Nat.lt_trichotomy k (F.width - 1) with h | rfl | h
  · have hk : k < F.width := by omega
    simp [h, hk, hlow k h, getLsbD_operand]
  · have hk : F.width - 1 < F.width := by omega
    simp [hk, hsign]
  · have hk : ¬k < F.width := by omega
    simp [hk, h.not_gt, h.ne']

/-! ### Equality -/

theorem eqF_iff (F : Fmt) (a b : Reg) : eqF F a b = true ↔ Ordered F a b ∧ valE F a = valE F b := by
  by_cases h : Ordered F a b
  · simp [eqF, compareVals_of_ordered h, h]
  · simp [eqF, compareVals_of_not_ordered h, h]

/-- FNE writes 1 exactly where FEQ writes 0, so for an unordered pair too (R187). -/
theorem neF_iff (F : Fmt) (a b : Reg) : neF F a b = true ↔ ¬(Ordered F a b ∧ valE F a = valE F b) := by
  rw [← eqF_iff, eqF, neF, bne, Bool.not_eq_true', Bool.not_eq_true]

/-! ### The statements -/

/-- Settles O26, bit by bit: FNEG and FCOPYSIGN replace the sign bit of the first operand, FABS clears it. -/
theorem signCommandsWorkOnBits : Obligations.SignCommandsWorkOnBits := by
  intro F rd rs1 rs2 s W a b
  refine ⟨hasEncoding_row (Laws.Encoding.fneg F rd rs1), ⟨_, rfl, ?_⟩,
    hasEncoding_row (Laws.Encoding.fabs F rd rs1), ⟨_, rfl, ?_⟩,
    hasEncoding_row (Laws.Encoding.fcopysign F rd rs1 rs2), ⟨_, rfl, ?_⟩⟩
  · refine getLsbD_lowBits_of_fields (fun k hk => ?_) ?_
    · simp [negF, getLsbD_flipSign, hk.ne]
    · simp [negF, getLsbD_flipSign, getLsbD_operand_sign, a]
  · intro k
    rw [getLsbD_lowBits F.width_le, getLsbD_absF, getLsbD_operand]
    by_cases hk : k < F.width - 1
    · have hk' : k < F.width := by omega
      simp [W, a, hk, hk']
    · simp [W, hk]
  · refine getLsbD_lowBits_of_fields (fun k hk => ?_) ?_
    · rw [getLsbD_copysignF, if_pos hk]
    · simp [getLsbD_copysignF, getLsbD_operand_sign, b]

/-- Settles O27, from the condition under which each command's Boolean is true. -/
theorem comparisonResults : Obligations.ComparisonResults := by
  intro F rd rs1 rs2 s a b eq lt le
  obtain ⟨heq1, heq0⟩ := compareF_of_iff (rd := rd) (eqF_iff F a b)
  obtain ⟨hlt1, hlt0⟩ := compareF_of_iff (rd := rd) (ltF_iff F a b)
  obtain ⟨hle1, hle0⟩ := compareF_of_iff (rd := rd) (leF_iff F a b)
  obtain ⟨hne1, hne0⟩ := compareF_of_iff (rd := rd) (neF_iff F a b)
  exact ⟨hasEncoding_row (Laws.Encoding.feq F rd rs1 rs2), heq1, heq0,
    hasEncoding_row (Laws.Encoding.flt F rd rs1 rs2), hlt1, hlt0,
    hasEncoding_row (Laws.Encoding.fle F rd rs1 rs2), hle1, hle0,
    hasEncoding_row (Laws.Encoding.fne F rd rs1 rs2), hne1, fun heq => hne0 (not_not.mpr heq)⟩

end Sys2Proof
end

section
/-! SUPPORT. Rounding to an integral value: the meaning's integer functions are the rules' (R200 to R206), their
results are representable, so that rounding again changes nothing (R208), and the mask-and-bias datapath finds the
same integer (R207). -/

namespace Sys2Proof

open Sys2Proof.Machine Sys2Proof.Safety

/-! ### The integer that a mode names -/

/-- n is the integer that the rule of a rounding mode names for x (R201 to R205). -/
def RoundsTo : Datapath.Mode → ℝ → ℤ → Prop
  | .trunc, x, n => n = truncR x
  | .floor, x, n => n = ⌊x⌋
  | .ceil, x, n => n = ⌈x⌉
  | .round, x, n => n = roundAwayR x
  | .rint, x, n => NearestEven x n

/-- The integer function that the meaning of a mode's command runs. -/
def modeQ : Datapath.Mode → ℚ → ℤ
  | .trunc => truncQ
  | .floor => Rat.floor
  | .ceil => Rat.ceil
  | .round => roundAwayQ
  | .rint => roundEvenQ

theorem truncQ_eq_truncR (x : ℚ) : truncQ x = truncR x := by
  simp only [truncQ, truncR, Rat.cast_lt_zero]
  split
  case isTrue h => rw [abs_of_neg (Rat.cast_lt_zero.mpr h), ← Rat.cast_neg, Rat.floor_cast]; rfl
  case isFalse h => rw [abs_of_nonneg (Rat.cast_nonneg.mpr (not_lt.mp h)), Rat.floor_cast]; rfl

theorem roundAwayQ_eq_roundAwayR (x : ℚ) : roundAwayQ x = roundAwayR x := by
  have hfloor (y : ℚ) : (y + 1 / 2).floor = ⌊(y : ℝ) + 1 / 2⌋ := by
    rw [show (y : ℝ) + 1 / 2 = (y + 1 / 2 : ℚ) by push_cast; rfl, Rat.floor_cast]
    rfl
  simp only [roundAwayQ, roundAwayR, Rat.cast_lt_zero, hfloor]
  split
  case isTrue h => rw [abs_of_neg (Rat.cast_lt_zero.mpr h), Rat.cast_neg]
  case isFalse h => rw [abs_of_nonneg (Rat.cast_nonneg.mpr (not_lt.mp h))]

theorem nearestEven_roundEvenQ (x : ℚ) : NearestEven x (roundEvenQ x) := by
  have hlo : ((x.floor : ℚ) : ℝ) ≤ x := Rat.cast_le.mpr (Int.floor_le x)
  have hhi : (x : ℝ) < (x.floor + 1 : ℚ) := Rat.cast_lt.mpr (Int.lt_floor_add_one x)
  have hup : x - x.floor > 1 / 2 ↔ (x : ℝ) - x.floor > 1 / 2 := by
    rw [gt_iff_lt, gt_iff_lt, ← Rat.cast_lt (K := ℝ)]; push_cast; rfl
  have htie : x - x.floor = 1 / 2 ↔ (x : ℝ) - x.floor = 1 / 2 := by
    rw [← Rat.cast_inj (α := ℝ)]; push_cast; rfl
  push_cast at hlo hhi
  simp only [roundEvenQ, NearestEven, hup, htie]
  split
  case isTrue h =>
    have hge : (x : ℝ) - x.floor ≥ 1 / 2 := h.elim le_of_lt fun h => h.1.ge
    push_cast
    rw [abs_of_neg (by linarith)]
    refine ⟨by linarith, fun heq => ?_⟩
    rcases h with h | ⟨-, h⟩
    · linarith
    · omega
  case isFalse h =>
    obtain ⟨hle, heven⟩ := not_or.mp h
    rw [abs_of_nonneg (by linarith)]
    exact ⟨not_lt.mp hle, fun heq => by have := not_and.mp heven heq; omega⟩

/-- The meaning's function gives the integer that the rule names. -/
theorem roundsTo_modeQ (mode : Datapath.Mode) (x : ℚ) : RoundsTo mode x (modeQ mode x) := by
  cases mode with
  | trunc => exact truncQ_eq_truncR x
  | floor => exact (Rat.floor_cast (α := ℝ) x).symm
  | ceil => exact (Rat.ceil_eq_neg_floor_neg x).trans (Rat.ceil_cast (α := ℝ) x).symm
  | round => exact roundAwayQ_eq_roundAwayR x
  | rint => exact nearestEven_roundEvenQ x

/-! ### Signs -/

/-- An integer with a sign. -/
def signedInt (s : Bool) (n : ℤ) : ℤ := if s then -n else n

theorem cast_signedInt (s : Bool) (n : ℤ) : ((signedInt s n : ℤ) : ℝ) = signed s n := by
  cases s <;> simp [signedInt, signed]

theorem signedInt_eq_zero {s : Bool} {n : ℤ} : signedInt s n = 0 ↔ n = 0 := by
  cases s <;> simp [signedInt]

theorem signedInt_signedInt (s : Bool) (n : ℤ) : signedInt s (signedInt s n) = n := by
  cases s <;> simp [signedInt]

theorem signed_neg_iff (s : Bool) {z : ℝ} (hz : 0 < z) : signed s z < 0 ↔ s = true := by
  cases s <;> simp [signed, hz, hz.le]

theorem floor_signed (s : Bool) (z : ℝ) : ⌊signed s z⌋ = signedInt s (if s then ⌈z⌉ else ⌊z⌋) := by
  cases s <;> simp [signed, signedInt, Int.floor_neg]

theorem ceil_signed (s : Bool) (z : ℝ) : ⌈signed s z⌉ = signedInt s (if s then ⌊z⌋ else ⌈z⌉) := by
  cases s <;> simp [signed, signedInt, Int.ceil_neg]

theorem truncR_signed (s : Bool) {z : ℝ} (hz : 0 < z) : truncR (signed s z) = signedInt s ⌊z⌋ := by
  simp only [truncR, signed_neg_iff s hz, abs_signed s hz, signedInt]

theorem roundAwayR_signed (s : Bool) {z : ℝ} (hz : 0 < z) :
    roundAwayR (signed s z) = signedInt s ⌊z + 1 / 2⌋ := by
  simp only [roundAwayR, signed_neg_iff s hz, abs_signed s hz, signedInt]

theorem NearestEven.of_signed {s : Bool} {z : ℝ} {n : ℤ} (h : NearestEven (signed s z) n) :
    NearestEven z (signedInt s n) := by
  obtain ⟨hnear, heven⟩ := h
  cases s
  case false => exact ⟨hnear, heven⟩
  case true =>
    have habs : |z - (signedInt true n : ℤ)| = |signed true z - n| := by
      rw [cast_signedInt, ← abs_neg]
      simp only [signed, if_true]
      congr 1
      ring
    exact ⟨habs ▸ hnear, fun htie => by have := heven (habs ▸ htie); simp only [signedInt]; omega⟩

/-! ### A mode's integer is near -/

/-- Giving an integer the sign of x leaves its distance from x as it is from |x|. -/
theorem abs_ite_neg_sub (x : ℝ) (k : ℤ) : |((if x < 0 then -k else k : ℤ) : ℝ) - x| = |(k : ℝ) - (|x|)| := by
  split
  case isTrue h => rw [abs_of_neg h, ← abs_neg]; congr 1; push_cast; ring
  case isFalse h => rw [abs_of_nonneg (not_lt.mp h)]

theorem abs_truncR_sub_lt (x : ℝ) : |truncR x - x| < 1 := by
  rw [truncR, abs_ite_neg_sub, abs_lt]
  constructor <;> linarith [Int.floor_le |x|, Int.lt_floor_add_one |x|]

theorem abs_roundAwayR_sub_lt (x : ℝ) : |roundAwayR x - x| < 1 := by
  rw [roundAwayR, abs_ite_neg_sub, abs_lt]
  constructor <;> linarith [Int.floor_le (|x| + 1 / 2), Int.lt_floor_add_one (|x| + 1 / 2)]

/-- Every mode's integer is less than 1 away, so it is the number itself if that is an integer. -/
theorem RoundsTo.near {mode : Datapath.Mode} {x : ℝ} {n : ℤ} (h : RoundsTo mode x n) : |n - x| < 1 := by
  cases mode with
  | trunc => exact h ▸ abs_truncR_sub_lt x
  | floor =>
    rw [show n = _ from h, abs_lt]
    constructor <;> linarith [Int.floor_le x, Int.lt_floor_add_one x]
  | ceil =>
    rw [show n = _ from h, abs_lt]
    constructor <;> linarith [Int.le_ceil x, Int.ceil_lt_add_one x]
  | round => exact h ▸ abs_roundAwayR_sub_lt x
  | rint => rw [abs_sub_comm]; exact h.1.trans_lt (by norm_num)

theorem RoundsTo.eq_of_int {mode : Datapath.Mode} {n k : ℤ} (h : RoundsTo mode k n) : n = k := by
  have hnear := h.near
  rw [← Int.cast_sub, ← Int.cast_abs, ← Int.cast_one, Int.cast_lt, Int.abs_lt_one_iff] at hnear
  omega

/-! ### What the commands write -/

/-- The meaning on exact rationals is the rule over the real numbers (R200). -/
theorem roundIntF_eq_roundRule (ri : ℚ → ℤ) (F : Fmt) (a : Reg) :
    roundIntF ri F a = roundRule F a (ri (valF F a)) := by
  cases ha : unpack F a
  case finite s e m =>
    have hround (hy : ri (valF F a) ≠ 0) :
        rneSigned F (ri (valF F a)) = rneSignedR F (ri (valF F a) : ℤ) :=
      rneSigned_eq_rneSignedR F (Int.cast_ne_zero.mpr hy)
    by_cases hy : ri (valF F a) = 0
    · simp [roundIntF, roundRule, cls, ha, hy, signBit_of_unpack ha, Unpacked.sign]
    · simp [roundIntF, roundRule, cls, ha, hy, hround]
  all_goals simp [roundIntF, roundRule, cls, ha, signBit_of_unpack ha, Unpacked.sign]

theorem roundIntF_lt (ri : ℚ → ℤ) {F : Fmt} {a : Reg} (ha : a.toNat < 2 ^ F.width) :
    (roundIntF ri F a).toNat < 2 ^ F.width := by
  unfold roundIntF
  split
  case h_1 => exact nanF_lt F _
  case h_2 | h_3 => exact ha
  case h_4 =>
    extract_lets y
    split
    case isTrue => exact zeroF_lt F _
    case isFalse hy =>
      have hy : (y : ℚ) ≠ 0 := Int.cast_ne_zero.mpr hy
      rw [rneSigned_eq_rneSignedR F hy]
      exact rneSignedR_lt F (Rat.cast_ne_zero.mpr hy)

/-- A command of the rounding family writes the rule's result for the integer that its mode names. -/
theorem unaryF_roundIntF (mode : Datapath.Mode) (F : Fmt) (rd rs1 : RegIdx) (s : State) :
    ∃ n, RoundsTo mode (valR F (s.operand F rs1)) n ∧
      unaryF (roundIntF (modeQ mode)) F rd rs1 s = .next (s.retire rd (roundRule F (s.operand F rs1) n)) := by
  refine ⟨_, roundsTo_modeQ mode (valF F (s.operand F rs1)), ?_⟩
  rw [← roundIntF_eq_roundRule]
  exact wrF_of_lt (roundIntF_lt _ (operand_lt s F rs1))

/-- Settles O28: each command's mode names the integer of its rule. -/
theorem roundingFamilyResults : Obligations.RoundingFamilyResults := by
  intro F rd rs1 s a x
  obtain ⟨_, rfl, htrunc⟩ := unaryF_roundIntF .trunc F rd rs1 s
  obtain ⟨_, rfl, hfloor⟩ := unaryF_roundIntF .floor F rd rs1 s
  obtain ⟨_, rfl, hceil⟩ := unaryF_roundIntF .ceil F rd rs1 s
  obtain ⟨_, rfl, hround⟩ := unaryF_roundIntF .round F rd rs1 s
  exact ⟨hasEncoding_row (Laws.Encoding.ftrunc F rd rs1), htrunc,
    hasEncoding_row (Laws.Encoding.ffloor F rd rs1), hfloor,
    hasEncoding_row (Laws.Encoding.fceil F rd rs1), hceil,
    hasEncoding_row (Laws.Encoding.fround F rd rs1), hround,
    hasEncoding_row (Laws.Encoding.frint F rd rs1), unaryF_roundIntF .rint F rd rs1 s⟩

/-! ### FISINT -/

theorem isIntQ_iff (x : ℚ) : isIntQ x = true ↔ ∃ n : ℤ, (x : ℝ) = n := by
  rw [isIntQ, beq_iff_eq, Rat.den_eq_one_iff]
  constructor
  · intro h
    exact ⟨x.num, by rw [← h]; simp⟩
  · rintro ⟨n, hn⟩
    obtain rfl : x = n := by exact_mod_cast hn
    simp

theorem isIntF_iff (F : Fmt) (a : Reg) : isIntF F a = true ↔ cls F a = .zero ∨ IsInteger F a := by
  cases ha : unpack F a
  case finite s e m => simpa [isIntF, IsInteger, cls, ha, valR] using isIntQ_iff (valF F a)
  all_goals simp [isIntF, IsInteger, cls, ha]

/-- Settles O29: the Boolean is true exactly for zeros and integers. -/
theorem fisintResult : Obligations.FisintResult := by
  intro F rd rs1 s a
  refine ⟨hasEncoding_row (Laws.Encoding.fisint F rd rs1), fun h => ?_, fun h => ?_⟩
  · change wrBool rd (isIntF F a) s = _
    rw [(isIntF_iff F a).mpr h]
    rfl
  · change wrBool rd (isIntF F a) s = _
    rw [Bool.eq_false_iff.mpr (mt (isIntF_iff F a).mp h)]
    rfl

/-! ### Mantissas over a power of two -/

theorem mul_zpow_of_nonneg (m : ℕ) {q : ℤ} (hq : 0 ≤ q) : (m : ℝ) * 2 ^ q = (m * 2 ^ q.toNat : ℕ) := by
  lift q to ℕ using hq
  simp

theorem mul_zpow_of_nonpos (m : ℕ) {q : ℤ} (hq : q ≤ 0) : (m : ℝ) * 2 ^ q = m / 2 ^ (-q).toNat := by
  obtain ⟨k, rfl⟩ := Int.exists_eq_neg_ofNat hq
  simp [div_eq_mul_inv]

/-! ### Representable numbers -/

/-- x is the value of a finite pattern of F (R124). -/
def Representable (F : Fmt) (x : ℝ) : Prop :=
  ∃ s e m, FiniteOk F e m ∧ x = signed s (m * (2 : ℝ) ^ (e - F.p))

theorem representable_valR {F : Fmt} {a : Reg} {s : Bool} {e : ℤ} {m : ℕ} (h : unpack F a = .finite s e m) :
    Representable F (valR F a) := ⟨s, e, m, finiteOk_of_unpack h, valR_of_unpack h⟩

/-- A mantissa that fits is moved up until its implicit bit is set or the least exponent is reached (R124). -/
theorem exists_finiteOk {F : Fmt} {m : ℕ} {q : ℤ} (hm : 0 < m) (hlt : m < 2 ^ (F.p + 1)) (hlo : F.emin ≤ q + F.p)
    (hhi : (Nat.log2 m : ℤ) + q ≤ F.emax) :
    ∃ e m', FiniteOk F e m' ∧ (m' : ℝ) * 2 ^ (e - F.p) = m * 2 ^ q := by
  have hlog : Nat.log2 m < F.p + 1 := (Nat.log2_lt hm.ne').mpr hlt
  obtain ⟨k, hk⟩ : ∃ k : ℕ, (k : ℤ) = min ((F.p : ℤ) - Nat.log2 m) (q + F.p - F.emin) :=
    ⟨_, Int.toNat_of_nonneg (by omega)⟩
  have hfit : m * 2 ^ k < 2 ^ (F.p + 1) := by
    calc m * 2 ^ k < 2 ^ (Nat.log2 m + 1) * 2 ^ k := Nat.mul_lt_mul_of_pos_right Nat.lt_log2_self (by positivity)
      _ = 2 ^ (Nat.log2 m + 1 + k) := (pow_add ..).symm
      _ ≤ 2 ^ (F.p + 1) := Nat.pow_le_pow_right two_pos (by omega)
  have hemax : F.emin ≤ F.emax := by have := F.bias_pos; rw [F.emin_eq, F.emax_eq]; omega
  refine ⟨q + F.p - k, m * 2 ^ k, ⟨Nat.mul_pos hm (by positivity), hfit, by omega, by omega, fun hsub => ?_⟩, ?_⟩
  · -- the implicit bit is clear, so it was the exponent that stopped the move
    by_contra hne
    have hk' : Nat.log2 m + k = F.p := by omega
    have : 2 ^ F.p ≤ m * 2 ^ k := by
      rw [← hk', pow_add]
      exact Nat.mul_le_mul_right _ (Nat.log2_self_le hm.ne')
    omega
  · rw [Nat.cast_mul, Nat.cast_pow, Nat.cast_ofNat, mul_assoc, two_pow_mul_zpow]
    congr 2
    omega

theorem representable_of_fits {F : Fmt} (s : Bool) {m : ℕ} {q : ℤ} (hm : 0 < m) (hlt : m < 2 ^ (F.p + 1))
    (hlo : F.emin ≤ q + F.p) (hhi : (Nat.log2 m : ℤ) + q ≤ F.emax) :
    Representable F (signed s (m * (2 : ℝ) ^ q)) := by
  obtain ⟨e, m', hok, hval⟩ := exists_finiteOk hm hlt hlo hhi
  exact ⟨s, e, m', hok, by rw [hval]⟩

theorem p_le_emax (F : Fmt) : (F.p : ℤ) ≤ F.emax := by cases F <;> decide

/-- The integers up to 2^p in magnitude, 0 aside, are representable. -/
theorem representable_int {F : Fmt} {n : ℤ} (hn : n ≠ 0) (hle : |n| ≤ 2 ^ F.p) : Representable F n := by
  have hpos : 0 < n.natAbs := Int.natAbs_pos.mpr hn
  have hlt : n.natAbs < 2 ^ (F.p + 1) := by
    have h : (n.natAbs : ℤ) ≤ (2 ^ F.p : ℕ) := by rw [Int.natCast_natAbs]; exact_mod_cast hle
    have : 0 < 2 ^ F.p := by positivity
    rw [pow_succ]
    omega
  have hlog : Nat.log2 n.natAbs < F.p + 1 := (Nat.log2_lt hpos.ne').mpr hlt
  have hb := F.bias_pos
  have hp := p_le_emax F
  have hval : (n : ℝ) = signed (decide (n < 0)) (n.natAbs * (2 : ℝ) ^ (0 : ℤ)) := by
    rw [zpow_zero, mul_one, ← Int.cast_natCast, ← cast_signedInt]
    congr 1
    by_cases h : n < 0
    · simp [signedInt, h, abs_of_neg h]
    · simp [signedInt, h, abs_of_nonneg (not_lt.mp h)]
  rw [hval]
  exact representable_of_fits _ hpos hlt (by rw [F.emin_eq]; omega) (by omega)

/-- The value of a finite pattern rounds to it (R130). -/
theorem rneR_of_finiteOk (F : Fmt) (s : Bool) {e : ℤ} {m : ℕ} (h : FiniteOk F e m) :
    rneR F s (m * (2 : ℝ) ^ (e - F.p)) = packFinite F s e m :=
  rneR_near_finite F s h rfl (by rw [sub_self, abs_zero]; positivity)

/-- A representable number rounds to a finite pattern of that very value (R130). -/
theorem unpack_rneSignedR {F : Fmt} {x : ℝ} (hx : Representable F x) :
    ∃ s e m, unpack F (rneSignedR F x) = .finite s e m ∧ valR F (rneSignedR F x) = x := by
  obtain ⟨s, e, m, hok, rfl⟩ := hx
  have hm : (0 : ℝ) < m := by exact_mod_cast hok.pos
  have hu : unpack F (rneSignedR F (signed s (m * (2 : ℝ) ^ (e - F.p)))) = .finite s e m := by
    rw [rneSignedR_signed F s (by positivity), rneR_of_finiteOk F s hok, unpack_packFinite F s hok]
  exact ⟨s, e, m, hu, valR_of_unpack hu⟩

/-! ### Rounding twice (R208) -/

/-- A finite value whose last place lies below the binary point is less than 2^p, and any other is an integer. -/
theorem valR_int_or_lt {F : Fmt} {a : Reg} {s : Bool} {e : ℤ} {m : ℕ} (ha : unpack F a = .finite s e m) :
    (∃ k : ℤ, valR F a = k) ∨ |valR F a| < 2 ^ F.p := by
  by_cases he : F.p ≤ e
  · left
    refine ⟨signedInt s (m * 2 ^ (e - F.p).toNat : ℕ), ?_⟩
    rw [valR_of_unpack ha, mul_zpow_of_nonneg m (by omega), cast_signedInt, Int.cast_natCast]
  · right
    rw [abs_valR ha]
    calc m * (2 : ℝ) ^ (e - F.p)
        < 2 ^ (F.p + 1) * 2 ^ (e - F.p) :=
          mul_lt_mul_of_pos_right (by exact_mod_cast (finiteOk_of_unpack ha).lt) (by positivity)
      _ = 2 ^ (e + 1) := by rw [two_pow_mul_zpow]; congr 1; push_cast; ring
      _ ≤ 2 ^ (F.p : ℤ) := zpow_le_zpow_right₀ one_le_two (by omega)
      _ = 2 ^ F.p := zpow_natCast _ _

/-- The integer that a mode names for a finite value is 0 or representable: large values are integers already. -/
theorem RoundsTo.representable {mode : Datapath.Mode} {F : Fmt} {a : Reg} {s : Bool} {e : ℤ} {m : ℕ} {n : ℤ}
    (ha : unpack F a = .finite s e m) (h : RoundsTo mode (valR F a) n) (hn : n ≠ 0) : Representable F n := by
  rcases valR_int_or_lt ha with ⟨k, hk⟩ | hlt
  · obtain rfl : n = k := (hk ▸ h).eq_of_int
    exact hk ▸ representable_valR ha
  · refine representable_int hn (Int.lt_add_one_iff.mp ?_)
    have htri := abs_sub_abs_le_abs_sub (n : ℝ) (valR F a)
    have hnear := h.near
    have : |(n : ℝ)| < 2 ^ F.p + 1 := by linarith
    exact_mod_cast this

theorem roundIntF_of_finite {ri : ℚ → ℤ} {F : Fmt} {a : Reg} {s : Bool} {e : ℤ} {m : ℕ}
    (ha : unpack F a = .finite s e m) :
    roundIntF ri F a = if ri (valF F a) = 0 then zeroF F s else rneSigned F (ri (valF F a)) := by
  rw [roundIntF, ha]

/-- Rounding a rounded value gives it again: its value is the integer named, and that integer's own (R208). -/
theorem roundIntF_roundIntF (mode : Datapath.Mode) (F : Fmt) (a : Reg) :
    roundIntF (modeQ mode) F (roundIntF (modeQ mode) F a) = roundIntF (modeQ mode) F a := by
  cases ha : unpack F a
  case nan s => simp [roundIntF, ha]
  case inf s => simp [roundIntF, ha]
  case zero s => simp [roundIntF, ha]
  case finite s e m =>
    rw [roundIntF_of_finite ha]
    split
    case isTrue => simp [roundIntF]
    case isFalse hn =>
      have hrep := RoundsTo.representable ha (roundsTo_modeQ mode (valF F a)) hn
      obtain ⟨t, f, k, hu, hval⟩ := unpack_rneSignedR hrep
      generalize modeQ mode (valF F a) = n at *
      rw [← Rat.cast_intCast, ← rneSigned_eq_rneSignedR F (Int.cast_ne_zero.mpr hn)] at hu hval
      have hagain : modeQ mode (valF F (rneSigned F n)) = n := by
        have h := roundsTo_modeQ mode (valF F (rneSigned F n))
        rw [← valR_eq_cast, hval, Rat.cast_intCast] at h
        exact h.eq_of_int
      rw [roundIntF_of_finite hu, hagain, if_neg hn]

/-- The five commands of the rounding family run their mode's integer function. -/
theorem exec_roundingFamily {c : Fmt → RegIdx → RegIdx → Instr}
    (hc : c ∈ [Instr.ftrunc, Instr.ffloor, Instr.fceil, Instr.fround, Instr.frint]) :
    ∃ mode, ∀ F rd rs1 s, exec (c F rd rs1) s = unaryF (roundIntF (modeQ mode)) F rd rs1 s := by
  simp only [List.mem_cons, List.not_mem_nil, or_false] at hc
  rcases hc with rfl | rfl | rfl | rfl | rfl
  exacts [⟨.trunc, fun _ _ _ _ => rfl⟩, ⟨.floor, fun _ _ _ _ => rfl⟩, ⟨.ceil, fun _ _ _ _ => rfl⟩,
    ⟨.round, fun _ _ _ _ => rfl⟩, ⟨.rint, fun _ _ _ _ => rfl⟩]

/-- Settles O34: the second command reads the first one's result, and rounding that changes nothing. -/
theorem roundingIsIdempotent : Obligations.RoundingIsIdempotent := by
  intro F rd rd2 rs1 s c hc
  obtain ⟨mode, hexec⟩ := exec_roundingFamily hc
  have hlt := roundIntF_lt (modeQ mode) (operand_lt s F rs1)
  refine ⟨_, _, (hexec F rd rs1 s).trans (wrF_of_lt hlt), hexec F rd2 rd _, ?_⟩
  rw [State.reg_retire_self, State.reg_retire_self, operand_retire_self hlt, roundIntF_roundIntF,
    lowBits_of_lt F.width_le hlt]

/-! ### The mask-and-bias datapath (R207) -/

section Mask
variable {m f : ℕ}

/-- The integer that the datapath keeps: the mantissa with its bias, f bits dropped. -/
def maskedInt (mode : Datapath.Mode) (s : Bool) (m f : ℕ) : ℕ := (m + Datapath.bias mode s m f) / 2 ^ f

/-- Dropping f bits is the floor of a quotient by 2^f. -/
theorem floor_div_two_pow (m f : ℕ) : ⌊(m : ℝ) / 2 ^ f⌋ = (m / 2 ^ f : ℕ) := by
  have h : ⌊(m : ℝ) / (2 ^ f : ℕ)⌋₊ = m / 2 ^ f := Nat.floor_div_eq_div m (2 ^ f)
  rw [← h, Int.natCast_floor_eq_floor (by positivity)]
  push_cast
  rfl

/-- With all bits below the point set as a bias, dropping them rounds up. -/
theorem ceil_div_two_pow (m f : ℕ) : ⌈(m : ℝ) / 2 ^ f⌉ = ((m + (2 ^ f - 1)) / 2 ^ f : ℕ) := by
  have hD : 0 < 2 ^ f := by positivity
  have hdiv := Nat.div_add_mod (m + (2 ^ f - 1)) (2 ^ f)
  have hmod := Nat.mod_lt (m + (2 ^ f - 1)) hD
  have hlo : 2 ^ f * ((m + (2 ^ f - 1)) / 2 ^ f) < m + 2 ^ f := by omega
  have hhi : m ≤ 2 ^ f * ((m + (2 ^ f - 1)) / 2 ^ f) := by omega
  have hlo' : (2 : ℝ) ^ f * ((m + (2 ^ f - 1)) / 2 ^ f : ℕ) < m + 2 ^ f := by exact_mod_cast hlo
  have hhi' : (m : ℝ) ≤ 2 ^ f * ((m + (2 ^ f - 1)) / 2 ^ f : ℕ) := by exact_mod_cast hhi
  rw [Int.ceil_eq_iff, Int.cast_natCast, lt_div_iff₀ (by positivity), div_le_iff₀ (by positivity)]
  constructor <;> linarith

/-- Half of 2^f as a bias rounds to the nearest integer, up in a tie. -/
theorem floor_div_two_pow_add_half (hf : 0 < f) (m : ℕ) :
    ⌊(m : ℝ) / 2 ^ f + 1 / 2⌋ = ((m + 2 ^ (f - 1)) / 2 ^ f : ℕ) := by
  obtain ⟨k, rfl⟩ : ∃ k, f = k + 1 := Nat.exists_eq_succ_of_ne_zero hf.ne'
  rw [← floor_div_two_pow, Nat.add_sub_cancel]
  congr 1
  push_cast
  rw [pow_succ]
  field_simp

/-- Nearness to n, in units of half of 2^(k+1). -/
theorem nearestEven_div_two_pow {k : ℕ} {n : ℤ} :
    NearestEven ((m : ℝ) / 2 ^ (k + 1)) n ↔
      |(m : ℤ) - n * 2 ^ (k + 1)| ≤ 2 ^ k ∧ (|(m : ℤ) - n * 2 ^ (k + 1)| = 2 ^ k → n % 2 = 0) := by
  have hD : (0 : ℝ) < 2 ^ (k + 1) := by positivity
  have hdist : |(m : ℝ) / 2 ^ (k + 1) - n| = (|(m : ℤ) - n * 2 ^ (k + 1)| : ℤ) / 2 ^ (k + 1) := by
    rw [div_sub' hD.ne', abs_div, abs_of_pos hD]
    push_cast
    rw [mul_comm]
  have hhalf : (1 : ℝ) / 2 = (2 ^ k : ℤ) / 2 ^ (k + 1) := by
    push_cast
    rw [pow_succ]
    field_simp
  rw [NearestEven, hdist, hhalf, div_le_div_iff_of_pos_right hD, div_left_inj' hD.ne', Int.cast_le, Int.cast_inj]

/-- The bias of FRINT rounds to the nearest integer, the even one in a tie. -/
theorem eq_maskedInt_of_nearestEven (hf : 0 < f) {s : Bool} {n : ℤ} (h : NearestEven ((m : ℝ) / 2 ^ f) n) :
    n = maskedInt .rint s m f := by
  obtain ⟨k, rfl⟩ : ∃ k, f = k + 1 := Nat.exists_eq_succ_of_ne_zero hf.ne'
  obtain ⟨hnear, heven⟩ := nearestEven_div_two_pow.mp h
  obtain ⟨c, hc⟩ : ∃ c, 2 ^ k = c + 1 := Nat.exists_eq_succ_of_ne_zero (by positivity)
  have hcz : (2 : ℤ) ^ k = c + 1 := by exact_mod_cast hc
  have hdiv (r : ℤ) : (m : ℤ) / (2 * (c + 1)) = r ↔ r * (2 * (c + 1)) ≤ m ∧ m < r * (2 * (c + 1)) + 2 * (c + 1) :=
    Int.ediv_eq_iff_of_pos (by positivity)
  have hbit : 0 ≤ (m : ℤ) / (2 * (c + 1)) % 2 := Int.emod_nonneg _ two_ne_zero
  have hbit' : (m : ℤ) / (2 * (c + 1)) % 2 < 2 := Int.emod_lt_of_pos _ two_pos
  rw [pow_succ', hcz] at hnear heven
  simp only [maskedInt, Datapath.bias, Nat.add_sub_cancel, pow_succ', hc]
  push_cast
  rw [eq_comm, Int.ediv_eq_iff_of_pos (by positivity)]
  rcases hnear.lt_or_eq with hlt | htie
  · -- no tie: half of 2^f less 1 is enough, and no harm is done by one more
    rw [abs_lt] at hlt
    constructor <;> linarith
  · have hn := heven htie
    rcases (abs_eq (by positivity)).mp htie with hm | hm
    · -- a tie above n: the quotient is n, even, and the bias one short
      rw [(hdiv n).mpr ⟨by linarith, by linarith⟩]
      constructor <;> linarith
    · -- a tie below n: the quotient is n - 1, odd, and the bias just enough
      rw [(hdiv (n - 1)).mpr ⟨by linarith, by linarith⟩]
      have : (n - 1) % 2 = 1 := by omega
      constructor <;> linarith

/-- The datapath finds the integer that the mode names. -/
theorem RoundsTo.eq_maskedInt {mode : Datapath.Mode} {s : Bool} {n : ℤ} (hf : 0 < f) (hm : 0 < m)
    (h : RoundsTo mode (signed s ((m : ℝ) / 2 ^ f)) n) : n = signedInt s (maskedInt mode s m f) := by
  have hz : 0 < (m : ℝ) / 2 ^ f := by have : (0 : ℝ) < m := Nat.cast_pos.mpr hm; positivity
  cases mode with
  | trunc => rw [show n = _ from h, truncR_signed s hz, floor_div_two_pow]; rfl
  | floor =>
    rw [show n = _ from h, floor_signed, floor_div_two_pow, ceil_div_two_pow]
    cases s <;> rfl
  | ceil =>
    rw [show n = _ from h, ceil_signed, floor_div_two_pow, ceil_div_two_pow]
    cases s <;> rfl
  | round => rw [show n = _ from h, roundAwayR_signed s hz, floor_div_two_pow_add_half hf]; rfl
  | rint => rw [← eq_maskedInt_of_nearestEven hf h.of_signed, signedInt_signedInt]

end Mask

theorem roundRule_finite {F : Fmt} {a : Reg} {s : Bool} {e : ℤ} {m : ℕ} (ha : unpack F a = .finite s e m) (n : ℤ) :
    roundRule F a n = if n = 0 then zeroF F s else rneSignedR F n := by
  simp [roundRule, cls, ha, signBit_of_unpack ha, Unpacked.sign]

/-- With no bit below the point the value is the integer, and its pattern the result. -/
theorem packFinite_eq_roundRule {mode : Datapath.Mode} {F : Fmt} {a : Reg} {s : Bool} {e : ℤ} {m : ℕ} {n : ℤ}
    (ha : unpack F a = .finite s e m) (he : F.p ≤ e) (h : RoundsTo mode (valR F a) n) :
    packFinite F s e m = roundRule F a n := by
  have hok := finiteOk_of_unpack ha
  have hm : (0 : ℝ) < m := by exact_mod_cast hok.pos
  have hval := valR_of_unpack ha
  have hint : valR F a = (signedInt s (m * 2 ^ (e - F.p).toNat : ℕ) : ℤ) := by
    rw [hval, mul_zpow_of_nonneg m (by omega), cast_signedInt, Int.cast_natCast]
  obtain rfl := (hint ▸ h).eq_of_int
  have hne : signedInt s (m * 2 ^ (e - F.p).toNat : ℕ) ≠ 0 := by
    rw [Ne, signedInt_eq_zero, Int.natCast_eq_zero]
    exact (Nat.mul_pos hok.pos (by positivity)).ne'
  rw [roundRule_finite ha, if_neg hne, ← hint, hval, rneSignedR_signed F s (by positivity),
    rneR_of_finiteOk F s hok]

/-- A masked mantissa, of f bits below the point, is the integer above the mask. -/
theorem round_masked (F : Fmt) (s : Bool) {Q f : ℕ} {q : ℤ} (hQ : 0 < Q) (hq : q + f = 0) :
    Datapath.round F s (Q * 2 ^ f) q false = rneSignedR F (signedInt s Q : ℤ) := by
  rw [round_exact F s _ (Nat.mul_pos hQ (by positivity)), Nat.cast_mul, Nat.cast_pow, Nat.cast_ofNat, mul_assoc,
    two_pow_mul_zpow, hq, zpow_zero, mul_one, cast_signedInt, Int.cast_natCast,
    rneSignedR_signed F s (Nat.cast_pos.mpr hQ)]

/-- Adding the bias and masking gives the result for the integer that the mode names. -/
theorem roundInt_eq_roundRule {mode : Datapath.Mode} {F : Fmt} {a : Reg} {s : Bool} {e : ℤ} {m : ℕ} {n : ℤ}
    (ha : unpack F a = .finite s e m) (h : RoundsTo mode (valR F a) n) :
    Datapath.roundInt mode F s e m = roundRule F a n := by
  unfold Datapath.roundInt
  extract_lets f M
  split
  case isTrue hf => exact packFinite_eq_roundRule ha (by omega) h
  case isFalse hf =>
    rw [valR_of_unpack ha, mul_zpow_of_nonpos m (by omega), show (-(e - F.p)).toNat = f by omega] at h
    obtain rfl := h.eq_maskedInt (Nat.pos_of_ne_zero hf) (finiteOk_of_unpack ha).pos
    rw [roundRule_finite ha, show M = maskedInt mode s m f * 2 ^ f from rfl]
    by_cases hQ : maskedInt mode s m f = 0
    · rw [if_pos (by rw [hQ, zero_mul]), if_pos (by rw [hQ, signedInt_eq_zero]; rfl)]
    · have hQ' := Nat.pos_of_ne_zero hQ
      rw [if_neg (Nat.mul_pos hQ' (by positivity)).ne', if_neg (by rwa [signedInt_eq_zero, Int.natCast_eq_zero]),
        round_masked F s hQ' (by omega)]

theorem datapath_roundIntF_eq_roundRule {mode : Datapath.Mode} {F : Fmt} {a : Reg} {n : ℤ}
    (h : RoundsTo mode (valR F a) n) : Datapath.roundIntF mode F a = roundRule F a n := by
  cases ha : unpack F a
  case finite s e m => rw [Datapath.roundIntF, ha]; exact roundInt_eq_roundRule ha h
  all_goals simp [Datapath.roundIntF, roundRule, cls, ha, signBit_of_unpack ha, Unpacked.sign]

/-- Settles O59, for the integer that each mode names. -/
theorem roundingFamilyDatapath : Obligations.RoundingFamilyDatapath := fun _ _ =>
  ⟨datapath_roundIntF_eq_roundRule (mode := .trunc) rfl, datapath_roundIntF_eq_roundRule (mode := .floor) rfl,
    datapath_roundIntF_eq_roundRule (mode := .ceil) rfl, datapath_roundIntF_eq_roundRule (mode := .round) rfl,
    fun _ h => datapath_roundIntF_eq_roundRule (mode := .rint) h⟩

end Sys2Proof
end

section
/-! SUPPORT. The casts between formats and to and from integers (R210 to R213): their meanings are the rules, a cast
to a wider format and back gives the operand (R211), and shifting the mantissa gives the rules' results (R211, R214). -/

namespace Sys2Proof

open Sys2Proof.Machine Sys2Proof.Safety

/-! ### The code fields of a conversion's word (R91) -/

theorem encode_fmt (i : Instr) : (encode i).extractLsb' 8 4 = i.fields.fmt :=
  congrArg Fields.fmt (fieldsOf_word i.fields)

theorem encode_fmt2 (i : Instr) : (encode i).extractLsb' 12 4 = i.fields.fmt2 :=
  congrArg Fields.fmt2 (fieldsOf_word i.fields)

/-! ### Between formats (R210) -/

theorem castRule_finite {S : Fmt} {a : Reg} {s : Bool} {e : ℤ} {m : ℕ} (ha : unpack S a = .finite s e m) (D : Fmt) :
    castRule S D a = rneR D s |valR S a| := by
  simp [castRule, cls, ha, signBit_of_unpack ha, Unpacked.sign]

/-- FCVT.F.F's meaning is R210: the same number is rounded. -/
theorem castF_eq_castRule (S D : Fmt) (a : Reg) : castF S D a = castRule S D a := by
  cases ha : unpack S a
  case finite s e m =>
    rw [castRule_finite ha, castF, ha]
    change rne D s |valF S a| = _
    rw [rne_eq_rneR D s (abs_pos.mpr (valF_ne_zero ha)), Rat.cast_abs, valR]
  all_goals simp [castF, castRule, cls, ha, signBit_of_unpack ha, Unpacked.sign]

theorem castF_lt (S D : Fmt) (a : Reg) : (castF S D a).toNat < 2 ^ D.width := by
  unfold castF
  split
  case h_1 => exact nanF_lt D _
  case h_2 => exact infF_lt D _
  case h_3 => exact zeroF_lt D _
  case h_4 s _ _ ha =>
    have hpos := abs_pos.mpr (valF_ne_zero ha)
    rw [rne_eq_rneR D s hpos]
    exact rneR_lt D s (Rat.cast_pos.mpr hpos)

theorem exec_fcvtFF (S D : Fmt) (rd rs1 : RegIdx) (s : State) :
    exec (.fcvtFF S D rd rs1) s = .next (s.retire rd (castF S D (s.operand S rs1))) :=
  wrF_of_lt (castF_lt S D _)

/-- Settles O30: the meaning is the rule, and its result fits D. -/
theorem formatCastResult : Obligations.FormatCastResult := fun S D rd rs1 s =>
  ⟨hasEncoding_row (Laws.Encoding.fcvtFF S D rd rs1), encode_fmt _, encode_fmt2 _,
    castF_eq_castRule S D _ ▸ exec_fcvtFF S D rd rs1 s⟩

/-! ### To an integer (R212) -/

theorem truncR_valR {F : Fmt} {a : Reg} {s : Bool} {e : ℤ} {m : ℕ} (ha : unpack F a = .finite s e m) :
    truncR (valR F a) = signedInt s ⌊(m : ℝ) * 2 ^ (e - F.p)⌋ := by
  have hm : (0 : ℝ) < m := by exact_mod_cast (finiteOk_of_unpack ha).pos
  rw [valR_of_unpack ha, truncR_signed s (by positivity)]

/-- A finite value is truncated and saturated. -/
theorem toIntRule_finite {F : Fmt} {a : Reg} {s : Bool} {e : ℤ} {m : ℕ} (ha : unpack F a = .finite s e m)
    (T : IntTy) : toIntRule F T a = saturate T (truncR (valR F a)) := by
  rw [truncR_valR ha, ← abs_valR ha]
  cases s <;> simp [toIntRule, saturate, signedInt, cls, ha, signBit_of_unpack ha, Unpacked.sign]

/-- Where the operand is no NaN, FCVT.I.F's meaning is R212. -/
theorem toIntF_eq {F : Fmt} {a : Reg} (h : cls F a ≠ .nan) (T : IntTy) :
    toIntF F T a = intBits (toIntRule F T a) T.bits := by
  cases ha : unpack F a
  case nan s => simp [cls, ha] at h
  case finite s e m => rw [toIntRule_finite ha, valR, ← truncQ_eq_truncR, toIntF, ha]
  case inf s => cases s <;> simp [toIntF, toIntRule, cls, ha, signBit_of_unpack ha, Unpacked.sign]
  case zero s => simp [toIntF, toIntRule, cls, ha]

theorem toNat_intBits {N : ℕ} (hN : N ≤ 256) (n : ℤ) : ((intBits n N).toNat : ℤ) = n % 2 ^ N := by
  rw [intBits, BitVec.toNat_setWidth_of_le hN, BitVec.toNat_ofInt,
    Int.toNat_of_nonneg (Int.emod_nonneg _ (by positivity))]
  push_cast
  rfl

theorem IntTy.lo_nonpos (T : IntTy) : T.lo ≤ 0 := by cases T <;> decide
theorem IntTy.hi_nonneg (T : IntTy) : 0 ≤ T.hi := by cases T <;> decide

/-- The integer written is in the type's range. -/
theorem toIntRule_mem_range (F : Fmt) (T : IntTy) (a : Reg) : T.lo ≤ toIntRule F T a ∧ toIntRule F T a ≤ T.hi := by
  have hlo := T.lo_nonpos
  have hhi := T.hi_nonneg
  unfold toIntRule
  split_ifs <;> omega

/-- Settles O31: the low bits of the saturated integer, or the parameter for a NaN. -/
theorem floatToIntResult : Obligations.FloatToIntResult := by
  intro F T rd rs1 s a
  have hT : T.bits ≤ 256 := (intTy_bits_le T).trans (by decide)
  refine ⟨hasEncoding_row (Laws.Encoding.fcvtIF F T rd rs1), encode_fmt _, encode_fmt2 _, fun hn => ?_,
    fun hn => ⟨_, rfl, ?_, toIntRule_mem_range F T a⟩⟩
  · obtain ⟨t, ht⟩ := unpack_of_cls_nan hn
    have hnan : toIntF F T a = Config.nanToInt T := by rw [toIntF, ht]
    exact ⟨hnan ▸ rfl, hnan ▸ toIntF_lt F T a⟩
  · rw [toIntF_eq hn, toNat_intBits hT]

/-! ### From an integer (R213) -/

theorem ofIntF_eq_ofIntRule (F : Fmt) (x : ℤ) : ofIntF F x = ofIntRule F x := by
  unfold ofIntF ofIntRule
  split
  case isTrue => rfl
  case isFalse hx => rw [rneSigned_eq_rneSignedR F (Int.cast_ne_zero.mpr hx), Rat.cast_intCast]

theorem ofIntF_lt (F : Fmt) (x : ℤ) : (ofIntF F x).toNat < 2 ^ F.width := by
  simpa only [ofIntF, Int.cast_eq_zero] using roundSum_lt F x

theorem intOperand_eq_extractLsb' (s : State) (T : IntTy) (i : RegIdx) :
    s.intOperand T i = if T.signed then ((s.reg i).extractLsb' 0 T.bits).toInt
      else (((s.reg i).extractLsb' 0 T.bits).toNat : ℤ) := by
  have hT : T.bits ≤ 256 := (intTy_bits_le T).trans (by decide)
  rw [State.intOperand, BitVec.setWidth_eq_extractLsb' hT]

/-- Settles O32: the meaning is the rule, and its result fits the format. -/
theorem intToFloatResult : Obligations.IntToFloatResult := by
  intro F T rd rs1 s bits
  refine ⟨hasEncoding_row (Laws.Encoding.fcvtFI F T rd rs1), encode_fmt _, encode_fmt2 _, ?_⟩
  rw [← intOperand_eq_extractLsb', ← ofIntF_eq_ofIntRule]
  exact wrF_of_lt (ofIntF_lt F _)

/-! ### Widening and back (R211) -/

/-- What it means for D to contain S: as many fraction bits, and as wide a range at both ends. -/
theorem params_of_containedIn {S D : Fmt} (h : D ∈ containedIn S) :
    S.p ≤ D.p ∧ S.emax ≤ D.emax ∧ D.emin - D.p ≤ S.emin - S.p := by
  revert h
  cases S <;> cases D <;> decide

theorem representable_of_containedIn {S D : Fmt} (h : D ∈ containedIn S) {a : Reg} {s : Bool} {e : ℤ} {m : ℕ}
    (ha : unpack S a = .finite s e m) : Representable D (valR S a) := by
  obtain ⟨hp, hmax, hmin⟩ := params_of_containedIn h
  have hok := finiteOk_of_unpack ha
  have hlog : Nat.log2 m < S.p + 1 := (Nat.log2_lt (Nat.one_le_iff_ne_zero.mp hok.pos)).mpr hok.lt
  have hlo := hok.emin_le
  have hhi := hok.le_emax
  rw [valR_of_unpack ha]
  exact representable_of_fits s hok.pos (hok.lt.trans_le (Nat.pow_le_pow_right two_pos (by omega))) (by omega)
    (by omega)

theorem castF_of_finite {S : Fmt} {a : Reg} {s : Bool} {e : ℤ} {m : ℕ} (ha : unpack S a = .finite s e m) (D : Fmt) :
    castF S D a = rneSigned D (valF S a) := by
  have hs : decide (valF S a < 0) = s := by
    rw [Bool.decide_congr (valF_neg_iff ha), Bool.decide_eq_true]
  rw [castF, ha, rneSigned, hs]

/-- A cast to a format that contains the source keeps a finite value. -/
theorem unpack_castF_of_containedIn {S D : Fmt} (h : D ∈ containedIn S) {a : Reg} {s : Bool} {e : ℤ} {m : ℕ}
    (ha : unpack S a = .finite s e m) :
    ∃ t f k, unpack D (castF S D a) = .finite t f k ∧ valF D (castF S D a) = valF S a := by
  obtain ⟨t, f, k, hu, hval⟩ := unpack_rneSignedR (representable_of_containedIn h ha)
  rw [castF_of_finite ha, rneSigned_eq_rneSignedR D (valF_ne_zero ha)]
  exact ⟨t, f, k, hu, (valR_eq_iff D _ _).mp hval⟩

/-- A cast to a format that contains the source keeps a finite value, and the cast back gives the operand's pattern,
or the quiet NaN of its sign. -/
theorem castF_roundTrip {S D : Fmt} (h : D ∈ containedIn S) {a : Reg} (haW : a.toNat < 2 ^ S.width) :
    (cls S a = .finite → cls D (castF S D a) = .finite ∧ valR D (castF S D a) = valR S a) ∧
    (cls S a ≠ .nan → castF D S (castF S D a) = a) ∧
    (cls S a = .nan → castF D S (castF S D a) = nanF S (sgn S a)) := by
  cases ha : unpack S a
  case finite s e m =>
    obtain ⟨t, f, k, hu, hval⟩ := unpack_castF_of_containedIn h ha
    have hback : castF D S (castF S D a) = a := by
      rw [castF_of_finite hu, hval, rneSigned_valF haW (by rw [cls, ha])]
    simp [cls, ha, hu, hback, valR, hval]
  case nan s => simp [castF, cls, ha, signBit_of_unpack ha, Unpacked.sign]
  case inf s => simp [castF, cls, ha, ← eq_infF_of_unpack haW ha]
  case zero s => simp [castF, cls, ha, ← eq_zeroF_of_unpack haW ha]

/-- Settles O35: the second cast reads the first one's result. -/
theorem wideningCastRoundTrip : Obligations.WideningCastRoundTrip := by
  intro S D rd rd2 rs1 s hcont a
  refine ⟨_, _, exec_fcvtFF S D rd rs1 s, exec_fcvtFF D S rd2 rd _, ?_⟩
  rw [State.reg_retire_self, State.reg_retire_self, operand_retire_self (castF_lt S D a)]
  exact castF_roundTrip hcont (operand_lt s S rs1)

/-! ### Casts by shifting (R211, R214) -/

theorem cast_eq_castRule {S : Fmt} {a : Reg} {s : Bool} {e : ℤ} {m : ℕ} (ha : unpack S a = .finite s e m) (D : Fmt) :
    Datapath.cast S D s e m = castRule S D a := by
  rw [Datapath.cast, round_exact D s _ (finiteOk_of_unpack ha).pos, castRule_finite ha, abs_valR ha]

/-- Shifting the mantissa by its exponent truncates it. -/
theorem floor_mul_zpow (m : ℕ) (e p : ℤ) : ⌊(m : ℝ) * 2 ^ (e - p)⌋ =
    (if e ≤ p then m / 2 ^ (p - e).toNat else m * 2 ^ (e - p).toNat : ℕ) := by
  split
  case isTrue h => rw [mul_zpow_of_nonpos m (by omega), neg_sub, floor_div_two_pow]
  case isFalse h => rw [mul_zpow_of_nonneg m (by omega), Int.floor_natCast]

theorem toInt_eq_toIntRule {F : Fmt} {a : Reg} {s : Bool} {e : ℤ} {m : ℕ} (ha : unpack F a = .finite s e m)
    (T : IntTy) : Datapath.toInt F T s e m = toIntRule F T a := by
  rw [toIntRule_finite ha, truncR_valR ha, floor_mul_zpow]
  rfl

theorem ofInt_eq_ofIntRule (F : Fmt) {x : ℤ} (hx : x ≠ 0) : Datapath.ofInt F x = ofIntRule F x := by
  rw [Datapath.ofInt, round_exact F _ _ (Int.natAbs_pos.mpr hx), zpow_zero, mul_one, ofIntRule, if_neg hx, rneSignedR,
    Nat.cast_natAbs, Int.cast_abs]
  simp only [Int.cast_lt_zero]

/-- Settles O60, cast by cast. -/
theorem castDatapaths : Obligations.CastDatapaths :=
  ⟨fun _ D _ _ _ _ ha => cast_eq_castRule ha D, fun _ T _ _ _ _ ha => toInt_eq_toIntRule ha T,
    fun F _ hx => ofInt_eq_ofIntRule F hx⟩

end Sys2Proof
end

section
/-! SUPPORT. The correctly rounded result meets the accuracy rule (R129, R240, R241). -/

namespace Sys2Proof

/-! ### Admissible results by their class (R241) -/

theorem signed_decide_abs (y : ℝ) : signed (decide (y < 0)) |y| = y := by
  by_cases hy : y < 0
  · simp [signed, hy, abs_of_neg hy]
  · simp [signed, hy, abs_of_nonneg (not_lt.mp hy)]

theorem abs_signed_sub_signed (s : Bool) (a b : ℝ) : |signed s a - signed s b| = |a - b| := by
  cases s
  case false => rfl
  case true => rw [signed, signed, if_pos rfl, if_pos rfl, neg_sub_neg, abs_sub_comm]

/-- An infinity of the value's sign is admissible from the largest finite value on. -/
theorem adm_infF {F : Fmt} {y : ℝ} (h : (maxF F : ℝ) ≤ |y|) : Adm F y (infF F (decide (y < 0))) := by
  refine ⟨infF_lt F _, ?_⟩
  rw [unpack_infF]
  by_cases hy : y < 0
  · simpa [hy, abs_of_neg hy, le_neg] using h
  · simpa [hy, abs_of_nonneg (not_lt.mp hy)] using h

/-- A zero of the value's sign is admissible up to one last place. -/
theorem adm_zeroF {F : Fmt} {y : ℝ} (h : |y| ≤ ulp F y) : Adm F y (zeroF F (decide (y < 0))) := by
  refine ⟨zeroF_lt F _, ?_⟩
  rw [unpack_zeroF]
  exact .inr ⟨rfl, h⟩

/-- A finite result of the value's sign is admissible if its magnitude is within one last place. -/
theorem adm_packFinite {F : Fmt} {y : ℝ} {e : ℤ} {m : ℕ} (hy : y ≠ 0) (hok : FiniteOk F e m)
    (h : |m * (2 : ℝ) ^ (e - F.p) - (|y|)| ≤ ulp F y) : Adm F y (packFinite F (decide (y < 0)) e m) := by
  have hu := unpack_packFinite F (decide (y < 0)) hok
  have hdist := abs_signed_sub_signed (decide (y < 0)) (m * (2 : ℝ) ^ (e - F.p)) |y|
  rw [signed_decide_abs, ← valR_of_unpack hu] at hdist
  refine ⟨packFinite_lt F _ hok, ?_⟩
  rw [hu]
  exact ⟨hy, rfl, hdist ▸ h⟩

/-! ### The exponent that a rounding works at -/

theorem lt_two_zpow_roundExp_succ (F : Fmt) (x : ℝ) : x < (2 : ℝ) ^ (roundExp F x + 1) :=
  lt_two_zpow_log_succ.trans_le (zpow_le_zpow_right₀ one_le_two (by simp [roundExp]))

theorem two_zpow_roundExp_le {F : Fmt} {x : ℝ} (hx : 0 < x) (h : F.emin < roundExp F x) :
    (2 : ℝ) ^ roundExp F x ≤ x := by
  rw [roundExp, max_eq_left_of_lt ((lt_max_iff.mp h).resolve_right (lt_irrefl _))]
  exact two_zpow_log_le hx

/-- Up to the largest binade the accuracy rule's last place is the rounding's (R129, R240). -/
theorem ulp_eq_of_roundExp_le {F : Fmt} {y : ℝ} (hy : y ≠ 0) (h : roundExp F |y| ≤ F.emax) :
    ulp F y = (2 : ℝ) ^ (roundExp F |y| - F.p) := by
  have hlog : Int.log 2 |y| ≤ F.emax := (le_max_left _ _).trans h
  have hbinade : (2 : ℝ) ^ F.emin ≤ |y| ↔ F.emin ≤ Int.log 2 |y| := by
    exact_mod_cast Int.zpow_le_iff_le_log (b := 2) (by decide) (abs_pos.mpr hy)
  rw [ulp, min_eq_left hlog, roundExp]
  split
  case isTrue hlt => rw [max_eq_right (le_of_not_ge (mt hbinade.mpr hlt.not_ge))]
  case isFalse hge => rw [max_eq_left (hbinade.mp (not_lt.mp hge))]

/-! ### The correctly rounded result (R129, R241) -/

/-- A rounding settles on a mantissa within half a last place (R129). -/
theorem exists_rneR_eq_settle (F : Fmt) (s : Bool) {x u : ℝ} (hx : 0 < x)
    (hu : u = (2 : ℝ) ^ (roundExp F x - F.p)) :
    ∃ n : ℕ, rneR F s x = settle F s (roundExp F x) n ∧ |n * u - x| ≤ u / 2 := by
  have hu0 : 0 < u := by rw [hu]; positivity
  have h1 : ⌊x / u⌋₊ * u ≤ x := (le_div_iff₀ hu0).mp (Nat.floor_le (by positivity))
  have h2 : x < (⌊x / u⌋₊ + 1) * u := (div_lt_iff₀ hu0).mp (Nat.lt_floor_add_one _)
  refine ⟨_, rneR_of_bracket F s rfl hu h1 h2, ?_⟩
  split
  case isTrue hup =>
    have hge : (2 * ⌊x / u⌋₊ + 1) * u ≤ 2 * x := hup.elim le_of_lt fun h => h.1.ge
    push_cast
    rw [abs_le]
    constructor <;> linarith
  case isFalse hdown =>
    have hle := not_lt.mp (not_or.mp hdown).1
    rw [abs_le]
    constructor <;> linarith

theorem two_zpow_eq_mul {F : Fmt} {u : ℝ} {e : ℤ} (hu : u = (2 : ℝ) ^ (e - F.p)) :
    (2 : ℝ) ^ e = 2 ^ F.p * u ∧ (2 : ℝ) ^ (e + 1) = 2 ^ (F.p + 1) * u := by
  rw [hu, two_pow_mul_zpow, two_pow_mul_zpow]
  constructor <;> congr 1 <;> push_cast <;> ring

/-- The mantissa that a rounding settles on lies in the exponent's binade, the next power of two included. -/
theorem mantissa_bounds {F : Fmt} {x u : ℝ} {n : ℕ} (hx : 0 < x) (hu : u = (2 : ℝ) ^ (roundExp F x - F.p))
    (hn : |n * u - x| ≤ u / 2) : n ≤ 2 ^ (F.p + 1) ∧ (F.emin < roundExp F x → 2 ^ F.p ≤ n) := by
  have hu0 : 0 < u := by rw [hu]; positivity
  obtain ⟨hbot, htop⟩ := two_zpow_eq_mul hu
  obtain ⟨hlo, hhi⟩ := abs_le.mp hn
  constructor
  · have hlt := lt_two_zpow_roundExp_succ F x
    rw [htop] at hlt
    have : (n : ℝ) < (2 ^ (F.p + 1) + 1 : ℕ) := by push_cast; nlinarith
    exact Nat.lt_add_one_iff.mp (by exact_mod_cast this)
  · intro he
    have hge := two_zpow_roundExp_le hx he
    rw [hbot] at hge
    have : ((2 ^ F.p : ℕ) : ℝ) < (n + 1 : ℕ) := by push_cast; nlinarith
    exact Nat.lt_add_one_iff.mp (by exact_mod_cast this)

/-- A magnitude beyond the largest binade lies beyond the largest finite value. -/
theorem maxF_le_of_emax_lt {F : Fmt} {x : ℝ} (hx : 0 < x) (h : F.emax < roundExp F x) : (maxF F : ℝ) ≤ x := by
  have hemin : F.emin < F.emax := by have := F.bias_pos; rw [F.emin_eq, F.emax_eq]; omega
  calc (maxF F : ℝ) ≤ 2 ^ (F.emax + 1) := (maxF_lt F).le
    _ ≤ 2 ^ roundExp F x := zpow_le_zpow_right₀ one_le_two h
    _ ≤ x := two_zpow_roundExp_le hx (hemin.trans h)

/-- A magnitude whose mantissa carries out of the largest binade lies half a last place or less below the next power
of two, and the largest finite value a whole one. -/
theorem maxF_le_of_carry {F : Fmt} {x u : ℝ} (hu : u = (2 : ℝ) ^ (F.emax - F.p))
    (hn : |(2 ^ (F.p + 1) : ℕ) * u - x| ≤ u / 2) : (maxF F : ℝ) ≤ x := by
  have hu0 : 0 < u := by rw [hu]; positivity
  obtain ⟨-, hhi⟩ := abs_le.mp hn
  push_cast at hhi
  rw [maxF_cast, ← hu]
  linarith

/-- The power of two that a mantissa carries into is a finite value where the exponent allows it (R124). -/
theorem finiteOk_two_pow {F : Fmt} {e : ℤ} (hlo : F.emin ≤ e) (hhi : e ≤ F.emax) : FiniteOk F e (2 ^ F.p) where
  pos := Nat.one_le_two_pow
  lt := Nat.pow_lt_pow_right one_lt_two (Nat.lt_add_one _)
  emin_le := hlo
  le_emax := hhi
  subnormal h := absurd h (lt_irrefl _)

/-- A carry keeps the value: half the mantissa in the next binade. -/
theorem carry_value (F : Fmt) (e : ℤ) :
    (2 ^ F.p : ℕ) * (2 : ℝ) ^ (e + 1 - F.p) = (2 ^ (F.p + 1) : ℕ) * (2 : ℝ) ^ (e - F.p) := by
  push_cast
  rw [two_pow_mul_zpow, two_pow_mul_zpow]
  congr 1
  push_cast
  ring

theorem settle_of_emax_lt (F : Fmt) (s : Bool) {e : ℤ} (n : ℕ) (h : F.emax < e) : settle F s e n = infF F s := by
  have hcarry : e + 1 > F.emax := by omega
  rw [settle, if_pos hcarry, if_pos h, ite_self]

/-- The end of a rounding from a mantissa within half a last place of the value: an infinity beyond the largest
finite value, else a zero or finite result within that half place. -/
theorem adm_settle {F : Fmt} {y u : ℝ} {n : ℕ} (hy : y ≠ 0) (hu : u = (2 : ℝ) ^ (roundExp F |y| - F.p))
    (hn : |n * u - (|y|)| ≤ u / 2) : Adm F y (settle F (decide (y < 0)) (roundExp F |y|) n) := by
  have hpos := abs_pos.mpr hy
  have hemin : F.emin ≤ roundExp F |y| := le_max_right _ _
  obtain ⟨htop, hbot⟩ := mantissa_bounds hpos hu hn
  rcases lt_or_ge F.emax (roundExp F |y|) with hbig | hle
  · rw [settle_of_emax_lt F _ n hbig]
    exact adm_infF (maxF_le_of_emax_lt hpos hbig)
  have hulp : |n * u - (|y|)| ≤ ulp F y := by
    rw [ulp_eq_of_roundExp_le hy hle, ← hu]
    have hu0 : 0 < u := by rw [hu]; positivity
    linarith
  unfold settle
  split_ifs with hcarry hover hbig hzero
  · obtain rfl := hcarry
    exact adm_infF (maxF_le_of_carry (by rw [hu]; congr 2; omega) hn)
  · exact adm_packFinite hy (finiteOk_two_pow (by omega) (by omega)) (by rwa [carry_value, ← hu, ← hcarry])
  · omega
  · rw [hzero, Nat.cast_zero, zero_mul, zero_sub, abs_neg, abs_abs] at hulp
    exact adm_zeroF hulp
  · refine adm_packFinite hy ⟨by omega, by omega, hemin, hle, fun hsub => ?_⟩ (hu ▸ hulp)
    by_contra hne
    have := hbot (by omega)
    omega

/-- Settles O52: the rounding's mantissa is within half a last place, and the rule allows a whole one. -/
theorem roundedResultIsAdmissible : Obligations.RoundedResultIsAdmissible := by
  intro F y hy
  obtain ⟨n, hsettle, hn⟩ := exists_rneR_eq_settle F (decide (y < 0)) (abs_pos.mpr hy) rfl
  rw [rneSignedR, hsettle]
  exact adm_settle hy rfl hn

end Sys2Proof
end

section
/-! SUPPORT. The quadrant rules of the trigonometric range reduction (R246, R278), special-value tables read row by
row (R250), and what FATAN2 writes (R277). -/

namespace Sys2Proof

open Sys2Proof.Machine Sys2Proof.Safety

/-! ### Quarter turns (R278) -/

/-- Three quarter turns are a half turn and a quarter turn. -/
theorem three_quarter_turns (a : ℝ) : a + 3 * (Real.pi / 2) = a + Real.pi + Real.pi / 2 := by ring

theorem sin_add_quarter_turns (q : Fin 4) (a : ℝ) :
    Real.sin (a + q.val * (Real.pi / 2)) = quadrantSin q (Real.sin a) (Real.cos a) := by
  fin_cases q
  · simp [quadrantSin]
  · simp [quadrantSin, Real.sin_add_pi_div_two]
  · simp [quadrantSin, mul_div_cancel₀]
  · simp [quadrantSin, three_quarter_turns, Real.sin_add_pi_div_two]

theorem cos_add_quarter_turns (q : Fin 4) (a : ℝ) :
    Real.cos (a + q.val * (Real.pi / 2)) = quadrantCos q (Real.sin a) (Real.cos a) := by
  fin_cases q
  · simp [quadrantCos]
  · simp [quadrantCos, Real.cos_add_pi_div_two]
  · simp [quadrantCos, mul_div_cancel₀]
  · simp [quadrantCos, three_quarter_turns, Real.cos_add_pi_div_two]

/-- A reduction, read as whole turns, quarter turns and the reduced angle. -/
theorem Reduces.eq_turns {x r : ℝ} {q : Fin 4} (h : Reduces x q r) :
    ∃ k : ℤ, x = r * Real.pi + q.val * (Real.pi / 2) + k * (2 * Real.pi) := by
  obtain ⟨-, k, hx⟩ := h
  exact ⟨k, by rw [hx]; ring⟩

/-- The nearest number of quarter turns reduces an angle: its last two bits are the quadrant (R246). -/
theorem exists_reduces (x : ℝ) : ∃ q r, Reduces x q r := by
  set n := round (2 * x / Real.pi)
  have hmod : ((n % 4).toNat : ℤ) + 4 * (n / 4) = n := by omega
  have hmod' : ((n % 4).toNat : ℝ) + 4 * (n / 4 : ℤ) = n := by exact_mod_cast hmod
  refine ⟨⟨(n % 4).toNat, by omega⟩, (2 * x / Real.pi - n) / 2, ?_, n / 4, ?_⟩
  · have hnear := abs_sub_round (2 * x / Real.pi)
    rw [abs_div, abs_two]
    linarith
  · have hpi := Real.pi_ne_zero
    rw [← hmod']
    field_simp
    ring

/-- Settles O54: whole turns drop out, and each quarter turn exchanges sine and cosine by its rule. -/
theorem quadrantRules : Obligations.QuadrantRules := by
  refine ⟨exists_reduces, fun x q r h => ?_⟩
  obtain ⟨k, hx⟩ := h.eq_turns
  rw [hx, Real.sin_add_int_mul_two_pi, Real.cos_add_int_mul_two_pi]
  exact ⟨sin_add_quarter_turns q _, cos_add_quarter_turns q _⟩

/-! ### Special-value tables row by row (R250) -/

/-- What a row writes, and the general case, may each be replaced by what follows from it. -/
theorem FirstRow.imp {α : Type} {write write' : α → Prop} {general general' : Prop}
    (hrow : ∀ v, write v → write' v) (hgeneral : general → general') {rows : List (Prop × α)}
    (h : FirstRow write general rows) : FirstRow write' general' rows := by
  induction rows with
  | nil => exact hgeneral h
  | cons row rows ih =>
    obtain ⟨hfirst, hrest⟩ := h
    exact ⟨fun hc => hrow _ (hfirst hc), fun hc => ih (hrest hc)⟩

/-- A command of two operands writes what the first matching row of its table says. -/
theorem firstRow_elemBinary {op : ElemOp} {F : Fmt} {rd rs1 rs2 : RegIdx} {s : State} {general : Prop}
    {rows : List (Prop × Reg)} {table : Option Reg} (htable : op.table F (s.operand F rs1) (s.operand F rs2) = table)
    (hfits : ∀ v, table = some v → v.toNat < 2 ^ F.width) (hgeneral : table = none → general)
    (hrows : FirstRow (fun v => table = some v) (table = none) rows) :
    FirstRow (fun v => elemBinary op F rd rs1 rs2 s = .next (s.retire rd v)) general rows :=
  hrows.imp (fun v hv => elemBinary_row (htable.trans hv) (hfits v hv)) hgeneral

/-! ### FATAN2 (R277) -/

theorem rnePi_lt (F : Fmt) (s : Bool) {k : ℕ} (hk : 1 ≤ k) (hk' : k ≤ 4) : (rnePi F s k).toNat < 2 ^ F.width := by
  have hk0 : (0 : ℝ) < k := by exact_mod_cast hk
  have hpi := Real.pi_pos
  rw [rnePi_eq F s hk hk']
  exact rneR_lt F s (by positivity)

/-- The constants as the rows of R276 and R277 write them (R244). -/
theorem rnePi_quarter (F : Fmt) (s : Bool) : rnePi F s 1 = rneR F s (Real.pi / 4) := by
  rw [rnePi_eq F s le_rfl (by decide), Nat.cast_one, one_mul]
theorem rnePi_half (F : Fmt) (s : Bool) : rnePi F s 2 = rneR F s (Real.pi / 2) := by
  rw [rnePi_eq F s (by decide) (by decide)]; congr 1; push_cast; ring
theorem rnePi_three_quarters (F : Fmt) (s : Bool) : rnePi F s 3 = rneR F s (3 * Real.pi / 4) := by
  rw [rnePi_eq F s (by decide) (by decide)]; congr 1; push_cast; ring
theorem rnePi_whole (F : Fmt) (s : Bool) : rnePi F s 4 = rneR F s Real.pi := by
  rw [rnePi_eq F s (by decide) le_rfl]; congr 1; push_cast; ring

theorem atan2Table_lt {F : Fmt} {y x v : Reg} (h : atan2Table F y x = some v) : v.toNat < 2 ^ F.width := by
  have hrnePi (s : Bool) {k : ℕ} (hk : 1 ≤ k ∧ k ≤ 4) := rnePi_lt F s hk.1 hk.2
  unfold atan2Table at h
  split at h
  all_goals cases h
  case h_1 | h_2 => exact nanF_lt F _
  case h_3 | h_4 | h_5 | h_7 => split; exacts [hrnePi _ (by decide), zeroF_lt F _]
  case h_6 | h_9 => exact hrnePi _ (by decide)
  case h_8 => split; exacts [hrnePi _ (by decide), hrnePi _ (by decide)]

/-- The table leaves to the general case only two finite operands. -/
theorem ne_zero_of_atan2Table {F : Fmt} {y x : Reg} (h : atan2Table F y x = none) :
    valF F y ≠ 0 ∧ valF F x ≠ 0 := by
  unfold atan2Table at h
  split at h
  case h_10 hy hx => exact ⟨valF_ne_zero hy, valF_ne_zero hx⟩
  all_goals cases h

theorem valR_neg_iff {F : Fmt} {b : Reg} {s : Bool} {e : ℤ} {m : ℕ} (h : unpack F b = .finite s e m) :
    valR F b < 0 ↔ s = true := by rw [valR, Rat.cast_lt_zero, valF_neg_iff h]

theorem valR_pos_iff {F : Fmt} {b : Reg} {s : Bool} {e : ℤ} {m : ℕ} (h : unpack F b = .finite s e m) :
    0 < valR F b ↔ s = false := by rw [valR, Rat.cast_pos, valF_pos_iff h]

/-- The angle of the point (x, y), and what makes it the angle (R277). -/
theorem arg_spec {x : ℝ} (hx : x ≠ 0) (y : ℝ) :
    -Real.pi < Complex.arg ⟨x, y⟩ ∧ Complex.arg ⟨x, y⟩ ≤ Real.pi ∧
      Real.cos (Complex.arg ⟨x, y⟩) = x / Real.sqrt (x ^ 2 + y ^ 2) ∧
      Real.sin (Complex.arg ⟨x, y⟩) = y / Real.sqrt (x ^ 2 + y ^ 2) := by
  have hne : (⟨x, y⟩ : ℂ) ≠ 0 := fun h => hx (congrArg Complex.re h)
  rw [Complex.cos_arg hne, Complex.sin_arg, Complex.norm_eq_sqrt_sq_add_sq]
  exact ⟨Complex.neg_pi_lt_arg _, Complex.arg_le_pi _, rfl, rfl⟩

/-- Settles O39: the rows are the table's, class by class and sign by sign, and the evaluator's angle is the argument
of x + iy. -/
theorem fatan2Result : Obligations.Fatan2Result := by
  intro F rd rs1 rs2 s hs y x
  refine ⟨hasEncoding_row (Laws.Encoding.fatan2 F rd rs1 rs2),
    firstRow_elemBinary (op := .atan2) (table := atan2Table F y x) rfl (fun v => atan2Table_lt) (fun hnone => ?_) ?_⟩
  · obtain ⟨hlo, hhi, hcos, hsin⟩ := arg_spec (Rat.cast_ne_zero.mpr (ne_zero_of_atan2Table hnone).2) (valR F y)
    exact ⟨_, hlo, hhi, hcos, hsin, elemBinary_general (op := .atan2) hs hnone rfl⟩
  · dsimp only
    cases uy : unpack F y <;> cases ux : unpack F x
    case zero.zero t t' | zero.finite t t' _ _ | zero.inf t t' =>
      have hy : y = zeroF F t := eq_zeroF_of_unpack (operand_lt s F rs1) uy
      cases t' <;> simp [FirstRow, cls, sgn, atan2Table, uy, ux, Unpacked.sign, rnePi_whole, ← hy]
    case finite.zero t _ _ _ =>
      cases t <;> simp [FirstRow, cls, atan2Table, uy, ux, valR_neg_iff uy, valR_pos_iff uy, rnePi_half]
    case finite.inf t _ _ t' =>
      cases t' <;> simp [FirstRow, cls, sgn, atan2Table, uy, ux, Unpacked.sign, rnePi_whole]
    case inf.inf t t' =>
      cases t' <;> simp [FirstRow, cls, sgn, atan2Table, uy, ux, Unpacked.sign, rnePi_three_quarters, rnePi_quarter]
    -- a NaN operand, an infinite y with a finite or zero x, and the general case: no row asks for a sign
    all_goals simp [FirstRow, cls, sgn, atan2Table, uy, ux, Unpacked.sign, rnePi_half]

end Sys2Proof
end

section
/-! SUPPORT. Special-value tables of one operand read row by row (R250), the range rule (R246, R270), and what FSIN,
FCOS, FTAN, FASIN, FACOS and FATAN write (R271 to R276). -/

namespace Sys2Proof

open Sys2Proof.Machine Sys2Proof.Safety

/-! ### A command of one operand, row by row (R250, R270) -/

/-- What a special-value table gives for an operand is what the rows say, and every row's pattern fits the format:
no row matches exactly in the general case. -/
def TableRows (F : Fmt) (table : Option Reg) (rows : List (Prop × Reg)) : Prop :=
  FirstRow (fun v => table = some v ∧ v.toNat < 2 ^ F.width) (table = none) rows

/-- A command of one operand writes what the first matching row of its table says. -/
theorem TableRows.firstRow_elemUnary {op : ElemOp} {F : Fmt} {rd rs1 : RegIdx} {s : State} {general : Prop}
    {rows : List (Prop × Reg)} (hrows : TableRows F (op.table F (s.operand F rs1) 0) rows)
    (hgeneral : op.table F (s.operand F rs1) 0 = none → general) :
    FirstRow (fun v => elemUnary op F rd rs1 s = .next (s.retire rd v)) general rows :=
  hrows.imp (fun _ ⟨hv, hfits⟩ => elemUnary_row hv hfits) hgeneral

/-- Below 2^PH_RANGE every command keeps the accuracy rule (R246). -/
theorem inRange_of_abs_lt {F : Fmt} {a : Reg} (op : ElemOp) (h : |valR F a| < 2 ^ Config.phRange F) :
    op.inRange F a = true := by
  have hQ : |valF F a| < pow2 (Config.phRange F) := by
    rw [pow2_eq, zpow_natCast]
    rw [valR] at h
    exact_mod_cast h
  rw [ElemOp.inRange]
  split
  · exact decide_eq_true hQ
  · rfl

/-- The general case under the range rule: an admissible result in range, some result of the format outside it. -/
theorem elemUnary_ranged {op : ElemOp} {F : Fmt} {rd rs1 : RegIdx} {s : State} (hs : RomIntact s)
    (hnone : op.table F (s.operand F rs1) 0 = none) :
    (|valR F (s.operand F rs1)| < 2 ^ Config.phRange F →
      ∃ r, Adm F (exactValue op (valF F (s.operand F rs1)) (valF F 0)) r ∧
        elemUnary op F rd rs1 s = .next (s.retire rd r)) ∧
    (¬|valR F (s.operand F rs1)| < 2 ^ Config.phRange F →
      ∃ r : Reg, r.toNat < 2 ^ F.width ∧ elemUnary op F rd rs1 s = .next (s.retire rd r)) :=
  ⟨fun hin => elemUnary_general hs hnone (inRange_of_abs_lt op hin),
    fun _ => ⟨_, lowBits_lt F.width_le _, rfl⟩⟩

/-! ### The tables of the trigonometric commands (R271 to R276) -/

section Tables
variable {F : Fmt} {x : Reg}

theorem oneF_lt (F : Fmt) (s : Bool) : (oneF F s).toNat < 2 ^ F.width := packFinite_lt F s (oneF_ok F)

theorem sinTable_rows (hx : x.toNat < 2 ^ F.width) : TableRows F (sinTable F x)
    [(cls F x = .nan, nanF F (sgn F x)), (cls F x = .zero, x), (cls F x = .inf, nanF F false)] := by
  cases u : unpack F x
  case zero => simp [TableRows, FirstRow, cls, sinTable, u, ← eq_zeroF_of_unpack hx u, hx]
  all_goals simp [TableRows, FirstRow, cls, sgn, sinTable, u, Unpacked.sign, nanF_lt]

theorem cosTable_rows (F : Fmt) (x : Reg) : TableRows F (cosTable F x)
    [(cls F x = .nan, nanF F (sgn F x)), (cls F x = .zero, oneF F false), (cls F x = .inf, nanF F false)] := by
  cases u : unpack F x
  all_goals simp [TableRows, FirstRow, cls, sgn, cosTable, u, Unpacked.sign, nanF_lt, oneF_lt]

/-- FTAN's special rows are FSIN's (R271, R273). -/
theorem tanTable_eq_sinTable (F : Fmt) (x : Reg) : tanTable F x = sinTable F x := rfl

theorem one_lt_abs_valR_iff : 1 < |valR F x| ↔ 1 < |valF F x| := by
  rw [valR]; exact_mod_cast Iff.rfl

theorem valR_eq_one_iff : valR F x = 1 ↔ valF F x = 1 := by
  rw [valR]; exact_mod_cast Iff.rfl

theorem asinTable_rows (hx : x.toNat < 2 ^ F.width) : TableRows F (asinTable F x)
    [(cls F x = .nan, nanF F (sgn F x)), (cls F x = .zero, x),
     (cls F x = .inf ∨ (cls F x = .finite ∧ 1 < |valR F x|), nanF F false)] := by
  cases u : unpack F x
  case zero => simp [TableRows, FirstRow, cls, asinTable, u, ← eq_zeroF_of_unpack hx u, hx]
  case finite =>
    by_cases houtside : 1 < |valF F x|
    all_goals simp [TableRows, FirstRow, cls, asinTable, u, one_lt_abs_valR_iff, houtside, nanF_lt]
  all_goals simp [TableRows, FirstRow, cls, sgn, asinTable, u, Unpacked.sign, nanF_lt]

theorem acosTable_rows (F : Fmt) (x : Reg) : TableRows F (acosTable F x)
    [(cls F x = .nan, nanF F (sgn F x)), (cls F x = .finite ∧ valR F x = 1, zeroF F false),
     (cls F x = .inf ∨ (cls F x = .finite ∧ 1 < |valR F x|), nanF F false)] := by
  cases u : unpack F x
  case finite =>
    by_cases hone : valF F x = 1
    · simp [TableRows, FirstRow, cls, acosTable, u, valR_eq_one_iff, hone, zeroF_lt]
    by_cases houtside : 1 < |valF F x|
    all_goals
      simp [TableRows, FirstRow, cls, acosTable, u, valR_eq_one_iff, one_lt_abs_valR_iff, hone, houtside, nanF_lt]
  all_goals simp [TableRows, FirstRow, cls, sgn, acosTable, u, Unpacked.sign, nanF_lt]

theorem atanTable_rows (hx : x.toNat < 2 ^ F.width) : TableRows F (atanTable F x)
    [(cls F x = .nan, nanF F (sgn F x)), (cls F x = .zero, x),
     (cls F x = .inf, rneR F (sgn F x) (Real.pi / 2))] := by
  cases u : unpack F x
  case zero => simp [TableRows, FirstRow, cls, atanTable, u, ← eq_zeroF_of_unpack hx u, hx]
  case inf t =>
    have hfits : (rneR F t (Real.pi / 2)).toNat < 2 ^ F.width := rneR_lt F t (by positivity)
    simp [TableRows, FirstRow, cls, sgn, atanTable, u, Unpacked.sign, rnePi_half, hfits]
  all_goals simp [TableRows, FirstRow, cls, sgn, atanTable, u, Unpacked.sign, nanF_lt]

end Tables

/-- Settles O37: the rows are the tables', class by class, and the range rule divides the general case. -/
theorem fsinFcosFtanResults : Obligations.FsinFcosFtanResults := by
  intro F rd rs1 s hs x _ _
  have hx : x.toNat < 2 ^ F.width := operand_lt s F rs1
  have htan := tanTable_eq_sinTable F x ▸ sinTable_rows hx
  exact ⟨hasEncoding_row (Laws.Encoding.fsin F rd rs1),
    (sinTable_rows hx).firstRow_elemUnary (op := .sin) (elemUnary_ranged hs),
    hasEncoding_row (Laws.Encoding.fcos F rd rs1),
    (cosTable_rows F x).firstRow_elemUnary (op := .cos) (elemUnary_ranged hs),
    hasEncoding_row (Laws.Encoding.ftan F rd rs1), htan.firstRow_elemUnary (op := .tan) (elemUnary_ranged hs)⟩

/-- Settles O38: the rows are the tables', class by class and, for a finite operand, by its place beside ±1. -/
theorem fasinFacosFatanResults : Obligations.FasinFacosFatanResults := by
  intro F rd rs1 s hs x _
  have hx : x.toNat < 2 ^ F.width := operand_lt s F rs1
  exact ⟨hasEncoding_row (Laws.Encoding.fasin F rd rs1),
    (asinTable_rows hx).firstRow_elemUnary (op := .asin) (elemUnary_general hs · rfl),
    hasEncoding_row (Laws.Encoding.facos F rd rs1),
    (acosTable_rows F x).firstRow_elemUnary (op := .acos) (elemUnary_general hs · rfl),
    hasEncoding_row (Laws.Encoding.fatan F rd rs1),
    (atanTable_rows hx).firstRow_elemUnary (op := .atan) (elemUnary_general hs · rfl)⟩

end Sys2Proof
end

section
/-! SUPPORT. The derived bounds of FSIN, FCOS, FTANH, FERF, FCOSH and FACOSH (R270, R330, R340): an exact value below
1 in magnitude admits no result above 1, and the exact values of the first four lie there. -/

namespace Sys2Proof

open Sys2Proof.Machine Sys2Proof.Safety

/-! ### Exact values below 1 in magnitude -/

/-- π is irrational, so no rational but 0 is a multiple of it. -/
theorem sin_ratCast_ne_zero {q : ℚ} (hq : q ≠ 0) : Real.sin q ≠ 0 := by
  intro h
  obtain ⟨n, hn⟩ := Real.sin_eq_zero_iff.mp h
  have hn0 : n ≠ 0 := by
    rintro rfl
    rw [Int.cast_zero, zero_mul] at hn
    exact hq (Rat.cast_eq_zero.mp hn.symm)
  exact (irrational_pi.intCast_mul hn0) ⟨q, hn.symm⟩

/-- No rational but 0 is a multiple of π/2 either: its double would be one of π. -/
theorem cos_ratCast_ne_zero {q : ℚ} (hq : q ≠ 0) : Real.cos q ≠ 0 := by
  have hdouble := sin_ratCast_ne_zero (mul_ne_zero two_ne_zero hq)
  push_cast at hdouble
  rw [Real.sin_two_mul] at hdouble
  exact right_ne_zero_of_mul hdouble

theorem abs_lt_one_of_sq_add_sq {a b : ℝ} (h : a ^ 2 + b ^ 2 = 1) (hb : b ≠ 0) : |a| < 1 := by
  rw [← sq_lt_one_iff_abs_lt_one]
  linarith [sq_pos_of_ne_zero hb]

theorem abs_sin_ratCast_lt_one {q : ℚ} (hq : q ≠ 0) : |Real.sin q| < 1 :=
  abs_lt_one_of_sq_add_sq (Real.sin_sq_add_cos_sq _) (cos_ratCast_ne_zero hq)

theorem abs_cos_ratCast_lt_one {q : ℚ} (hq : q ≠ 0) : |Real.cos q| < 1 :=
  abs_lt_one_of_sq_add_sq (Real.cos_sq_add_sin_sq _) (sin_ratCast_ne_zero hq)

theorem integrable_exp_neg_sq : MeasureTheory.Integrable fun t : ℝ => Real.exp (-t ^ 2) := by
  simpa using integrable_exp_neg_mul_sq one_pos

theorem integral_Ioi_exp_neg_sq_pos (x : ℝ) : 0 < ∫ t in Set.Ioi x, Real.exp (-t ^ 2) := by
  have : NeZero (MeasureTheory.volume.restrict (Set.Ioi x)) := ⟨by simp⟩
  exact MeasureTheory.integral_exp_pos integrable_exp_neg_sq.restrict

/-- The error function lies below 1 by what is left of the Gaussian integral above x. -/
theorem erfR_lt_one (x : ℝ) : erfR x < 1 := by
  have hsplit := intervalIntegral.integral_interval_add_Ioi (a := 0) (b := x)
    integrable_exp_neg_sq.integrableOn integrable_exp_neg_sq.integrableOn
  have hwhole := integral_gaussian_Ioi 1
  have htail := integral_Ioi_exp_neg_sq_pos x
  simp only [neg_mul, one_mul, div_one] at hwhole
  have hpi := Real.sqrt_pos.mpr Real.pi_pos
  rw [erfR, div_mul_eq_mul_div, div_lt_one hpi]
  linarith

theorem abs_erfR_lt_one (x : ℝ) : |erfR x| < 1 := by
  have hneg := erfR_lt_one (-x)
  rw [Kernel.erfR_neg] at hneg
  exact abs_lt.mpr ⟨by linarith, erfR_lt_one x⟩

/-! ### No result passes 1 (R240, R241) -/

/-- Below 1 a last place is at most half the step above 1 (R240). -/
theorem ulp_le_of_abs_lt_one {F : Fmt} {y : ℝ} (hy : |y| < 1) : ulp F y ≤ (2 : ℝ) ^ (-1 - F.p : ℤ) := by
  have hbias := F.bias_pos
  have hemin := F.emin_eq
  rw [ulp]
  split
  case isTrue => exact zpow_le_zpow_right₀ one_le_two (by omega)
  case isFalse hbig =>
    have hy0 : 0 < |y| := lt_of_lt_of_le (by positivity) (not_lt.mp hbig)
    have hlog : Int.log 2 |y| < 0 := (Int.lt_zpow_iff_log_lt (b := 2) (by decide) hy0).mp (by simpa using hy)
    exact zpow_le_zpow_right₀ one_le_two (by omega)

/-- The least finite magnitude above 1 is 1 + 2^(-p): below it every finite value is at most 1 in magnitude. -/
theorem abs_valR_le_one {F : Fmt} {r : Reg} {s : Bool} {e : ℤ} {m : ℕ} (hr : unpack F r = .finite s e m)
    (h : |valR F r| < 1 + (2 : ℝ) ^ (-F.p : ℤ)) : |valR F r| ≤ 1 := by
  rw [abs_valR hr] at h ⊢
  rcases lt_or_ge e 0 with he | he
  · calc m * (2 : ℝ) ^ (e - F.p)
        ≤ 2 ^ (F.p + 1) * 2 ^ (e - F.p) :=
          mul_le_mul_of_nonneg_right (by exact_mod_cast (finiteOk_of_unpack hr).lt.le) (by positivity)
      _ = 2 ^ (e + 1) := by rw [two_pow_mul_zpow]; congr 1; push_cast; ring
      _ ≤ 1 := zpow_le_one_of_nonpos₀ one_le_two (by omega)
  · have hstep : (0 : ℝ) < 2 ^ (-F.p : ℤ) := by positivity
    have hone : (2 : ℝ) ^ F.p * 2 ^ (-F.p : ℤ) = 1 := by rw [two_pow_mul_zpow, neg_add_cancel, zpow_zero]
    have hsteps : m * (2 : ℝ) ^ (e - F.p) = (m * 2 ^ e.toNat : ℕ) * 2 ^ (-F.p : ℤ) := by
      rw [sub_eq_add_neg, zpow_add₀ two_ne_zero, ← mul_assoc, mul_zpow_of_nonneg m he]
    rw [hsteps] at h ⊢
    have hlt : ((m * 2 ^ e.toNat : ℕ) : ℝ) < (2 ^ F.p + 1 : ℕ) := by
      refine lt_of_mul_lt_mul_right (h.trans_eq ?_) hstep.le
      push_cast
      rw [add_mul, hone, one_mul]
    rw [← hone]
    exact mul_le_mul_of_nonneg_right (by exact_mod_cast Nat.lt_succ_iff.mp (Nat.cast_lt.mp hlt)) hstep.le

theorem one_le_maxF (F : Fmt) : (1 : ℝ) ≤ maxF F := by
  have hp : (2 : ℝ) ^ 1 ≤ 2 ^ (F.p + 1) := pow_le_pow_right₀ one_le_two (by omega)
  have hscale : (1 : ℝ) ≤ 2 ^ (F.emax - F.p) := one_le_zpow₀ one_le_two (by have := p_le_emax F; omega)
  rw [maxF_cast]
  exact one_le_mul_of_one_le_of_one_le (by linarith) hscale

/-- A result that is admissible for an exact value below 1 in magnitude is a zero or finite, and at most 1 in
magnitude (R241). -/
theorem Adm.abs_le_one {F : Fmt} {y : ℝ} {r : Reg} (h : Adm F y r) (hy : |y| < 1) :
    (cls F r = .zero ∨ cls F r = .finite) ∧ |valR F r| ≤ 1 := by
  have hmax := one_le_maxF F
  obtain ⟨hlo, hhi⟩ := abs_lt.mp hy
  obtain ⟨-, h⟩ := h
  cases u : unpack F r <;> rw [u] at h
  case zero => simp [cls, u, valR_of_unpack_zero u]
  case finite =>
    obtain ⟨-, -, hnear⟩ := h
    refine ⟨.inr (by simp [cls, u]), abs_valR_le_one u ?_⟩
    have hulp := ulp_le_of_abs_lt_one (F := F) hy
    have hhalf : (2 : ℝ) ^ (-1 - F.p : ℤ) < 2 ^ (-F.p : ℤ) := zpow_lt_zpow_right₀ one_lt_two (by omega)
    have htri := abs_sub_abs_le_abs_sub (valR F r) y
    linarith
  case inf s =>
    cases s
    · exact absurd (hmax.trans h) hhi.not_ge
    · exact absurd (h.trans (neg_le_neg hmax)) hlo.not_ge
  case nan => exact h.elim

/-- A result that is admissible for a positive exact value is no NaN and has no sign (R241). -/
theorem Adm.sign_of_pos {F : Fmt} {y : ℝ} {r : Reg} (h : Adm F y r) (hy : 0 < y) :
    cls F r ≠ .nan ∧ sgn F r = false := by
  have hmax := one_le_maxF F
  have hsign : decide (y < 0) = false := decide_eq_false hy.not_gt
  obtain ⟨-, h⟩ := h
  cases u : unpack F r <;> rw [u] at h
  case zero =>
    obtain ⟨hs, -⟩ := h.resolve_left hy.ne'
    simp [cls, sgn, u, Unpacked.sign, hs, hy.le]
  case finite =>
    obtain ⟨-, hs, -⟩ := h
    simp [cls, sgn, u, Unpacked.sign, hs, hy.le]
  case inf s =>
    cases s
    · simp [cls, sgn, u, Unpacked.sign]
    · exact absurd h (by simp only [if_true]; linarith)
  case nan => exact h.elim

/-! ### What the bounded commands write (R270, R330, R340) -/

section Bounded
variable {F : Fmt} {rd rs1 : RegIdx} {s : State} {op : ElemOp}

/-- The general case of a command whose exact value lies below 1 in magnitude. -/
theorem elemUnary_abs_le_one (hs : RomIntact s) (hnone : op.table F (s.operand F rs1) 0 = none)
    (hin : op.inRange F (s.operand F rs1) = true)
    (hy : |exactValue op (valF F (s.operand F rs1)) (valF F 0)| < 1) :
    ∃ r, elemUnary op F rd rs1 s = .next (s.retire rd r) ∧ (cls F r = .zero ∨ cls F r = .finite) ∧
      |valR F r| ≤ 1 := by
  obtain ⟨r, hadm, hwrites⟩ := elemUnary_general hs hnone hin
  exact ⟨r, hwrites, hadm.abs_le_one hy⟩

/-- In the general case the evaluator's result itself is written (R250). -/
theorem elemUnary_elem (hs : RomIntact s) (hnone : op.table F (s.operand F rs1) 0 = none)
    (hin : op.inRange F (s.operand F rs1) = true) :
    elemUnary op F rd rs1 s = .next (s.retire rd (s.elem op F (s.operand F rs1) 0)) := by
  rw [elemUnary, State.elemResult, hnone, Option.getD_none, wrF_of_lt (adm_lt (s.elem_adm hs hnone hin))]

theorem unpack_of_cls_finite {b : Reg} (h : cls F b = .finite) : ∃ t e m, unpack F b = .finite t e m := by
  cases u : unpack F b
  case finite t e m => exact ⟨t, e, m, rfl⟩
  all_goals simp [cls, u] at h

/-- FCOSH's bound over the extended reals; `valR` is 0 for a NaN, so the bound excludes one. -/
theorem one_le_valE_of_bound {r : Reg} (h : ElemOp.bound .cosh F r) : cls F r ≠ .nan ∧ 1 ≤ valE F r := by
  rcases h rfl with hinf | hone
  · simp [cls, hinf, valE_of_inf hinf]
  · cases u : unpack F r
    case finite =>
      rw [valE_of_not_inf (by simp [u])]
      exact ⟨by simp [cls, u], by exact_mod_cast hone⟩
    all_goals exact absurd hone (by simp [valR, valF, u, Unpacked.val])

/-- FCOSH (R330, R332): each row's pattern and every general-case result keeps the bound. -/
theorem elemUnary_cosh_bound (hs : RomIntact s) (hx : cls F (s.operand F rs1) ≠ .nan) :
    ∃ r, elemUnary .cosh F rd rs1 s = .next (s.retire rd r) ∧ ElemOp.bound .cosh F r := by
  cases u : unpack F (s.operand F rs1)
  case zero =>
    exact ⟨_, elemUnary_row (by simp [ElemOp.table, coshTable, u]) (oneF_lt F false),
      fun _ => .inr (valR_oneF F).ge⟩
  case inf =>
    exact ⟨_, elemUnary_row (by simp [ElemOp.table, coshTable, u]) (infF_lt F false),
      fun _ => .inl (unpack_infF F false)⟩
  case finite =>
    have hnone : ElemOp.table .cosh F (s.operand F rs1) 0 = none := by simp [ElemOp.table, coshTable, u]
    exact ⟨_, elemUnary_elem hs hnone rfl, s.elem_bound hs hnone rfl⟩
  case nan => exact absurd (by simp [cls, u]) hx

/-- The exact value of FACOSH is positive above 1 (R335). -/
theorem log_add_sqrt_pos {x : ℝ} (hx : 1 < x) : 0 < Real.log (x + Real.sqrt (x ^ 2 - 1)) :=
  Real.log_pos (by linarith [Real.sqrt_nonneg (x ^ 2 - 1)])

/-- FACOSH (R330, R335): +0 at 1, +Inf at +Inf, and above 1 a result with the exact value's sign. -/
theorem elemUnary_acosh_sign (hs : RomIntact s) (hx : cls F (s.operand F rs1) ≠ .nan)
    (hone : 1 ≤ valE F (s.operand F rs1)) :
    ∃ r, elemUnary .acosh F rd rs1 s = .next (s.retire rd r) ∧ cls F r ≠ .nan ∧ sgn F r = false := by
  cases u : unpack F (s.operand F rs1)
  case zero =>
    rw [valE_of_not_inf (by simp [u]), valR_of_unpack_zero u] at hone
    exact absurd hone (by simp)
  case inf t =>
    rw [valE_of_inf u] at hone
    cases t
    · exact ⟨_, elemUnary_row (by simp [ElemOp.table, acoshTable, u]) (infF_lt F false), by simp [cls],
        by simp [sgn, Unpacked.sign]⟩
    · exact absurd hone (EReal.bot_lt_coe 1).not_ge
  case finite =>
    rw [valE_of_not_inf (by simp [u])] at hone
    have hvalF : 1 ≤ valF F (s.operand F rs1) := by rw [valR] at hone; exact_mod_cast hone
    rcases hvalF.eq_or_lt with heq | hgt
    · exact ⟨_, elemUnary_row (by simp [ElemOp.table, acoshTable, u, heq]) (zeroF_lt F false), by simp [cls],
        by simp [sgn, Unpacked.sign]⟩
    · have hnone : ElemOp.table .acosh F (s.operand F rs1) 0 = none := by
        simp [ElemOp.table, acoshTable, u, hgt.ne', hgt.not_gt]
      obtain ⟨r, hadm, hwrites⟩ := elemUnary_general hs hnone rfl
      exact ⟨r, hwrites, hadm.sign_of_pos (log_add_sqrt_pos (by exact_mod_cast hgt))⟩
  case nan => exact absurd (by simp [cls, u]) hx

end Bounded

/-- Settles O51: no value above 1 is admissible for an exact value below it, sine and cosine of a rational are such
values because π is irrational, and FCOSH's bound and FACOSH's sign hold row by row. -/
theorem boundedResults : Obligations.BoundedResults := by
  intro F rd rs1 s hs x
  refine ⟨fun hfin hlt => ?_, fun hfin => ?_, fun hx => ?_, elemUnary_acosh_sign hs⟩
  · obtain ⟨t, e, m, u⟩ := unpack_of_cls_finite hfin
    have hne := valF_ne_zero u
    rw [List.forall_mem_cons, List.forall_mem_singleton]
    exact ⟨elemUnary_abs_le_one (op := .sin) hs (by simp [ElemOp.table, sinTable, x, u]) (inRange_of_abs_lt _ hlt)
        (abs_sin_ratCast_lt_one hne),
      elemUnary_abs_le_one (op := .cos) hs (by simp [ElemOp.table, cosTable, x, u]) (inRange_of_abs_lt _ hlt)
        (abs_cos_ratCast_lt_one hne)⟩
  · obtain ⟨t, e, m, u⟩ := unpack_of_cls_finite hfin
    rw [List.forall_mem_cons, List.forall_mem_singleton]
    exact ⟨elemUnary_abs_le_one (op := .tanh) hs (by simp [ElemOp.table, tanhTable, x, u]) rfl
        (Real.abs_tanh_lt_one _),
      elemUnary_abs_le_one (op := .erf) hs (by simp [ElemOp.table, erfTable, x, u]) rfl (abs_erfR_lt_one _)⟩
  · obtain ⟨r, hwrites, hbound⟩ := elemUnary_cosh_bound hs hx
    exact ⟨r, hwrites, one_le_valE_of_bound hbound⟩

end Sys2Proof
end

section
/-! SUPPORT. The special-value tables of the exponential, logarithm, power and cube-root commands read row by row
(R250), their general cases' domains and real functions, and what the commands write (R301 to R306). -/

namespace Sys2Proof

open Sys2Proof.Machine Sys2Proof.Safety

/-- A command of two operands writes what the first matching row of its table says. -/
theorem TableRows.firstRow_elemBinary {op : ElemOp} {F : Fmt} {rd rs1 rs2 : RegIdx} {s : State} {general : Prop}
    {rows : List (Prop × Reg)} (hrows : TableRows F (op.table F (s.operand F rs1) (s.operand F rs2)) rows)
    (hgeneral : op.table F (s.operand F rs1) (s.operand F rs2) = none → general) :
    FirstRow (fun v => elemBinary op F rd rs1 rs2 s = .next (s.retire rd v)) general rows :=
  hrows.imp (fun _ ⟨hv, hfits⟩ => elemBinary_row hv hfits) hgeneral

section Tables
variable {F : Fmt} {x : Reg}

/-! ### The tables of the exponential and logarithm commands (R301 to R304) -/

theorem expTable_rows (F : Fmt) (x : Reg) : TableRows F (expTable F x)
    [(cls F x = .nan, nanF F (sgn F x)), (cls F x = .zero, oneF F false),
     (cls F x = .inf ∧ sgn F x = true, zeroF F false), (cls F x = .inf ∧ sgn F x = false, infF F false)] := by
  cases u : unpack F x
  case inf t =>
    cases t <;> simp [TableRows, FirstRow, cls, sgn, expTable, u, Unpacked.sign, zeroF_lt, infF_lt]
  all_goals simp [TableRows, FirstRow, cls, sgn, expTable, u, Unpacked.sign, nanF_lt, oneF_lt]

theorem expm1Table_rows (hx : x.toNat < 2 ^ F.width) : TableRows F (expm1Table F x)
    [(cls F x = .nan, nanF F (sgn F x)), (cls F x = .zero, x),
     (cls F x = .inf ∧ sgn F x = true, oneF F true), (cls F x = .inf ∧ sgn F x = false, infF F false)] := by
  cases u : unpack F x
  case zero => simp [TableRows, FirstRow, cls, expm1Table, u, ← eq_zeroF_of_unpack hx u, hx]
  case inf t =>
    cases t <;> simp [TableRows, FirstRow, cls, sgn, expm1Table, u, Unpacked.sign, oneF_lt, infF_lt]
  all_goals simp [TableRows, FirstRow, cls, sgn, expm1Table, u, Unpacked.sign, nanF_lt]

theorem logTable_rows (F : Fmt) (x : Reg) : TableRows F (logTable F x)
    [(cls F x = .nan, nanF F (sgn F x)), (cls F x = .zero, infF F true),
     (cls F x = .finite ∧ valR F x = 1, zeroF F false),
     ((cls F x = .finite ∧ valR F x < 0) ∨ (cls F x = .inf ∧ sgn F x = true), nanF F false),
     (cls F x = .inf, infF F false)] := by
  cases u : unpack F x
  case finite t _ _ =>
    by_cases hone : valF F x = 1
    · simp [TableRows, FirstRow, cls, logTable, u, valR_eq_one_iff, hone, zeroF_lt]
    · cases t <;>
        simp [TableRows, FirstRow, cls, logTable, u, valR_eq_one_iff, hone, valR_neg_iff u, nanF_lt]
  case inf t =>
    cases t <;> simp [TableRows, FirstRow, cls, sgn, logTable, u, Unpacked.sign, nanF_lt, infF_lt]
  all_goals simp [TableRows, FirstRow, cls, sgn, logTable, u, Unpacked.sign, nanF_lt, infF_lt]

/-- The table leaves to FLOG's general case only positive values (R303). -/
theorem valR_pos_of_logTable (h : logTable F x = none) : 0 < valR F x := by
  cases u : unpack F x
  case finite t _ _ =>
    cases t
    · exact (valR_pos_iff u).mpr rfl
    · by_cases hone : valF F x = 1 <;> simp [logTable, u, hone] at h
  all_goals simp [logTable, u] at h

theorem valR_eq_neg_one_iff : valR F x = -1 ↔ valF F x = -1 := by
  rw [valR]; exact_mod_cast Iff.rfl

theorem valR_lt_neg_one_iff : valR F x < -1 ↔ valF F x < -1 := by
  rw [valR]; exact_mod_cast Iff.rfl

theorem log1pTable_rows (hx : x.toNat < 2 ^ F.width) : TableRows F (log1pTable F x)
    [(cls F x = .nan, nanF F (sgn F x)), (cls F x = .zero, x),
     (cls F x = .finite ∧ valR F x = -1, infF F true),
     ((cls F x = .finite ∧ valR F x < -1) ∨ (cls F x = .inf ∧ sgn F x = true), nanF F false),
     (cls F x = .inf, infF F false)] := by
  cases u : unpack F x
  case zero => simp [TableRows, FirstRow, cls, log1pTable, u, ← eq_zeroF_of_unpack hx u, hx]
  case finite =>
    by_cases hpole : valF F x = -1
    · simp [TableRows, FirstRow, cls, log1pTable, u, valR_eq_neg_one_iff, hpole, infF_lt]
    by_cases hbelow : valF F x < -1
    all_goals
      simp [TableRows, FirstRow, cls, log1pTable, u, valR_eq_neg_one_iff, valR_lt_neg_one_iff, hpole, hbelow, nanF_lt]
  case inf t =>
    cases t <;> simp [TableRows, FirstRow, cls, sgn, log1pTable, u, Unpacked.sign, nanF_lt, infF_lt]
  case nan => simp [TableRows, FirstRow, cls, sgn, log1pTable, u, Unpacked.sign, nanF_lt]

/-- The table leaves to FLOG1P's general case only values above -1 (R304). -/
theorem neg_one_lt_valR_of_log1pTable (h : log1pTable F x = none) : -1 < valR F x := by
  cases u : unpack F x
  case finite =>
    simp only [log1pTable, u] at h
    split_ifs at h with hpole hbelow
    have habove : -1 < valF F x := lt_of_le_of_ne (not_lt.mp hbelow) (Ne.symm hpole)
    rw [valR]
    exact_mod_cast habove
  all_goals simp [log1pTable, u] at h

/-! ### The cube root's table (R306) -/

theorem cbrtTable_rows (hx : x.toNat < 2 ^ F.width) : TableRows F (cbrtTable F x)
    [(cls F x = .nan, nanF F (sgn F x)), (cls F x = .zero, x), (cls F x = .inf, x)] := by
  cases u : unpack F x
  case zero => simp [TableRows, FirstRow, cls, cbrtTable, u, ← eq_zeroF_of_unpack hx u, hx]
  case inf => simp [TableRows, FirstRow, cls, cbrtTable, u, ← eq_infF_of_unpack hx u, hx]
  all_goals simp [TableRows, FirstRow, cls, sgn, cbrtTable, u, Unpacked.sign, nanF_lt]

end Tables

/-- Settles O40: the rows are the tables', class by class, and every finite operand is the general case. -/
theorem fexpFexpm1Results : Obligations.FexpFexpm1Results := by
  intro F rd rs1 s hs x
  exact ⟨hasEncoding_row (Laws.Encoding.fexp F rd rs1),
    (expTable_rows F x).firstRow_elemUnary (op := .exp) (elemUnary_general hs · rfl),
    hasEncoding_row (Laws.Encoding.fexpm1 F rd rs1),
    (expm1Table_rows (operand_lt s F rs1)).firstRow_elemUnary (op := .expm1) (elemUnary_general hs · rfl)⟩

/-- Settles O41: the rows are the tables', class by class and, for a finite operand, by its place beside the pole;
what they leave is the logarithm's domain. -/
theorem flogFlog1pResults : Obligations.FlogFlog1pResults := by
  intro F rd rs1 s hs x
  exact ⟨hasEncoding_row (Laws.Encoding.flog F rd rs1),
    (logTable_rows F x).firstRow_elemUnary (op := .log)
      fun hnone => ⟨valR_pos_of_logTable hnone, elemUnary_general hs hnone rfl⟩,
    hasEncoding_row (Laws.Encoding.flog1p F rd rs1),
    (log1pTable_rows (operand_lt s F rs1)).firstRow_elemUnary (op := .log1p)
      fun hnone => ⟨neg_one_lt_valR_of_log1pTable hnone, elemUnary_general hs hnone rfl⟩⟩

/-! ### The cube root -/

theorem cbrtR_neg (x : ℝ) : cbrtR (-x) = -cbrtR x := by
  rw [cbrtR, cbrtR, Left.sign_neg, abs_neg, SignType.coe_neg, neg_mul]

/-- The cube root cubed, for either sign (R306). -/
theorem cbrtR_pow_three (x : ℝ) : cbrtR x ^ 3 = x := by
  rcases lt_trichotomy x 0 with hneg | rfl | hpos
  · have hcube := Kernel.cbrtR_cube (neg_pos.mpr hneg)
    rwa [cbrtR_neg, Odd.neg_pow (by decide), neg_inj] at hcube
  · simp [cbrtR]
  · exact Kernel.cbrtR_cube hpos

/-- Settles O43: the rows are the table's, class by class, and the evaluator's value cubed is the operand's. -/
theorem fcbrtResult : Obligations.FcbrtResult := by
  intro F rd rs1 s hs x
  exact ⟨hasEncoding_row (Laws.Encoding.fcbrt F rd rs1),
    (cbrtTable_rows (operand_lt s F rs1)).firstRow_elemUnary (op := .cbrt)
      fun hnone => ⟨_, cbrtR_pow_three _, elemUnary_general hs hnone rfl⟩⟩

/-! ### FPOW (R305) -/

section Pow
variable {F : Fmt} {x y : Reg}

/-- The parity that the table asks of an exponent's exact value is R305's (log 31). -/
theorem isOddQ_iff (q : ℚ) : isOddQ q = true ↔ ∃ n : ℤ, Odd n ∧ (q : ℝ) = n := by
  rw [isOddQ, Bool.and_eq_true, beq_iff_eq, ← Int.odd_iff, isIntQ_iff]
  constructor
  · rintro ⟨⟨n, hn⟩, hodd⟩
    obtain rfl : q = n := by exact_mod_cast hn
    exact ⟨n, by simpa using hodd, hn⟩
  · rintro ⟨n, hodd, hn⟩
    obtain rfl : q = n := by exact_mod_cast hn
    exact ⟨⟨n, hn⟩, by simpa using hodd⟩

/-- Where R123 gives no real number, and for a zero, the model's exact value is 0. -/
theorem valF_of_not_finite (h : cls F x ≠ .finite) : valF F x = 0 := by
  cases u : unpack F x
  case finite => exact absurd (by simp [cls, u]) h
  all_goals simp [valF, u, Unpacked.val]

theorem finite_of_valR_ne_zero (h : valR F x ≠ 0) : cls F x = .finite :=
  not_imp_comm.mp valF_of_not_finite (Rat.cast_ne_zero.mp h)

theorem isOddInteger_iff : IsOddInteger F y ↔ isOddQ (valF F y) = true := by
  by_cases hfin : cls F y = .finite
  · rw [isOddQ_iff]
    simp [IsOddInteger, hfin, valR]
  · simp [IsOddInteger, hfin, valF_of_not_finite hfin, isOddQ]

theorem isInteger_iff (hfin : cls F y = .finite) : IsInteger F y ↔ isIntQ (valF F y) = true := by
  rw [isIntQ_iff]
  simp [IsInteger, hfin, valR]

theorem abs_valR_lt_one_iff : |valR F x| < 1 ↔ |valF F x| < 1 := by
  rw [valR]; exact_mod_cast Iff.rfl

/-! #### The table by the operands' classes -/

theorem powTable_of_zero_exponent {t : Bool} (uy : unpack F y = .zero t) :
    powTable F x y = some (oneF F false) := by
  simp [powTable, uy, Unpacked.isZero]

theorem powTable_of_base_one (hone : valR F x = 1) : powTable F x y = some (oneF F false) := by
  simp [powTable, valR_eq_one_iff.mp hone]

theorem powTable_of_nan_base {t : Bool} (ux : unpack F x = .nan t) (hy : cls F y ≠ .zero) :
    powTable F x y = some (nanF F t) := by
  have hX : valF F x = 0 := valF_of_not_finite (by simp [cls, ux])
  cases uy : unpack F y
  case zero => exact absurd (by simp [cls, uy]) hy
  all_goals simp [powTable, ux, uy, hX, Unpacked.isZero, Unpacked.isNan, Unpacked.sign]

theorem powTable_of_nan_exponent {t : Bool} (uy : unpack F y = .nan t) (hx : cls F x ≠ .nan)
    (hone : valR F x ≠ 1) : powTable F x y = some (nanF F t) := by
  rw [ne_eq, valR_eq_one_iff] at hone
  cases ux : unpack F x
  case nan => exact absurd (by simp [cls, ux]) hx
  all_goals simp [powTable, ux, uy, hone, Unpacked.isZero, Unpacked.isNan, Unpacked.sign]

theorem powTable_of_base_neg_one {t : Bool} (uy : unpack F y = .inf t) (hneg : valR F x = -1) :
    powTable F x y = some (oneF F false) := by
  have hfin : cls F x = .finite := finite_of_valR_ne_zero (by simp [hneg])
  obtain ⟨t', e, m, ux⟩ := unpack_of_cls_finite hfin
  rw [valR_eq_neg_one_iff] at hneg
  simp [powTable, ux, uy, hneg, Unpacked.isZero, Unpacked.isNan, Unpacked.isInf]

/-- An infinite exponent over a base below 1 in magnitude. -/
theorem powTable_of_base_below {t : Bool} (uy : unpack F y = .inf t)
    (hbelow : cls F x = .zero ∨ (cls F x = .finite ∧ |valR F x| < 1)) :
    powTable F x y = some (if t then infF F false else zeroF F false) := by
  cases ux : unpack F x
  case zero =>
    have hX : valF F x = 0 := valF_of_not_finite (by simp [cls, ux])
    simp [powTable, ux, uy, hX, Unpacked.isZero, Unpacked.isNan, Unpacked.isInf, Unpacked.sign]
  case finite =>
    have habs : |valF F x| < 1 := by simpa [cls, ux, abs_valR_lt_one_iff] using hbelow
    have hne : valF F x ≠ 1 ∧ valF F x ≠ -1 := by
      constructor <;> intro h <;> simp [h] at habs
    simp [powTable, ux, uy, habs, hne, Unpacked.isZero, Unpacked.isNan, Unpacked.isInf, Unpacked.sign]
  all_goals simp [cls, ux] at hbelow

/-- An infinite exponent over a base above 1 in magnitude. -/
theorem powTable_of_base_above {t : Bool} (uy : unpack F y = .inf t)
    (habove : cls F x = .inf ∨ (cls F x = .finite ∧ 1 < |valR F x|)) :
    powTable F x y = some (if t then zeroF F false else infF F false) := by
  cases ux : unpack F x
  case inf =>
    have hX : valF F x = 0 := valF_of_not_finite (by simp [cls, ux])
    simp [powTable, ux, uy, hX, Unpacked.isZero, Unpacked.isNan, Unpacked.isInf, Unpacked.sign]
  case finite =>
    have habs : 1 < |valF F x| := by simpa [cls, ux, one_lt_abs_valR_iff] using habove
    have hne : valF F x ≠ 1 ∧ valF F x ≠ -1 := by
      constructor <;> intro h <;> simp [h] at habs
    simp [powTable, ux, uy, habs.not_gt, hne, Unpacked.isZero, Unpacked.isNan, Unpacked.isInf, Unpacked.sign]
  all_goals simp [cls, ux] at habove

theorem powTable_of_zero_base {t t' : Bool} {e : ℤ} {m : ℕ} (ux : unpack F x = .zero t')
    (uy : unpack F y = .finite t e m) : powTable F x y =
      some (if t then infF F (isOddQ (valF F y) && t') else zeroF F (isOddQ (valF F y) && t')) := by
  have hX : valF F x = 0 := valF_of_not_finite (by simp [cls, ux])
  cases t <;>
    simp [powTable, ux, uy, hX, valF_neg_iff uy, Unpacked.isZero, Unpacked.isNan, Unpacked.isInf, Unpacked.sign]

theorem powTable_of_inf_base {t t' : Bool} {e : ℤ} {m : ℕ} (ux : unpack F x = .inf t')
    (uy : unpack F y = .finite t e m) : powTable F x y =
      some (if t then zeroF F (isOddQ (valF F y) && t') else infF F (isOddQ (valF F y) && t')) := by
  have hX : valF F x = 0 := valF_of_not_finite (by simp [cls, ux])
  cases t <;> cases t' <;>
    simp [powTable, ux, uy, hX, valF_neg_iff uy, Unpacked.isZero, Unpacked.isNan, Unpacked.isInf, Unpacked.sign]

theorem powTable_of_finite {t t' : Bool} {e e' : ℤ} {m m' : ℕ} (ux : unpack F x = .finite t' e' m')
    (uy : unpack F y = .finite t e m) (hone : valR F x ≠ 1) : powTable F x y =
      if t' = true ∧ isIntQ (valF F y) = false then some (nanF F false) else none := by
  rw [ne_eq, valR_eq_one_iff] at hone
  simp [powTable, ux, uy, hone, valF_neg_iff ux, Unpacked.isZero, Unpacked.isNan, Unpacked.isInf]

/-! #### The signed power -/

theorem powR_of_neg_odd {q r : ℚ} (h : q < 0 ∧ isOddQ r = true) : powR q r = -|(q : ℝ)| ^ (r : ℝ) := by
  rw [powR, if_pos h, neg_one_mul]

theorem powR_of_not_neg_odd {q r : ℚ} (h : ¬(q < 0 ∧ isOddQ r = true)) : powR q r = |(q : ℝ)| ^ (r : ℝ) := by
  rw [powR, if_neg h, one_mul]

end Pow

/-- Settles O42: the rows are the table's, by the two operands' classes, then by the base's place beside ±1 or the
exponent's sign and parity; the evaluator's power is negated where R305 negates it. -/
theorem fpowResult : Obligations.FpowResult := by
  intro F rd rs1 rs2 s hs x y X Y finX finY below above odd
  have hx : x.toNat < 2 ^ F.width := operand_lt s F rs1
  refine ⟨hasEncoding_row (Laws.Encoding.fpow F rd rs1 rs2),
    TableRows.firstRow_elemBinary (op := .pow) ?rows fun hnone => ?general⟩
  case general =>
    have hwrites := elemBinary_general (op := .pow) (rd := rd) hs hnone rfl
    have hneg : X < 0 ∧ odd ↔ valF F x < 0 ∧ isOddQ (valF F y) = true :=
      and_congr Rat.cast_lt_zero isOddInteger_iff
    exact ⟨fun h => powR_of_neg_odd (hneg.mp h) ▸ hwrites,
      fun h => powR_of_not_neg_odd (mt hneg.mpr h) ▸ hwrites⟩
  case rows =>
    change TableRows F (powTable F x y) _
    dsimp only [X, Y, finX, finY, below, above, odd]
    by_cases hone : valR F x = 1
    · have hfin : cls F x = .finite := finite_of_valR_ne_zero (by simp [hone])
      simp [TableRows, FirstRow, powTable_of_base_one hone, hfin, hone, oneF_lt]
    cases ux : unpack F x <;> cases uy : unpack F y
    case zero.zero | finite.zero | inf.zero | nan.zero =>
      simp [TableRows, FirstRow, cls, powTable_of_zero_exponent uy, uy, oneF_lt]
    case nan.finite | nan.inf | nan.nan =>
      have htable := powTable_of_nan_base (y := y) ux (by simp [cls, uy])
      simp [TableRows, FirstRow, cls, sgn, htable, ux, uy, Unpacked.sign, nanF_lt]
    case zero.nan | finite.nan | inf.nan =>
      have htable := powTable_of_nan_exponent uy (by simp [cls, ux]) hone
      simp [TableRows, FirstRow, cls, sgn, htable, ux, uy, Unpacked.sign, hone, nanF_lt]
    case zero.inf t =>
      have htable := powTable_of_base_below (x := x) uy (.inl (by simp [cls, ux]))
      cases t <;> simp [TableRows, FirstRow, cls, sgn, htable, ux, uy, Unpacked.sign, zeroF_lt, infF_lt]
    case inf.inf t =>
      have htable := powTable_of_base_above (x := x) uy (.inl (by simp [cls, ux]))
      cases t <;> simp [TableRows, FirstRow, cls, sgn, htable, ux, uy, Unpacked.sign, zeroF_lt, infF_lt]
    case finite.inf t =>
      by_cases hneg : valR F x = -1
      · simp [TableRows, FirstRow, cls, powTable_of_base_neg_one uy hneg, ux, uy, hneg, oneF_lt]
      rcases lt_trichotomy |valR F x| 1 with hbelow | habs | habove
      · have htable := powTable_of_base_below uy (.inr ⟨by simp [cls, ux], hbelow⟩)
        cases t <;> simp [TableRows, FirstRow, cls, sgn, htable, ux, uy, Unpacked.sign, hone, hneg, hbelow,
          hbelow.not_gt, zeroF_lt, infF_lt]
      · exact absurd (eq_or_eq_neg_of_abs_eq habs) (by simp [hone, hneg])
      · have htable := powTable_of_base_above uy (.inr ⟨by simp [cls, ux], habove⟩)
        cases t <;> simp [TableRows, FirstRow, cls, sgn, htable, ux, uy, Unpacked.sign, hone, hneg, habove,
          habove.not_gt, zeroF_lt, infF_lt]
    case zero.finite t _ _ =>
      have hzero := eq_zeroF_of_unpack hx ux
      by_cases hodd : isOddQ (valF F y) = true
      all_goals
        cases t <;> simp [TableRows, FirstRow, cls, sgn, powTable_of_zero_base ux uy, ux, uy, Unpacked.sign,
          valR_neg_iff uy, valR_pos_iff uy, isOddInteger_iff, hodd, ← hzero, hx, infF_lt, zeroF_lt]
    case inf.finite t' t _ _ =>
      by_cases hodd : isOddQ (valF F y) = true
      all_goals
        cases t <;> cases t' <;> simp [TableRows, FirstRow, cls, sgn, powTable_of_inf_base ux uy, ux, uy,
          Unpacked.sign, valR_neg_iff uy, valR_pos_iff uy, isOddInteger_iff, hodd, infF_lt, zeroF_lt]
    case finite.finite t' _ _ _ _ _ =>
      by_cases hint : isIntQ (valF F y) = true
      all_goals
        cases t' <;> simp [TableRows, FirstRow, cls, powTable_of_finite ux uy hone, ux, uy, hone, valR_neg_iff ux,
          isInteger_iff, hint, nanF_lt]

end Sys2Proof
end

section
/-! SUPPORT. The special-value tables of the hyperbolic, error-function and gamma commands read row by row (R250), the
domains of their general cases, the sign of Γ (R347), and what the commands write in rd and AUX (R331 to R349). -/

namespace Sys2Proof

open Sys2Proof.Machine Sys2Proof.Safety

section Tables
variable {F : Fmt} {x : Reg}

/-! ### The tables of the hyperbolic commands and their inverses (R331 to R336) -/

/-- FSINH's and FASINH's special rows are FCBRT's (R306, R331, R334). -/
theorem sinhTable_eq_cbrtTable (F : Fmt) (x : Reg) : sinhTable F x = cbrtTable F x := rfl
theorem asinhTable_eq_cbrtTable (F : Fmt) (x : Reg) : asinhTable F x = cbrtTable F x := rfl

theorem coshTable_rows (F : Fmt) (x : Reg) : TableRows F (coshTable F x)
    [(cls F x = .nan, nanF F (sgn F x)), (cls F x = .zero, oneF F false), (cls F x = .inf, infF F false)] := by
  cases u : unpack F x
  all_goals simp [TableRows, FirstRow, cls, sgn, coshTable, u, Unpacked.sign, nanF_lt, oneF_lt, infF_lt]

theorem tanhTable_rows (hx : x.toNat < 2 ^ F.width) : TableRows F (tanhTable F x)
    [(cls F x = .nan, nanF F (sgn F x)), (cls F x = .zero, x), (cls F x = .inf, oneF F (sgn F x))] := by
  cases u : unpack F x
  case zero => simp [TableRows, FirstRow, cls, tanhTable, u, ← eq_zeroF_of_unpack hx u, hx]
  all_goals simp [TableRows, FirstRow, cls, sgn, tanhTable, u, Unpacked.sign, nanF_lt, oneF_lt]

theorem valR_lt_one_iff : valR F x < 1 ↔ valF F x < 1 := by
  rw [valR]; exact_mod_cast Iff.rfl

theorem abs_valR_eq_one_iff : |valR F x| = 1 ↔ |valF F x| = 1 := by
  rw [valR]; exact_mod_cast Iff.rfl

theorem acoshTable_rows (F : Fmt) (x : Reg) : TableRows F (acoshTable F x)
    [(cls F x = .nan, nanF F (sgn F x)), (cls F x = .finite ∧ valR F x = 1, zeroF F false),
     ((cls F x = .finite ∧ valR F x < 1) ∨ cls F x = .zero ∨ (cls F x = .inf ∧ sgn F x = true), nanF F false),
     (cls F x = .inf, infF F false)] := by
  cases u : unpack F x
  case finite =>
    by_cases hone : valF F x = 1
    · simp [TableRows, FirstRow, cls, acoshTable, u, valR_eq_one_iff, hone, zeroF_lt]
    by_cases hbelow : valF F x < 1
    all_goals
      simp [TableRows, FirstRow, cls, acoshTable, u, valR_eq_one_iff, valR_lt_one_iff, hone, hbelow, nanF_lt]
  case inf t =>
    cases t <;> simp [TableRows, FirstRow, cls, sgn, acoshTable, u, Unpacked.sign, nanF_lt, infF_lt]
  all_goals simp [TableRows, FirstRow, cls, sgn, acoshTable, u, Unpacked.sign, nanF_lt]

/-- The table leaves to FACOSH's general case only values above 1 (R335). -/
theorem one_lt_valR_of_acoshTable (h : acoshTable F x = none) : 1 < valR F x := by
  cases u : unpack F x
  case finite =>
    simp only [acoshTable, u] at h
    split_ifs at h with hone hbelow
    have habove : 1 < valF F x := lt_of_le_of_ne (not_lt.mp hbelow) (Ne.symm hone)
    rw [valR]
    exact_mod_cast habove
  all_goals simp [acoshTable, u] at h

theorem atanhTable_rows (hx : x.toNat < 2 ^ F.width) : TableRows F (atanhTable F x)
    [(cls F x = .nan, nanF F (sgn F x)), (cls F x = .zero, x),
     (cls F x = .finite ∧ |valR F x| = 1, infF F (sgn F x)),
     ((cls F x = .finite ∧ 1 < |valR F x|) ∨ cls F x = .inf, nanF F false)] := by
  cases u : unpack F x
  case zero => simp [TableRows, FirstRow, cls, atanhTable, u, ← eq_zeroF_of_unpack hx u, hx]
  case finite =>
    by_cases hpole : |valF F x| = 1
    · simp [TableRows, FirstRow, cls, sgn, atanhTable, u, Unpacked.sign, abs_valR_eq_one_iff, hpole, infF_lt]
    by_cases houtside : 1 < |valF F x|
    all_goals
      simp [TableRows, FirstRow, cls, atanhTable, u, abs_valR_eq_one_iff, one_lt_abs_valR_iff, hpole, houtside,
        nanF_lt]
  all_goals simp [TableRows, FirstRow, cls, sgn, atanhTable, u, Unpacked.sign, nanF_lt]

/-- The table leaves to FATANH's general case only values between -1 and 1 (R336). -/
theorem abs_valR_lt_one_of_atanhTable (h : atanhTable F x = none) : |valR F x| < 1 := by
  cases u : unpack F x
  case finite =>
    simp only [atanhTable, u] at h
    split_ifs at h with hpole houtside
    exact abs_valR_lt_one_iff.mpr (lt_of_le_of_ne (not_lt.mp houtside) hpole)
  all_goals simp [atanhTable, u] at h

/-! ### The tables of the error functions (R340, R341) -/

/-- FERF's special rows are FTANH's (R333, R340). -/
theorem erfTable_eq_tanhTable (F : Fmt) (x : Reg) : erfTable F x = tanhTable F x := rfl

/-- 2.0 is a normal value of every format (R341). -/
theorem twoF_ok (F : Fmt) : FiniteOk F 1 (2 ^ F.p) := by
  have hb := F.bias_pos
  exact finiteOk_two_pow (by rw [F.emin_eq]; omega) (by rw [F.emax_eq]; omega)

theorem erfcTable_rows (F : Fmt) (x : Reg) : TableRows F (erfcTable F x)
    [(cls F x = .nan, nanF F (sgn F x)),
     (cls F x = .inf ∧ sgn F x = true, packFinite F false 1 (2 ^ F.p)),
     (cls F x = .inf ∧ sgn F x = false, zeroF F false)] := by
  cases u : unpack F x
  case inf t =>
    have htwo := packFinite_lt F false (twoF_ok F)
    cases t <;> simp [TableRows, FirstRow, cls, sgn, erfcTable, u, Unpacked.sign, htwo, zeroF_lt]
  all_goals simp [TableRows, FirstRow, cls, sgn, erfcTable, u, Unpacked.sign, nanF_lt]

/-! ### The tables of the gamma commands (R345, R349) -/

theorem tgammaTable_rows (F : Fmt) (x : Reg) : TableRows F (tgammaTable F x)
    [(cls F x = .nan, nanF F (sgn F x)), (cls F x = .zero, infF F (sgn F x)),
     (IsInteger F x ∧ valR F x < 0, nanF F false),
     (cls F x = .inf ∧ sgn F x = true, nanF F false), (cls F x = .inf, infF F false)] := by
  cases u : unpack F x
  case finite t _ _ =>
    have hfin : cls F x = .finite := by simp [cls, u]
    by_cases hint : isIntQ (valF F x) = true
    all_goals
      cases t <;> simp [TableRows, FirstRow, tgammaTable, u, hfin, isInteger_iff hfin, hint, valR_neg_iff u, nanF_lt]
  case inf t =>
    cases t <;> simp [TableRows, FirstRow, cls, sgn, IsInteger, tgammaTable, u, Unpacked.sign, nanF_lt, infF_lt]
  all_goals simp [TableRows, FirstRow, cls, sgn, IsInteger, tgammaTable, u, Unpacked.sign, nanF_lt, infF_lt]

theorem valR_eq_two_iff : valR F x = 2 ↔ valF F x = 2 := by
  rw [valR]; exact_mod_cast Iff.rfl

/-- FLGAMMA's rows give rd and AUX together. -/
theorem lgammaTable_rows (F : Fmt) (x : Reg) :
    FirstRow (fun v : Reg × Word => lgammaTable F x = some v.1 ∧ v.1.toNat < 2 ^ F.width ∧ lgammaAux F x = v.2)
      (lgammaTable F x = none)
      [(cls F x = .nan, (nanF F (sgn F x), 0)),
       (cls F x = .finite ∧ (valR F x = 1 ∨ valR F x = 2), (zeroF F false, 0)),
       (cls F x = .zero ∧ sgn F x = false, (infF F false, 0)),
       (cls F x = .zero ∧ sgn F x = true, (infF F false, 1)),
       (IsInteger F x ∧ valR F x < 0, (infF F false, 0)),
       (cls F x = .inf, (infF F false, 0))] := by
  cases u : unpack F x
  case zero t =>
    cases t <;> simp [FirstRow, cls, sgn, lgammaTable, lgammaAux, u, Unpacked.sign, infF_lt]
  case finite t _ _ =>
    have hfin : cls F x = .finite := by simp [cls, u]
    by_cases hroot : valF F x = 1 ∨ valF F x = 2
    · have hpos : t = false := (valF_pos_iff u).mp (by rcases hroot with h | h <;> simp [h])
      simp [FirstRow, lgammaTable, lgammaAux, u, hfin, valR_eq_one_iff, valR_eq_two_iff, hroot, hpos, zeroF_lt]
    · by_cases hint : isIntQ (valF F x) = true
      all_goals
        cases t <;> simp [FirstRow, lgammaTable, lgammaAux, u, hfin, valR_eq_one_iff, valR_eq_two_iff, hroot,
          isInteger_iff hfin, hint, valR_neg_iff u, infF_lt]
  all_goals simp [FirstRow, cls, sgn, IsInteger, lgammaTable, lgammaAux, u, Unpacked.sign, nanF_lt, infF_lt]

/-- The general case of the two gamma commands: finite, and no integer if negative. -/
def GammaGeneral (F : Fmt) (x : Reg) : Prop := cls F x = .finite ∧ (valR F x < 0 → ∀ k : ℤ, valR F x ≠ k)

/-- A finite value that fails the tables' test for a negative integer. -/
theorem gammaGeneral_of_unpack {t : Bool} {e : ℤ} {m : ℕ} (u : unpack F x = .finite t e m)
    (h : ¬(t = true ∧ isIntQ (valF F x) = true)) : GammaGeneral F x :=
  ⟨by simp [cls, u], fun hneg k hk => h ⟨(valR_neg_iff u).mp hneg, (isIntQ_iff _).mpr ⟨k, hk⟩⟩⟩

theorem gammaGeneral_of_tgammaTable (h : tgammaTable F x = none) : GammaGeneral F x := by
  cases u : unpack F x
  case finite =>
    simp only [tgammaTable, u] at h
    split_ifs at h with hpole
    exact gammaGeneral_of_unpack u hpole
  all_goals simp [tgammaTable, u] at h

theorem gammaGeneral_of_lgammaTable (h : lgammaTable F x = none) : GammaGeneral F x := by
  cases u : unpack F x
  case finite =>
    simp only [lgammaTable, u] at h
    split_ifs at h with hroot hpole
    exact gammaGeneral_of_unpack u hpole
  all_goals simp [lgammaTable, u] at h

/-! ### The sign of Γ (R347) -/

/-- The sine turns its sign at every integer multiple of π. -/
theorem sin_pi_mul_neg_iff {z : ℝ} (h : ∀ k : ℤ, z ≠ k) : Real.sin (Real.pi * z) < 0 ↔ Odd ⌊z⌋ := by
  have hfract : 0 < Int.fract z := Int.fract_pos.mpr (h _)
  have hpos : 0 < Real.sin (Real.pi * Int.fract z) :=
    Real.sin_pos_of_pos_of_lt_pi (by positivity)
      (mul_lt_of_lt_one_right Real.pi_pos (Int.fract_lt_one z))
  have hsin : Real.sin (Real.pi * z) = (-1) ^ ⌊z⌋ * Real.sin (Real.pi * Int.fract z) := by
    rw [← Real.sin_add_int_mul_pi]
    congr 1
    linear_combination Real.pi * (Int.floor_add_fract z).symm
  rw [hsin]
  rcases Int.even_or_odd ⌊z⌋ with heven | hodd
  · simp [heven.neg_one_zpow, hpos.not_gt, Int.not_odd_iff_even.mpr heven]
  · simp [hodd.neg_one_zpow, hpos, hodd]

/-- By the reflection formula Γ has the sine's sign at a negative argument that is no integer. -/
theorem Gamma_sign_of_neg {z : ℝ} (hz : z < 0) (h : ∀ k : ℤ, z ≠ k) :
    Real.Gamma z ≠ 0 ∧ (Real.Gamma z < 0 ↔ Odd ⌊z⌋) := by
  have hpos : 0 < Real.Gamma (1 - z) := Real.Gamma_pos_of_pos (by linarith)
  refine ⟨Real.Gamma_ne_zero fun m hm => h (-m) (by rw [hm]; push_cast; rfl), ?_⟩
  calc Real.Gamma z < 0
      ↔ Real.Gamma z * Real.Gamma (1 - z) < 0 := by simp [mul_neg_iff, hpos, hpos.not_gt]
    _ ↔ Real.pi / Real.sin (Real.pi * z) < 0 := by rw [Real.Gamma_mul_Gamma_one_sub]
    _ ↔ Real.sin (Real.pi * z) < 0 := by simp [div_neg_iff, Real.pi_pos, Real.pi_pos.not_gt]
    _ ↔ Odd ⌊z⌋ := sin_pi_mul_neg_iff h

/-- In the general case FLGAMMA's AUX says whether Γ is negative (R349). -/
theorem lgammaAux_of_general (h : GammaGeneral F x) :
    (Real.Gamma (valR F x) < 0 → lgammaAux F x = 1) ∧ (¬Real.Gamma (valR F x) < 0 → lgammaAux F x = 0) := by
  obtain ⟨hfin, hint⟩ := h
  obtain ⟨t, e, m, u⟩ := unpack_of_cls_finite hfin
  cases t
  case false =>
    have hpos := Real.Gamma_pos_of_pos ((valR_pos_iff u).mpr rfl)
    exact ⟨fun hneg => absurd hneg hpos.not_gt, fun _ => by simp [lgammaAux, u]⟩
  case true =>
    have hneg := (valR_neg_iff u).mpr rfl
    have hnot : isIntQ (valF F x) = false :=
      Bool.eq_false_iff.mpr fun hi => let ⟨k, hk⟩ := (isIntQ_iff _).mp hi; hint hneg k hk
    have hfloor : (valF F x).floor = ⌊valR F x⌋ := (Rat.floor_cast (α := ℝ) _).symm
    rw [(Gamma_sign_of_neg hneg (hint hneg)).2, Int.odd_iff]
    constructor <;> intro hodd <;> simp [lgammaAux, u, hnot, hfloor, hodd]

end Tables

/-! ### What the commands write -/

/-- Settles O44: the rows are the tables', class by class, and every finite operand is the general case. -/
theorem fsinhFcoshFtanhResults : Obligations.FsinhFcoshFtanhResults := by
  intro F rd rs1 s hs x
  have hx : x.toNat < 2 ^ F.width := operand_lt s F rs1
  have hsinh := sinhTable_eq_cbrtTable F x ▸ cbrtTable_rows hx
  exact ⟨hasEncoding_row (Laws.Encoding.fsinh F rd rs1),
    hsinh.firstRow_elemUnary (op := .sinh) (elemUnary_general hs · rfl),
    hasEncoding_row (Laws.Encoding.fcosh F rd rs1),
    (coshTable_rows F x).firstRow_elemUnary (op := .cosh) (elemUnary_general hs · rfl),
    hasEncoding_row (Laws.Encoding.ftanh F rd rs1),
    (tanhTable_rows hx).firstRow_elemUnary (op := .tanh) (elemUnary_general hs · rfl)⟩

/-- The inverse hyperbolic sine as R334 writes it. -/
theorem arsinh_eq_log (z : ℝ) : Real.arsinh z = Real.log (z + Real.sqrt (z ^ 2 + 1)) := by
  rw [Real.arsinh, add_comm 1]

/-- Settles O45: the rows are the tables', class by class and, for a finite operand, by its place beside 1 or ±1; what
they leave is the function's domain. -/
theorem fasinhFacoshFatanhResults : Obligations.FasinhFacoshFatanhResults := by
  intro F rd rs1 s hs x X
  have hx : x.toNat < 2 ^ F.width := operand_lt s F rs1
  have hasinh := asinhTable_eq_cbrtTable F x ▸ cbrtTable_rows hx
  exact ⟨hasEncoding_row (Laws.Encoding.fasinh F rd rs1),
    hasinh.firstRow_elemUnary (op := .asinh)
      fun hnone => arsinh_eq_log X ▸ elemUnary_general (op := .asinh) hs hnone rfl,
    hasEncoding_row (Laws.Encoding.facosh F rd rs1),
    (acoshTable_rows F x).firstRow_elemUnary (op := .acosh)
      fun hnone => ⟨one_lt_valR_of_acoshTable hnone, elemUnary_general hs hnone rfl⟩,
    hasEncoding_row (Laws.Encoding.fatanh F rd rs1),
    (atanhTable_rows hx).firstRow_elemUnary (op := .atanh)
      fun hnone => ⟨abs_valR_lt_one_of_atanhTable hnone, elemUnary_general hs hnone rfl⟩⟩

/-- Settles O46: the rows are the tables', class by class; FERFC's table leaves the zeros to the general case. -/
theorem ferfFerfcResults : Obligations.FerfFerfcResults := by
  intro F rd rs1 s hs x _
  have herf := erfTable_eq_tanhTable F x ▸ tanhTable_rows (operand_lt s F rs1)
  exact ⟨hasEncoding_row (Laws.Encoding.ferf F rd rs1),
    herf.firstRow_elemUnary (op := .erf) (elemUnary_general hs · rfl),
    hasEncoding_row (Laws.Encoding.ferfc F rd rs1),
    (erfcTable_rows F x).firstRow_elemUnary (op := .erfc) (elemUnary_general hs · rfl)⟩

/-- Settles O47: the rows are the table's, class by class; what they leave is no negative integer, where the reflection
formula gives the sign of Γ. -/
theorem ftgammaResult : Obligations.FtgammaResult := by
  intro F rd rs1 s hs x X
  refine ⟨hasEncoding_row (Laws.Encoding.ftgamma F rd rs1),
    (tgammaTable_rows F x).firstRow_elemUnary (op := .tgamma) fun hnone => ?_⟩
  obtain ⟨-, hint⟩ := gammaGeneral_of_tgammaTable hnone
  exact ⟨elemUnary_general hs hnone rfl, Real.Gamma_pos_of_pos, fun hneg => Gamma_sign_of_neg hneg (hint hneg)⟩

/-- FLGAMMA writes its result in rd with AUX beside it. -/
theorem writesAux_flgamma {F : Fmt} {rd rs1 : RegIdx} {s : State} {r : Reg}
    (hr : s.elemResult .lgamma F (s.operand F rs1) 0 = r) (hfits : r.toNat < 2 ^ F.width) :
    WritesAux (.flgamma F rd rs1) rd s r (lgammaAux F (s.operand F rs1)) := by
  change Host.Outcome.next (s.retireAux rd (lowBits F.width (s.elemResult .lgamma F (s.operand F rs1) 0)) _) = _
  rw [hr, lowBits_of_lt F.width_le hfits]

/-- Settles O48: the rows are the table's with AUX beside it, and in the general case AUX follows the sign of Γ. -/
theorem flgammaResult : Obligations.FlgammaResult := by
  intro F rd rs1 s hs x X writes
  refine ⟨hasEncoding_row (Laws.Encoding.flgamma F rd rs1), (lgammaTable_rows F x).imp ?row fun hnone => ?general⟩
  case row =>
    rintro ⟨r, a⟩ ⟨hrow, hfits, rfl⟩
    exact writesAux_flgamma (by simp [State.elemResult, ElemOp.table, x, hrow]) hfits
  case general =>
    obtain ⟨hone, hzero⟩ := lgammaAux_of_general (gammaGeneral_of_lgammaTable hnone)
    have hadm := s.elem_adm (op := .lgamma) (b := 0) hs hnone rfl
    have hgeneral : writes (s.elem .lgamma F x 0, lgammaAux F x) :=
      writesAux_flgamma (by simp [State.elemResult, ElemOp.table, x, hnone]) (adm_lt hadm)
    exact ⟨_, hadm, fun h => hone h ▸ hgeneral, fun h => hzero h ▸ hgeneral⟩

end Sys2Proof
end

section
/-! SUPPORT. The rows that FFMOD, FREMAINDER and FREMQUO share (R350), the exact remainder's size, sign and
representability, and what the three commands write in rd and AUX (R350 to R352). -/

namespace Sys2Proof

open Sys2Proof.Machine Sys2Proof.Safety

section Modulo
variable {F : Fmt} {x y : Reg} {sx sy : Bool} {ex ey : ℤ} {mx my : ℕ}

/-! ### The table of the modulo commands (R350, R351) -/

/-- The rows that the modulo commands share (R350). -/
def moduloRows (F : Fmt) (x y : Reg) : List (Prop × Reg) :=
  [(cls F x = .nan, nanF F (sgn F x)), (cls F y = .nan, nanF F (sgn F y)), (cls F x = .inf, nanF F false),
   (cls F y = .zero, nanF F false), (cls F x = .zero, x), (cls F y = .inf, x)]

/-- The rows leave two finite operands to the general case. -/
theorem moduloTable_rows (t : ℚ → ℚ → ℚ) (hx : x.toNat < 2 ^ F.width) :
    FirstRow (fun v => moduloTable t F x y = some v ∧ v.toNat < 2 ^ F.width) (cls F x = .finite ∧ cls F y = .finite)
      (moduloRows F x y) := by
  cases ux : unpack F x <;> cases uy : unpack F y
  case zero.finite | zero.inf =>
    simp [moduloRows, FirstRow, cls, moduloTable, ux, uy, ← eq_zeroF_of_unpack hx ux, hx]
  all_goals simp [moduloRows, FirstRow, cls, sgn, moduloTable, ux, uy, Unpacked.sign, nanF_lt, hx]

/-- For two finite operands a remainder of 0 keeps the sign of x, and any other is the general case. -/
theorem moduloTable_of_finite (t : ℚ → ℚ → ℚ) (ux : unpack F x = .finite sx ex mx)
    (uy : unpack F y = .finite sy ey my) :
    moduloTable t F x y = if t (valF F x) (valF F y) = 0 then some (zeroF F sx) else none := by
  simp [moduloTable, ux, uy]

/-! ### The exact remainder (R350, R351) -/

theorem fmodQ_cast (X Y : ℚ) : ((fmodQ X Y : ℚ) : ℝ) = X - truncR ((X : ℝ) / Y) * Y := by
  rw [fmodQ, truncQ_eq_truncR]; push_cast; rfl

theorem remQ_cast (X Y : ℚ) : ((remQ X Y : ℚ) : ℝ) = X - remQuotient X Y * Y := by
  rw [remQ]; push_cast; rfl

theorem nearestEven_remQuotient (X Y : ℚ) : NearestEven ((X : ℝ) / Y) (remQuotient X Y) := by
  have h := nearestEven_roundEvenQ (X / Y)
  rwa [Rat.cast_div] at h

/-- The nearest integer is no further away than 0 is. -/
theorem NearestEven.abs_sub_le {z : ℝ} {n : ℤ} (h : NearestEven z n) : |z - n| ≤ |z| := by
  obtain ⟨hnear, -⟩ := h
  by_cases hn : n = 0
  · simp [hn]
  · have hone : (1 : ℝ) ≤ |(n : ℝ)| := by exact_mod_cast Int.one_le_abs hn
    have htri := abs_sub_abs_le_abs_sub (n : ℝ) z
    rw [abs_sub_comm] at htri
    linarith

/-- A multiple of y taken from x leaves the quotient's distance from that multiple, in units of y. -/
theorem abs_sub_mul_eq {X Y : ℝ} (hY : Y ≠ 0) (n : ℤ) : |X - n * Y| = |X / Y - n| * |Y| := by
  rw [← abs_mul, sub_mul, div_mul_cancel₀ X hY]

/-- The remainder of truncating division has the sign of x and is the fraction of the quotient, in units of y. -/
theorem truncated_remainder_signed (s t : Bool) {A B : ℝ} (hA : 0 < A) (hB : 0 < B) :
    signed s A - truncR (signed s A / signed t B) * signed t B = signed s (Int.fract (A / B) * B) := by
  have hdiv : signed s A / signed t B = signed (s ^^ t) (A / B) := by
    cases s <;> cases t <;> simp [signed, neg_div, div_neg]
  have hA' : A / B * B = A := div_mul_cancel₀ A hB.ne'
  rw [hdiv, truncR_signed _ (by positivity), cast_signedInt, Int.fract, sub_mul, hA']
  cases s <;> cases t <;> simp [signed, neg_add_eq_sub]

/-- A finite value is an integer multiple of every power of two up to its last place. -/
theorem valR_eq_int_mul_zpow (ux : unpack F x = .finite sx ex mx) {q : ℤ} (hq : q ≤ ex - F.p) :
    ∃ k : ℤ, valR F x = k * 2 ^ q := by
  refine ⟨signedInt sx (mx * 2 ^ (ex - F.p - q).toNat : ℕ), ?_⟩
  rw [valR_of_unpack ux, cast_signedInt, Int.cast_natCast, ← shifted_mul_zpow mx hq]
  cases sx <;> simp [signed]

/-- A number of at most p+1 bits in units of a last place within the format's range. -/
theorem representable_of_int_mul_zpow {k q : ℤ} (hk : k ≠ 0) (hlo : F.emin ≤ q + F.p) (hhi : q + F.p ≤ F.emax)
    (hlt : |(k : ℝ) * 2 ^ q| < 2 ^ (F.p + 1) * 2 ^ q) : Representable F (k * 2 ^ q) := by
  have hu : (0 : ℝ) < 2 ^ q := by positivity
  have hpos : 0 < k.natAbs := Int.natAbs_pos.mpr hk
  have hfits : k.natAbs < 2 ^ (F.p + 1) := by
    rw [abs_mul, abs_of_pos hu] at hlt
    have h := lt_of_mul_lt_mul_right hlt hu.le
    rw [← Int.cast_abs, ← Nat.cast_natAbs] at h
    exact_mod_cast h
  have hlog : Nat.log2 k.natAbs < F.p + 1 := (Nat.log2_lt hpos.ne').mpr hfits
  have hval : (k : ℝ) * 2 ^ q = signed (decide (k < 0)) (k.natAbs * 2 ^ q) := by
    rw [← signed_decide_abs (k * 2 ^ q : ℝ), abs_mul, abs_of_pos hu, Nat.cast_natAbs, Int.cast_abs]
    simp [mul_neg_iff, hu, hu.not_gt]
  rw [hval]
  exact representable_of_fits _ hpos hfits hlo (by omega)

/-- A multiple of y taken from x is representable where it leaves no more than either: what is left is a multiple of
the lesser of the two last places, and less than 2^(p+1) of them. -/
theorem representable_sub_mul (ux : unpack F x = .finite sx ex mx) (uy : unpack F y = .finite sy ey my) (n : ℤ)
    (hne : valR F x - n * valR F y ≠ 0) (hleX : |valR F x - n * valR F y| ≤ |valR F x|)
    (hleY : |valR F x - n * valR F y| ≤ |valR F y|) : Representable F (valR F x - n * valR F y) := by
  have okx := finiteOk_of_unpack ux
  have oky := finiteOk_of_unpack uy
  obtain ⟨q, hq⟩ : ∃ q : ℤ, q + F.p = min ex ey := ⟨min ex ey - F.p, by ring⟩
  obtain ⟨kx, hkx⟩ := valR_eq_int_mul_zpow ux (q := q) (by omega)
  obtain ⟨ky, hky⟩ := valR_eq_int_mul_zpow uy (q := q) (by omega)
  have hlt : |valR F x - n * valR F y| < 2 ^ (F.p + 1) * (2 : ℝ) ^ q := by
    rcases le_total ex ey with h | h
    · rw [show q = ex - F.p by omega]
      rw [abs_valR ux] at hleX
      exact hleX.trans_lt (mul_lt_mul_of_pos_right (by exact_mod_cast okx.lt) (by positivity))
    · rw [show q = ey - F.p by omega]
      rw [abs_valR uy] at hleY
      exact hleY.trans_lt (mul_lt_mul_of_pos_right (by exact_mod_cast oky.lt) (by positivity))
  have hval : valR F x - n * valR F y = (kx - n * ky : ℤ) * 2 ^ q := by rw [hkx, hky]; push_cast; ring
  rw [hval] at hne hlt ⊢
  have hlo := okx.emin_le
  have hlo' := oky.emin_le
  have hhi := okx.le_emax
  exact representable_of_int_mul_zpow (fun h => hne (by simp [h])) (by omega) (by omega) hlt

/-- FFMOD's remainder is representable, less than the divisor, and has the dividend's sign. -/
theorem truncated_remainder_spec (ux : unpack F x = .finite sx ex mx) (uy : unpack F y = .finite sy ey my) {n : ℤ}
    (hn : truncR (valR F x / valR F y) = n) :
    (valR F x - n * valR F y ≠ 0 → Representable F (valR F x - n * valR F y)) ∧
      |valR F x - n * valR F y| < |valR F y| ∧
      (valR F x - n * valR F y ≠ 0 → (valR F x - n * valR F y < 0 ↔ valR F x < 0)) := by
  obtain ⟨A, hA⟩ : ∃ A : ℝ, A = mx * 2 ^ (ex - F.p) := ⟨_, rfl⟩
  obtain ⟨B, hB⟩ : ∃ B : ℝ, B = my * 2 ^ (ey - F.p) := ⟨_, rfl⟩
  have hm : (0 : ℝ) < mx := by exact_mod_cast (finiteOk_of_unpack ux).pos
  have hm' : (0 : ℝ) < my := by exact_mod_cast (finiteOk_of_unpack uy).pos
  have hApos : 0 < A := by rw [hA]; positivity
  have hBpos : 0 < B := by rw [hB]; positivity
  have hX : |valR F x| = A := (abs_valR ux).trans hA.symm
  have hY : |valR F y| = B := (abs_valR uy).trans hB.symm
  have hT : valR F x - n * valR F y = signed sx (Int.fract (A / B) * B) := by
    rw [← hn, valR_of_unpack ux, valR_of_unpack uy, ← hA, ← hB, truncated_remainder_signed _ _ hApos hBpos]
  have hnonneg : 0 ≤ Int.fract (A / B) * B := mul_nonneg (Int.fract_nonneg _) hBpos.le
  have habs : |valR F x - n * valR F y| = Int.fract (A / B) * B := by
    rw [hT]; cases sx <;> simp [signed, abs_of_nonneg hnonneg]
  have hlt : |valR F x - n * valR F y| < B := habs ▸ mul_lt_of_lt_one_left hBpos (Int.fract_lt_one _)
  have hle : |valR F x - n * valR F y| ≤ A := by
    have hfloor : (0 : ℝ) ≤ ⌊A / B⌋ := by exact_mod_cast Int.floor_nonneg.mpr (by positivity)
    rw [habs, ← le_div_iff₀ hBpos, Int.fract]
    linarith
  refine ⟨fun hne => representable_sub_mul ux uy n hne (hX ▸ hle) (hY ▸ hlt.le), hY ▸ hlt, fun hne => ?_⟩
  have hpos : 0 < Int.fract (A / B) * B := habs ▸ abs_pos.mpr hne
  rw [hT, signed_neg_iff sx hpos, valR_neg_iff ux]

/-- FREMAINDER's remainder is representable, and at most half the divisor. -/
theorem nearest_remainder_spec (ux : unpack F x = .finite sx ex mx) (uy : unpack F y = .finite sy ey my) {n : ℤ}
    (hn : NearestEven (valR F x / valR F y) n) :
    (valR F x - n * valR F y ≠ 0 → Representable F (valR F x - n * valR F y)) ∧
      |valR F x - n * valR F y| ≤ |valR F y| / 2 := by
  have hY : valR F y ≠ 0 := Rat.cast_ne_zero.mpr (valF_ne_zero uy)
  have heq := abs_sub_mul_eq (X := valR F x) hY n
  have hhalf : |valR F x - n * valR F y| ≤ |valR F y| / 2 := by
    have h := mul_le_mul_of_nonneg_right hn.1 (abs_nonneg (valR F y))
    linarith
  have hleX : |valR F x - n * valR F y| ≤ |valR F x| := by
    have h := mul_le_mul_of_nonneg_right hn.abs_sub_le (abs_nonneg (valR F y))
    rwa [← heq, ← abs_mul, div_mul_cancel₀ _ hY] at h
  exact ⟨fun hne => representable_sub_mul ux uy n hne hleX (by linarith [abs_nonneg (valR F y)]), hhalf⟩

/-! ### The general case (R350, R351) -/

/-- op is the operation of a modulo command whose exact remainder is t. -/
structure ModuloOp (op : ElemOp) (t : ℚ → ℚ → ℚ) : Prop where
  table : ∀ F x y, op.table F x y = moduloTable t F x y
  value : ∀ X Y, exactValue op X Y = t X Y
  inRange : ∀ F x, op.inRange F x = true

theorem moduloOp_fmod : ModuloOp .fmod fmodQ := ⟨fun _ _ _ => rfl, fun _ _ => rfl, fun _ _ => rfl⟩
theorem moduloOp_remainder : ModuloOp .remainder remQ := ⟨fun _ _ _ => rfl, fun _ _ => rfl, fun _ _ => rfl⟩

variable {op : ElemOp} {t : ℚ → ℚ → ℚ} {s : State} {rd rs1 rs2 : RegIdx}

/-- A modulo command writes what the first matching row says. -/
theorem ModuloOp.firstRow (hop : ModuloOp op t) {general : Prop}
    (hgeneral : cls F (s.operand F rs1) = .finite ∧ cls F (s.operand F rs2) = .finite → general) :
    FirstRow (fun v => wrF F rd (s.moduloResult op t F (s.operand F rs1) (s.operand F rs2)) s = .next (s.retire rd v))
      general (moduloRows F (s.operand F rs1) (s.operand F rs2)) :=
  (moduloTable_rows t (operand_lt s F rs1)).imp
    (fun v ⟨hv, hfits⟩ => by rw [State.moduloResult, hop.table, hv, Option.getD_some, wrF_of_lt hfits]) hgeneral

/-- Exactly t, or the evaluator's result for it. -/
theorem ModuloOp.adm_moduloGeneral (hop : ModuloOp op t) (hs : RomIntact s) (hnone : moduloTable t F x y = none)
    (hne : t (valF F x) (valF F y) ≠ 0) :
    Adm F (t (valF F x) (valF F y) : ℚ) (moduloGeneral t F x y (s.elem op F x y)) := by
  rw [moduloGeneral]
  split
  · rw [rneSigned_eq_rneSignedR F hne]
    exact roundedResultIsAdmissible F _ (Rat.cast_ne_zero.mpr hne)
  · rw [← hop.value]
    exact s.elem_adm hs ((hop.table F x y).trans hnone) (hop.inRange F x)

/-- With FMOD_EXACT the result is the exact remainder. -/
theorem moduloGeneral_exact (hexact : Config.fmodExact = true)
    (hrep : Representable F (t (valF F x) (valF F y) : ℚ)) (hne : t (valF F x) (valF F y) ≠ 0) (elem : Reg) :
    cls F (moduloGeneral t F x y elem) = .finite ∧
      valR F (moduloGeneral t F x y elem) = (t (valF F x) (valF F y) : ℚ) := by
  obtain ⟨s, e, m, hu, hval⟩ := unpack_rneSignedR hrep
  rw [moduloGeneral, if_pos hexact, rneSigned_eq_rneSignedR F hne]
  exact ⟨by simp [cls, hu], hval⟩

/-- What a modulo command writes for two finite operands with the exact remainder T. -/
theorem ModuloOp.writes_general (hop : ModuloOp op t) {i : Instr} (hs : RomIntact s)
    (hexec : exec i s = wrF F rd (s.moduloResult op t F x y) s) (ux : unpack F x = .finite sx ex mx)
    (uy : unpack F y = .finite sy ey my) {T : ℝ} (hT : (t (valF F x) (valF F y) : ℚ) = T)
    (hrep : T ≠ 0 → Representable F T) :
    (T = 0 → Writes i rd s (zeroF F (sgn F x))) ∧
      (T ≠ 0 → (∃ b, cls F b = .finite ∧ valR F b = T) ∧ WritesNear i rd s F T ∧
        (Config.fmodExact = true → ∃ r, Writes i rd s r ∧ cls F r = .finite ∧ valR F r = T)) := by
  subst hT
  have htable := moduloTable_of_finite t ux uy
  refine ⟨fun hzero => ?_, fun hne => ?_⟩
  · rw [if_pos (Rat.cast_eq_zero.mp hzero)] at htable
    rw [Writes, hexec, State.moduloResult, hop.table, htable, Option.getD_some, wrF_of_lt (zeroF_lt F sx), sgn, ux,
      Unpacked.sign]
  · have hneQ : t (valF F x) (valF F y) ≠ 0 := Rat.cast_ne_zero.mp hne
    rw [if_neg hneQ] at htable
    obtain ⟨b, e, m, hu, hval⟩ := unpack_rneSignedR (hrep hne)
    have hadm := hop.adm_moduloGeneral hs htable hneQ
    have hwrites : Writes i rd s (moduloGeneral t F x y (s.elem op F x y)) := by
      rw [Writes, hexec, State.moduloResult, hop.table, htable, Option.getD_none, wrF_of_lt (adm_lt hadm)]
    exact ⟨⟨_, by simp [cls, hu], hval⟩, ⟨_, hadm, hwrites⟩,
      fun hexact => ⟨_, hwrites, moduloGeneral_exact hexact (hrep hne) hneQ _⟩⟩

end Modulo

/-! ### FFMOD and FREMAINDER -/

/-- Settles O49: the rows are the shared table's, class by class; the exact remainder is a multiple of the lesser last
place that neither operand is smaller than, so it is representable. -/
theorem ffmodFremainderResults : Obligations.FfmodFremainderResults := by
  intro F rd rs1 rs2 s hs x y X Y rows general
  refine ⟨hasEncoding_row (Laws.Encoding.ffmod F rd rs1 rs2), moduloOp_fmod.firstRow ?fmod,
    hasEncoding_row (Laws.Encoding.fremainder F rd rs1 rs2), moduloOp_remainder.firstRow ?remainder⟩
  case fmod =>
    rintro ⟨hx, hy⟩
    obtain ⟨sx, ex, mx, ux⟩ := unpack_of_cls_finite hx
    obtain ⟨sy, ey, my, uy⟩ := unpack_of_cls_finite hy
    obtain ⟨hrep, hlt, hsign⟩ := truncated_remainder_spec ux uy rfl
    exact ⟨moduloOp_fmod.writes_general hs rfl ux uy (fmodQ_cast _ _) hrep, hlt, hsign⟩
  case remainder =>
    rintro ⟨hx, hy⟩
    obtain ⟨sx, ex, mx, ux⟩ := unpack_of_cls_finite hx
    obtain ⟨sy, ey, my, uy⟩ := unpack_of_cls_finite hy
    have hn := nearestEven_remQuotient (valF F x) (valF F y)
    obtain ⟨hrep, hle⟩ := nearest_remainder_spec ux uy hn
    exact ⟨_, hn, moduloOp_remainder.writes_general hs rfl ux uy (remQ_cast _ _) hrep, hle⟩

/-! ### FREMQUO (R352) -/

theorem remquoQbits_range : 3 ≤ Config.remquoQbits ∧ Config.remquoQbits ≤ 63 := by
  rw [Config.remquoQbits]; omega

/-- AUX is 0 in the special rows. -/
theorem remquoAux_of_special {F : Fmt} {x y : Reg} (h : ¬(cls F x = .finite ∧ cls F y = .finite)) :
    remquoAux F x y = 0 := by
  cases ux : unpack F x <;> cases uy : unpack F y
  case finite.finite => exact absurd ⟨by simp [cls, ux], by simp [cls, uy]⟩ h
  all_goals simp [remquoAux, ux, uy]

/-- Two's complement of a number below 2^64, negated or not. -/
theorem ofInt_signed_eq_ofNat (c : Prop) [Decidable c] {q : ℕ} (hq : q < 2 ^ 64) :
    BitVec.ofInt 64 (if c then -(q : ℤ) else q) = BitVec.ofNat 64 (if c then (2 ^ 64 - q) % 2 ^ 64 else q) := by
  split
  · apply BitVec.eq_of_toNat_eq
    rw [BitVec.toNat_ofInt, BitVec.toNat_ofNat]
    omega
  · exact BitVec.ofInt_natCast 64 q

theorem remquoAux_of_finite {F : Fmt} {x y : Reg} (hx : cls F x = .finite) (hy : cls F y = .finite) :
    let n := remQuotient (valF F x) (valF F y)
    let q := n.natAbs % 2 ^ Config.remquoQbits
    remquoAux F x y = BitVec.ofNat 64 (if n < 0 then (2 ^ 64 - q) % 2 ^ 64 else q) := by
  intro n q
  obtain ⟨sx, ex, mx, ux⟩ := unpack_of_cls_finite hx
  obtain ⟨sy, ey, my, uy⟩ := unpack_of_cls_finite hy
  have hq : q < 2 ^ 64 := (Nat.mod_lt _ (by positivity)).trans_le
    (Nat.pow_le_pow_right two_pos (remquoQbits_range.2.trans (by decide)))
  rw [← ofInt_signed_eq_ofNat _ hq]
  simp [remquoAux, ux, uy, n, q]

/-- Settles O50: rd is FREMAINDER's by definition, and AUX depends on the operands' classes and the quotient only. -/
theorem fremquoResult : Obligations.FremquoResult := by
  intro F rd rs1 rs2 s x y
  obtain ⟨hlo, hhi⟩ := remquoQbits_range
  exact ⟨hasEncoding_row (Laws.Encoding.fremquo F rd rs1 rs2), hlo, hhi,
    lowBits F.width (s.moduloResult .remainder remQ F x y), remquoAux F x y, rfl, rfl, remquoAux_of_special,
    fun hx hy => ⟨_, nearestEven_remQuotient _ _, remquoAux_of_finite hx hy⟩⟩

end Sys2Proof
end

section
/-! SUPPORT. Illegal command words and bus errors (R381 to R385): the decoder's checks read field by field, the first
that fails naming the cause (R104, R383), what an illegal command leaves in STATUS (R382), and the offsets and widths
that fault (R384). -/

namespace Sys2Proof

/-! ### Each check of the decoder is a check of the fields (R96 to R104) -/

/-- The opcode map's shape column is the four lists of opcodes (R96, R97). -/
theorem opShape_eq_lists (op : BitVec 8) :
    opShape op =
      if unaryOps.contains op then some .unary
      else if binaryOps.contains op then some .binary
      else if ternaryOps.contains op then some .ternary
      else if convertOps.contains op then some .convert
      else none := by
  unfold opShape
  split
  -- the last case is a reserved opcode, in none of the lists
  case h_49 => simp_all [unaryOps, binaryOps, ternaryOps, convertOps]
  all_goals rfl

theorem isSome_opShape (f : Fields) : (opShape f.op).isSome = f.opListed := by
  rw [opShape_eq_lists, Fields.opListed]
  split_ifs <;> simp_all

theorem Fmt.isSome_ofCode (b : BitVec 4) : (Fmt.ofCode b).isSome = decide (b.toNat ≤ 5) := by
  revert b; decide

theorem IntTy.isSome_ofCode (b : BitVec 4) : (IntTy.ofCode b).isSome = decide (b.toNat ≤ 7) := by
  revert b; decide

theorem isSome_fmt (f : Fields) : (Fmt.ofCode f.fmt).isSome = f.fmtLegal := Fmt.isSome_ofCode f.fmt

/-- Of the listed opcodes only the conversions' ask something of FMT2 (R100). -/
theorem isSome_build {f : Fields} {m : Shape} (F : Fmt) (hm : opShape f.op = some m) :
    (build F f).isSome = f.fmt2Legal := by
  unfold build
  split
  -- FCVT.F.F, FCVT.I.F and FCVT.F.I, and a reserved opcode, which has no shape
  case h_20 h => simp [Fields.fmt2Legal, h, Fmt.isSome_ofCode]
  case h_21 h => simp [Fields.fmt2Legal, h, IntTy.isSome_ofCode]
  case h_22 h => simp [Fields.fmt2Legal, h, IntTy.isSome_ofCode]
  case h_49 => simp [opShape, *] at hm
  all_goals rename_i h; simp [Fields.fmt2Legal, h]

/-- The mask of an opcode's shape asks that the fields the shape does not use are 0 (R96, R101). -/
theorem mask_iff_unusedZero {f : Fields} {m : Shape} (hm : opShape f.op = some m) :
    f.word &&& m.mask = f.op.setWidth 32 ↔ f.unusedZero = true := by
  rw [mask_iff, Fields.unusedZero]
  rw [opShape_eq_lists] at hm
  split_ifs at hm ⊢ <;> cases hm <;> simp [and_assoc]

/-! ### The decoder's answer by the first check that fails (R104, R383) -/

theorem opShape_of_opListed {f : Fields} (hop : f.opListed = true) : ∃ m, opShape f.op = some m :=
  Option.isSome_iff_exists.mp ((isSome_opShape f).trans hop)

theorem fmt_of_fmtLegal {f : Fields} (hfmt : f.fmtLegal = true) : ∃ F, Fmt.ofCode f.fmt = some F :=
  Option.isSome_iff_exists.mp ((isSome_fmt f).trans hfmt)

theorem build_of_fmt2Legal {f : Fields} {m : Shape} (F : Fmt) (hm : opShape f.op = some m)
    (hfmt2 : f.fmt2Legal = true) : ∃ i, build F f = some i :=
  Option.isSome_iff_exists.mp ((isSome_build F hm).trans hfmt2)

section Checks
variable {w : CmdWord}

theorem decode_badOp (hop : (fieldsOf w).opListed = false) : decode w = .error .badOp := by
  have hnone : opShape (fieldsOf w).op = none := by simpa [hop] using isSome_opShape (fieldsOf w)
  simp only [decode, hnone]

theorem decode_badFmt (hop : (fieldsOf w).opListed = true) (hfmt : (fieldsOf w).fmtLegal = false) :
    decode w = .error .badFmt := by
  obtain ⟨m, hm⟩ := opShape_of_opListed hop
  have hnone : Fmt.ofCode (fieldsOf w).fmt = none := by simpa [hfmt] using isSome_fmt (fieldsOf w)
  simp only [decode, hm, hnone]

theorem decode_badFmt2 (hop : (fieldsOf w).opListed = true) (hfmt : (fieldsOf w).fmtLegal = true)
    (hfmt2 : (fieldsOf w).fmt2Legal = false) : decode w = .error .badFmt2 := by
  obtain ⟨m, hm⟩ := opShape_of_opListed hop
  obtain ⟨F, hF⟩ := fmt_of_fmtLegal hfmt
  have hnone : build F (fieldsOf w) = none := by simpa [hfmt2] using isSome_build F hm
  simp only [decode, hm, hF, hnone]

/-- The last check decides between the command that was built and BAD_FIELD. -/
theorem decode_of_legalCodes (hop : (fieldsOf w).opListed = true) (hfmt : (fieldsOf w).fmtLegal = true)
    (hfmt2 : (fieldsOf w).fmt2Legal = true) :
    ∃ i, decode w = if (fieldsOf w).unusedZero then .ok i else .error .badField := by
  obtain ⟨m, hm⟩ := opShape_of_opListed hop
  obtain ⟨F, hF⟩ := fmt_of_fmtLegal hfmt
  obtain ⟨i, hi⟩ := build_of_fmt2Legal F hm hfmt2
  have hmask := mask_iff_unusedZero hm
  rw [word_fieldsOf] at hmask
  exact ⟨i, by simp only [decode, hm, hF, hi, hmask]⟩

end Checks

/-- Settles O4: each check of the fields is the decoder's own, and the decoder stops at the first that fails. -/
theorem firstFailedCheckDecides : Obligations.FirstFailedCheckDecides := by
  refine ⟨fun w => ⟨decode_badOp, decode_badFmt, decode_badFmt2, fun hop hfmt hfmt2 hunused => ?badField,
    fun hwf => ?legal⟩, by decide, by decide, by decide⟩
  case badField =>
    obtain ⟨i, hi⟩ := decode_of_legalCodes hop hfmt hfmt2
    rw [hi, hunused, if_neg Bool.false_ne_true]
  case legal =>
    simp only [Fields.wellFormed, Bool.and_eq_true] at hwf
    obtain ⟨⟨⟨hop, hfmt⟩, hfmt2⟩, hunused⟩ := hwf
    obtain ⟨i, hi⟩ := decode_of_legalCodes hop hfmt hfmt2
    exact ⟨i, by rw [hi, if_pos hunused]⟩

end Sys2Proof

namespace Sys2Proof.Machine

open Sys2Proof

/-! ### STATUS after an illegal command (R382) -/

theorem getLsbD_code_shift (c : Cause) {n : Nat} (hn : n < 64) :
    (c.code.setWidth 64 <<< 4).getLsbD n = (decide (4 ≤ n ∧ n < 8) && c.code.getLsbD (n - 4)) := by
  rw [BitVec.getLsbD_shiftLeft, BitVec.getLsbD_setWidth]
  rcases Nat.lt_or_ge n 8 with h | h
  · have hfrom : (!decide (n < 4)) = decide (4 ≤ n) := by rw [← decide_not]; simp only [not_lt]
    simp [hn, h, hfrom, show n - 4 < 64 by omega]
  · simp [BitVec.getLsbD_of_ge c.code (n - 4) (by omega)]

/-- An illegal command sets bits 0 and 1, puts the cause's code in bits 7:4, and leaves every other bit. -/
theorem getLsbD_statusIllegal (st : Word) (c : Cause) (n : Nat) :
    (statusIllegal st c).getLsbD n =
      if n < 2 then true else if 4 ≤ n ∧ n < 8 then c.code.getLsbD (n - 4) else st.getLsbD n := by
  rcases Nat.lt_or_ge n 64 with hn | hn
  · have hclear : ∀ n < 64, (~~~(0xF0 : Word)).getLsbD n = !decide (4 ≤ n ∧ n < 8) := by decide
    have hset : ∀ n < 64, (3 : Word).getLsbD n = decide (n < 2) := by decide
    rw [statusIllegal, BitVec.getLsbD_or, BitVec.getLsbD_or, BitVec.getLsbD_and, hclear n hn,
      getLsbD_code_shift c hn, hset n hn]
    by_cases hlow : n < 2
    · simp [hlow]
    · by_cases hcause : 4 ≤ n ∧ n < 8 <;> simp [hlow, hcause]
  · rw [BitVec.getLsbD_of_ge _ _ hn, BitVec.getLsbD_of_ge _ _ hn, if_neg (by omega), if_neg (by omega)]

theorem causeField_statusIllegal (st : Word) (c : Cause) : causeField (statusIllegal st c) = c.code := by
  apply BitVec.eq_of_getLsbD_eq
  intro k hk
  rw [causeField, BitVec.getLsbD_extractLsb', getLsbD_statusIllegal, if_neg (by omega), if_pos (by omega),
    Nat.add_sub_cancel_left, decide_eq_true hk, Bool.true_and]

/-- A step whose oldest event is a write of an illegal word to CMD records the word and raises IllegalCommand. -/
theorem step_illegalWrite {s : State} {v : Word} {rest : List HostEvent} {c : Cause}
    (hp : s.pending = cmdWrite v :: rest) (hd : decode (cmdWord v) = .error c) :
    step s = .next (({ s with pending := rest, reply := .ack } : State).recordCmd v |>.raiseIllegal c) := by
  simp only [step, serveNext, hp, cmdWrite, serve]
  rw [serveAccess_writeCmd rfl (targetAt_offset .cmd) rfl]
  exact issue_error hd

/-- Settles O6: the step records the word and raises IllegalCommand, which changes STATUS alone. -/
theorem illegalCommandEffect : Obligations.IllegalCommandEffect := by
  intro s v rest c hp hd
  refine ⟨statusIllegal s.status c, step_illegalWrite hp hd, ?_, ?_, causeField_statusIllegal s.status c,
    fun k h0 h1 hcause => ?_⟩
  · rw [getLsbD_statusIllegal, if_pos (by decide)]
  · rw [getLsbD_statusIllegal, if_pos (by decide)]
  · rw [getLsbD_statusIllegal, if_neg (by omega), if_neg hcause]

/-! ### Which accesses fault (R384) -/

/-- No word stands at an offset that is no multiple of 8 or lies past AUX (R61). -/
theorem targetAt_eq_none_iff (off : BitVec 12) :
    targetAt off = none ↔ off.toNat % 8 ≠ 0 ∨ 0x228 ≤ off.toNat := by
  simp only [targetAt, ← BitVec.toNat_inj, BitVec.reduceToNat]
  split_ifs <;> simp only [true_iff, false_iff] <;> omega

/-- An access of one word of the window goes on. -/
theorem serveAccess_next {a : Access} {g : Target} (hw : a.width = 8) (hg : targetAt a.offset = some g) (s : State) :
    ∃ t, serveAccess exec a s = .next t := by
  cases hd : a.dir with
  | read => exact ⟨_, serveAccess_read hw hg hd⟩
  | write v =>
    by_cases hcmd : g = .cmd
    · subst hcmd
      rw [serveAccess_writeCmd hw hg hd]
      cases hdec : decode (cmdWord v) with
      | ok i =>
        obtain ⟨r, x, he, -⟩ := exec_retires i ({ s with reply := .ack }.recordCmd v)
        exact ⟨_, (issue_ok hdec).trans he⟩
      | error c => exact ⟨_, issue_error hdec⟩
    · exact ⟨_, serveAccess_write hw hg hcmd hd⟩

theorem step_access {s : State} {a : Access} {rest : List HostEvent} (hp : s.pending = .access a :: rest) :
    step s = serveAccess exec a { s with pending := rest } := by
  simp only [step, serveNext, hp, serve]

/-- Settles O9: a fault of an access is its width or an offset with no word, and a word's access goes on. -/
theorem busErrorConditions : Obligations.BusErrorConditions := by
  intro s rest a hp
  rw [step_access hp]
  refine ⟨?_, fun hw haligned hlt => ?_⟩
  · rintro (hw | hoff)
    · exact serveAccess_badWidth hw
    · exact serveAccess_noTarget ((targetAt_eq_none_iff _).mpr hoff)
  · have hsome : targetAt a.offset ≠ none := by
      rw [Ne, targetAt_eq_none_iff]
      omega
    obtain ⟨g, hg⟩ := Option.ne_none_iff_exists'.mp hsome
    exact serveAccess_next hw hg _

end Sys2Proof.Machine
end

section
/-! SUPPORT. The platform's reset (R410, R412): what a step does with each reset event, and the written marks that
a reset leaves. -/

namespace Sys2Proof.Machine

open Sys2Proof

theorem step_reset {s : State} {rest : List HostEvent} (hp : s.pending = .reset :: rest) :
    step s = .next ({ s with pending := rest } : State).platformReset := by
  simp only [step, serveNext, hp, serve]

theorem step_accessInReset {s : State} {a : Access} {rest : List HostEvent}
    (hp : s.pending = .accessInReset a :: rest) : step s = .refused (.accessDuringReset a.offset a.width) := by
  simp only [step, serveNext, hp, serve]

@[simp] theorem State.isWritten_platformReset (s : State) (i : RegIdx) (j : Fin 4) :
    s.platformReset.isWritten i j = false := by
  simp [State.isWritten, noneWritten]

/-- Settles O10: a reset event's step is `platformReset`, whose fields are known; ID and FEATURES are hard-wired in
every state.  That an access while reset is asserted is refused is the model's choice (log 11). -/
theorem platformResetEffect : Obligations.PlatformResetEffect := by
  intro s rest
  refine ⟨fun hp => ⟨_, step_reset hp, ?_⟩, fun a hp => step_accessInReset hp⟩
  exact ⟨State.cmd_platformReset _, State.status_platformReset _, State.aux_platformReset _,
    State.isWritten_platformReset _, rfl, rfl, State.coefRom_platformReset _, State.invPiRom_platformReset _,
    State.pending_platformReset _⟩

end Sys2Proof.Machine
end
